-- ==== Sys2Proof/Word.lean ====
section
/-! DEFINITION. The widths of 00_scope R5 as types, and the table type the four memories are held in. -/

namespace Sys2Proof

/-- A command word and a response word: CMD_W = RSP_W = 64 bits (R5). -/
abbrev Word := BitVec 64

/-- One byte of the `out` stream, or one payload byte. -/
abbrev Byte := BitVec 8

/-- A symbol: "a single byte value (0–255)", SYM_W = 8 (R5). -/
abbrev Sym := BitVec 8

/-- A FREQ counter, FREQ_W = 32 (R5). -/
abbrev Freq := BitVec 32

/-- A tree node's frequency, NFREQ_W = 40 (R5). -/
abbrev NodeFreq := BitVec 40

/-- A node index, IDX_W = 9; the value 511 is NULL (R5). -/
abbrev NodeIdx := BitVec 9

/-- A code's length field, CLEN_W = 8 (R5). -/
abbrev CodeLen := BitVec 8

/-- A code's value field, CVAL_W = 255 (R5). -/
abbrev CodeVal := BitVec 255

/-- The decoder's remaining-symbol counter, LEN_W = 40 (R5). -/
abbrev Count := BitVec 40

/-- The error information register, EINFO_W = 16 (R5). -/
abbrev Info := BitVec 16

/-- A table memory (20_memory R40): the entries that differ from the table's reset entry, listed by
rising index. An index that is not listed reads as the reset entry. -/
abbrev Table (α : Type) := List (Nat × α)

end Sys2Proof
end

