-- ==== Sys2Proof/Config.lean ====
section
/-! DEFINITION. The sizes and constants of 00_scope R5. The spec leaves no value open that a rule reads
(93_implementation_defined, end of part 1), so there is no free value here. -/

namespace Sys2Proof.Config

/-- NSYM: symbols, entries of FREQ and of CODE (R5). -/
abbrev nSym : Nat := 256

/-- MAXNODES: entries of NODE, indices 0 to 510 (R5). -/
abbrev maxNodes : Nat := 511

/-- HEAP_CAP: slots of HEAP (R5). -/
abbrev heapCap : Nat := 256

/-- NULL: the node index value that means "none" (R5). -/
abbrev null : NodeIdx := 511#9

/-- MAXCODELEN: the largest code length in bits (R5, R134). -/
abbrev maxCodeLen : Nat := 255

/-- A FREQ counter's largest value, 2^32 − 1 (41_frequency R90). -/
abbrev freqMax : Freq := 0xFFFFFFFF#32

/-- The EINFO value of DND's CorruptStreamError (60_exceptions R182). -/
abbrev einfoShortInput : Info := 0x8000#16

end Sys2Proof.Config
end

