-- ==== Sys2Proof/Syntax.lean ====
section
/-! DEFINITION. The 21 commands of 30_encoding R63 with their operands, the opcode names, and the eight
formats of R61. -/

namespace Sys2Proof

/-- A command word's meaning as syntax: one constructor per row of the opcode table (30_encoding R63). -/
inductive Instr where
  /-- NOP, 40_control R80. -/
  | nop
  /-- CLR, 40_control R81. -/
  | clr
  /-- SRD, 40_control R82. -/
  | srd
  /-- DRD, 40_control R83. -/
  | drd
  /-- CNT sym, 41_frequency R90. -/
  | cnt (sym : Sym)
  /-- FWR sym, val, 41_frequency R91. -/
  | fwr (sym : Sym) (val : Freq)
  /-- FRD sym, 41_frequency R92. -/
  | frd (sym : Sym)
  /-- BLD, 43_tree R110. -/
  | bld
  /-- TWN idx, leaf, sym, left, right, 43_tree R116. -/
  | twn (idx : NodeIdx) (leaf : Bool) (sym : Sym) (left right : NodeIdx)
  /-- TWF idx, freq, 43_tree R117. -/
  | twf (idx : NodeIdx) (freq : NodeFreq)
  /-- TCM idx, 43_tree R119. -/
  | tcm (idx : NodeIdx)
  /-- TRN idx, 43_tree R120. -/
  | trn (idx : NodeIdx)
  /-- TRF idx, 43_tree R121. -/
  | trf (idx : NodeIdx)
  /-- GEN, 44_codes R130. -/
  | gen
  /-- CRL sym, 44_codes R135. -/
  | crl (sym : Sym)
  /-- CRW sym, k, 44_codes R136. -/
  | crw (sym : Sym) (k : BitVec 2)
  /-- ENC sym, 45_encode R141. -/
  | enc (sym : Sym)
  /-- FLS, 45_encode R142. -/
  | fls
  /-- DLN count, 46_decode R150. -/
  | dln (count : Count)
  /-- DEC byte, 46_decode R151. -/
  | dec (byte : Byte)
  /-- DND, 46_decode R153. -/
  | dnd
  deriving DecidableEq, Repr

/-- The operand formats of 30_encoding R61. -/
inductive Format where
  | N | S | SV | SK | X | T | TF | L
  deriving DecidableEq, Repr

/-- The opcodes by name (30_encoding R63). -/
inductive Opcode where
  | nop | clr | srd | drd | cnt | fwr | frd | bld | twn | twf | tcm | trn | trf | gen | crl | crw
  | enc | fls | dln | dec | dnd
  deriving DecidableEq, Repr

end Sys2Proof
end

