-- ==== Sys2Proof/WellFormed.lean ====
section
/-! DEFINITION. Which instructions the encoding can carry: 30_encoding R67 (c). The widths of the operand
types already hold the rest of R67 for an instruction as syntax. -/

namespace Sys2Proof

/-- 30_encoding R67: in formats X, T and TF the node index is not 511; "No other operand value is
ill-formed". -/
def Instr.wf : Instr → Bool
  | .twn idx _ _ _ _ => idx != Config.null
  | .twf idx _ => idx != Config.null
  | .tcm idx => idx != Config.null
  | .trn idx => idx != Config.null
  | .trf idx => idx != Config.null
  | .nop | .clr | .srd | .drd | .cnt _ | .fwr _ _ | .frd _ | .bld | .gen | .crl _ | .crw _ _
  | .enc _ | .fls | .dln _ | .dec _ | .dnd => true

end Sys2Proof
end

