-- ==== Sys2Proof/Decode.lean ====
section
/-! DEFINITION. Decoding of command words (30_encoding R60 to R63, R67, R68), total and rejecting by name, and
the encoder from the same tables. -/

namespace Sys2Proof

/-- Why a word is not well formed (30_encoding R67). -/
inductive DecodeError where
  /-- R67 (a): bits 63:56 are none of the 21 opcodes (R68). -/
  | reservedOpcode
  /-- R67 (b): a "zero" bit of the opcode's format is 1. -/
  | reservedBits
  /-- R67 (c): the node index of a format X, T or TF command is 511. -/
  | nullIndex
  deriving DecidableEq, Repr

/-- Opcode numbers (30_encoding R63). -/
def Opcode.code : Opcode → BitVec 8
  | .nop => 0x00#8
  | .clr => 0x01#8
  | .srd => 0x02#8
  | .drd => 0x03#8
  | .cnt => 0x10#8
  | .fwr => 0x11#8
  | .frd => 0x12#8
  | .bld => 0x20#8
  | .twn => 0x21#8
  | .twf => 0x22#8
  | .tcm => 0x23#8
  | .trn => 0x24#8
  | .trf => 0x25#8
  | .gen => 0x30#8
  | .crl => 0x31#8
  | .crw => 0x32#8
  | .enc => 0x40#8
  | .fls => 0x41#8
  | .dln => 0x50#8
  | .dec => 0x51#8
  | .dnd => 0x52#8

/-- Each opcode's format (30_encoding R61, R63). -/
def Opcode.format : Opcode → Format
  | .nop | .clr | .srd | .drd | .bld | .gen | .fls | .dnd => .N
  | .cnt | .frd | .crl | .enc | .dec => .S
  | .fwr => .SV
  | .crw => .SK
  | .tcm | .trn | .trf => .X
  | .twn => .T
  | .twf => .TF
  | .dln => .L

/-- All opcodes, in the order of the table (30_encoding R63). -/
def Opcode.all : List Opcode :=
  [.nop, .clr, .srd, .drd, .cnt, .fwr, .frd, .bld, .twn, .twf, .tcm, .trn, .trf, .gen, .crl, .crw,
   .enc, .fls, .dln, .dec, .dnd]

/-- The opcode with a given number, `none` for a reserved one (30_encoding R68). -/
def Opcode.ofCode (c : BitVec 8) : Option Opcode :=
  Opcode.all.find? fun op => op.code == c

/-- How many low bits of the operand field a format uses; the bits above them, up to bit 55, are the
format's "zero" bits (30_encoding R61). -/
def Format.usedBits : Format → Nat
  | .N => 0
  | .S => 8
  | .SV => 40
  | .SK => 10
  | .X => 9
  | .T => 36
  | .TF => 49
  | .L => 40

/-- Whether bits 8:0 are a node index that must not be 511 (30_encoding R67 (c)). -/
def Format.hasIdx : Format → Bool
  | .X | .T | .TF => true
  | .N | .S | .SV | .SK | .L => false

/-- The opcode byte, bits 63:56 (30_encoding R60). -/
def opcodeByte (w : Word) : BitVec 8 := w.extractLsb' 56 8

/-- The operand field, bits 55:0 (30_encoding R60). -/
def operandField (w : Word) : BitVec 56 := w.extractLsb' 0 56

/-- The operands of an opcode, taken from the word's bits (30_encoding R61, R62). -/
def fieldsOf (op : Opcode) (w : Word) : Instr :=
  match op with
  | .nop => .nop
  | .clr => .clr
  | .srd => .srd
  | .drd => .drd
  | .cnt => .cnt (w.extractLsb' 0 8)
  | .fwr => .fwr (w.extractLsb' 0 8) (w.extractLsb' 8 32)
  | .frd => .frd (w.extractLsb' 0 8)
  | .bld => .bld
  | .twn => .twn (w.extractLsb' 0 9) (w.getLsbD 9) (w.extractLsb' 10 8) (w.extractLsb' 18 9) (w.extractLsb' 27 9)
  | .twf => .twf (w.extractLsb' 0 9) (w.extractLsb' 9 40)
  | .tcm => .tcm (w.extractLsb' 0 9)
  | .trn => .trn (w.extractLsb' 0 9)
  | .trf => .trf (w.extractLsb' 0 9)
  | .gen => .gen
  | .crl => .crl (w.extractLsb' 0 8)
  | .crw => .crw (w.extractLsb' 0 8) (w.extractLsb' 8 2)
  | .enc => .enc (w.extractLsb' 0 8)
  | .fls => .fls
  | .dln => .dln (w.extractLsb' 0 40)
  | .dec => .dec (w.extractLsb' 0 8)
  | .dnd => .dnd

/-- Decoding: WellFormed(w) of 30_encoding R67, check by check, then the fields. -/
def decode (w : Word) : Except DecodeError Instr :=
  match Opcode.ofCode (opcodeByte w) with
  | none => .error .reservedOpcode
  | some op =>
    if operandField w >>> op.format.usedBits != 0#56 then .error .reservedBits
    else if op.format.hasIdx && w.extractLsb' 0 9 == Config.null then .error .nullIndex
    else .ok (fieldsOf op w)

/-- The opcode of an instruction (30_encoding R63). -/
def Instr.opcode : Instr → Opcode
  | .nop => .nop
  | .clr => .clr
  | .srd => .srd
  | .drd => .drd
  | .cnt _ => .cnt
  | .fwr _ _ => .fwr
  | .frd _ => .frd
  | .bld => .bld
  | .twn _ _ _ _ _ => .twn
  | .twf _ _ => .twf
  | .tcm _ => .tcm
  | .trn _ => .trn
  | .trf _ => .trf
  | .gen => .gen
  | .crl _ => .crl
  | .crw _ _ => .crw
  | .enc _ => .enc
  | .fls => .fls
  | .dln _ => .dln
  | .dec _ => .dec
  | .dnd => .dnd

/-- An instruction's operand field, laid out as its format says, zeros above (30_encoding R61). -/
def Instr.operands : Instr → BitVec 56
  | .nop | .clr | .srd | .drd | .bld | .gen | .fls | .dnd => 0#56
  | .cnt sym | .frd sym | .crl sym | .enc sym => 0#48 ++ sym
  | .dec byte => 0#48 ++ byte
  | .fwr sym val => 0#16 ++ val ++ sym
  | .crw sym k => 0#46 ++ k ++ sym
  | .tcm idx | .trn idx | .trf idx => 0#47 ++ idx
  | .twn idx leaf sym left right => 0#20 ++ right ++ left ++ sym ++ BitVec.ofBool leaf ++ idx
  | .twf idx freq => 0#7 ++ freq ++ idx
  | .dln count => 0#16 ++ count

/-- The command word of an instruction: the opcode in bits 63:56, the operand field below it
(30_encoding R60, R71). -/
def encode (i : Instr) : Word := i.opcode.code ++ i.operands

/-- A command word given as the low `nbits` bits of a number, the bits above them 0 (log 14). -/
def tableWord (nbits w : Nat) : Word := BitVec.ofNat 64 (w % 2 ^ nbits)

/-- The instruction the decoder reads from a table row's bits; `none` where it refuses. -/
def decodeTableWord (nbits w : Nat) : Option Instr :=
  match decode (tableWord nbits w) with
  | .ok i => some i
  | .error _ => none

end Sys2Proof
end

