-- ==== Sys2Proof/Machine/State.lean ====
section
/-! DEFINITION. The architectural state (10_state R10 to R24), the reasons a step can stop, the error codes, and
the state after reset (R29). -/

namespace Sys2Proof.Machine

/-- MODE, what the block is in the middle of (10_state R16). The value 3 "reserved, never produced by any
rule; a model may leave the value out of the type" (log 9). -/
inductive Mode where
  /-- 0: no payload stream is open. -/
  | idle
  /-- 1: a compressed stream is being produced. -/
  | enc
  /-- 2: a compressed stream is being consumed. -/
  | dec
  deriving DecidableEq, Repr

/-- The values of ERR (60_exceptions R181); 9 to 15 are never produced (93 I20, log 9). -/
inductive ErrCode where
  /-- 0: no error since CLR or reset. -/
  | none
  /-- 1: BLD with every FREQ entry 0. -/
  | emptyInput
  /-- 2: ENC of a symbol with no code. -/
  | unknownSymbol
  /-- 3: DEC met a missing child, or DND came with symbols still owed. -/
  | corruptStream
  /-- 4: TCM of a tree that is not proper. -/
  | headerFormat
  /-- 5: HEXT on an empty heap, unreachable (42_heap R107). -/
  | emptyQueue
  /-- 6: the word is not well formed. -/
  | illegalCommand
  /-- 7: a working command that is not legal now. -/
  | sequence
  /-- 8: CNT of a counter at its maximum. -/
  | countOverflow
  deriving DecidableEq, Repr

/-- A NODE entry (10_state R22). -/
structure NodeEntry where
  /-- 1: a leaf, `sym` is its symbol; 0: an internal node. -/
  leaf : Bool
  sym : Sym
  freq : NodeFreq
  left : NodeIdx
  right : NodeIdx
  deriving DecidableEq, Repr

/-- The EMPTY record, the reset value of every NODE entry (10_state R22). -/
def NodeEntry.empty : NodeEntry := ⟨false, 0#8, 0#40, Config.null, Config.null⟩

/-- A CODE entry: a bit-string as the pair (L, V) of 00_scope R6 (10_state R23). -/
structure Code where
  len : CodeLen
  val : CodeVal
  deriving DecidableEq, Repr

/-- "len = 0 means the symbol has no code; then val = 0" (10_state R23). -/
def Code.absent : Code := ⟨0#8, 0#255⟩

/-- What the host does next (20_memory R43, 70_reset R210). -/
inductive HostInput where
  /-- A command word is transferred on `cmd`. -/
  | command (w : Word)
  /-- `rst` is asserted. -/
  | reset
  deriving DecidableEq, Repr

/-- The state: the tuple of 10_state R10, the two output sequences, and the model's own `inputs` (log 1). -/
structure State where
  /-- FREQ, 256 counters, unlisted entries 0 (R21). -/
  freq : Table Freq
  /-- NODE, 511 entries, unlisted entries EMPTY (R22). -/
  node : Table NodeEntry
  /-- CODE, 256 entries, unlisted entries (0, 0) (R23). -/
  code : Table Code
  /-- HEAP, 256 hidden slots (R24); an unlisted slot reads 0 (log 3). -/
  heap : Table NodeIdx
  /-- HSIZE (R15). -/
  hsize : BitVec 9
  /-- ROOT (R12). -/
  root : NodeIdx
  /-- TV, tree valid (R17). -/
  tv : Bool
  /-- CV, codes valid (R18). -/
  cv : Bool
  /-- MODE (R16). -/
  mode : Mode
  /-- ACC, the pending code bits, right-aligned (R11). -/
  acc : BitVec 7
  /-- NBITS, how many bits are pending (R11). -/
  nbits : BitVec 3
  /-- CUR, the tree-walker's current node (R13). -/
  cur : NodeIdx
  /-- REM, symbols still owed (R14). -/
  rem : Count
  /-- ERR, the first error since CLR or reset (R19). -/
  err : ErrCode
  /-- EINFO, recorded with ERR (R19). -/
  einfo : Info
  /-- Every byte appended to `out` since reset, oldest first (20_memory R44, R211). -/
  out : List Byte
  /-- Every word appended to `rsp` since reset, oldest first (20_memory R45, R211). -/
  rsp : List Word
  /-- The model's own: what the host does next, soonest first (log 1). -/
  inputs : List HostInput
  deriving DecidableEq, Repr

/-- Reasons the machine stops. Each marks a state that breaks 10_state R25, which "hold in every reachable
state"; no run from reset meets one, and stopping there is safe. -/
inductive Fault where
  /-- Raised by GEN and DEC when they would read NODE[511], which "names no entry" (20_memory R40): only
  where ROOT or a walked index is NULL although a tree is in use. Safe (log 5). -/
  | nullNode
  /-- Raised by BLD when HSIZE is not 0 although no build is in progress (10_state R25 item 1). Safe (log 6). -/
  | heapInUse
  /-- Raised by GEN when a path from ROOT is longer than 255 edges, which no proper tree has (44_codes R134).
  Safe (log 7). -/
  | pathTooLong
  deriving DecidableEq, Repr

/-- Reasons an instruction has no meaning. -/
inductive Refusal where
  /-- An arm of `exec` not written yet. No arm of this model is refused. Safe. -/
  | notModelled (mnemonic : String)
  deriving DecidableEq, Repr

/-- The state after reset (10_state R29, 70_reset R210). HEAP's slots and `inputs` are the model's own
values (log 3, log 1). -/
def State.reset : State where
  freq := []
  node := []
  code := []
  heap := []
  hsize := 0#9
  root := Config.null
  tv := false
  cv := false
  mode := .idle
  acc := 0#7
  nbits := 0#3
  cur := Config.null
  rem := 0#40
  err := .none
  einfo := 0#16
  out := []
  rsp := []
  inputs := []

/-- The outcome of a step or of an instruction. -/
abbrev Result := Host.Outcome State Fault Refusal

/-- The outcome of a piece of a command's pseudocode: it goes on with a value and a state, or `raise` has ended
the command in a state (60_exceptions R183), or the machine stops. -/
inductive Res (α : Type) where
  | ok (a : α) (s : State)
  | raised (s : State)
  | fault (f : Fault)

end Sys2Proof.Machine
end

