-- ==== Sys2Proof/Machine/Ops.lean ====
section
/-! DEFINITION. The named operations over the tables, the registers and the streams; latching an error (`raise`,
60_exceptions R183) and the way back from it (`clear`, 40_control R81, 60_exceptions R191). -/

namespace Sys2Proof

/-- Read of one whole entry; `d` is the table's reset entry (20_memory R41). -/
def Table.get {α : Type} (d : α) : Table α → Nat → α
  | [], _ => d
  | (j, v) :: t, i => if i = j then v else Table.get d t i

/-- The table with entry `i` listed as `v`, at its place in the rising order. -/
def Table.insert {α : Type} : Table α → Nat → α → Table α
  | [], i, v => [(i, v)]
  | (j, u) :: t, i, v =>
    if i < j then (i, v) :: (j, u) :: t
    else if i = j then (i, v) :: t
    else (j, u) :: Table.insert t i v

/-- The table with entry `i` not listed. -/
def Table.erase {α : Type} (t : Table α) (i : Nat) : Table α := t.filter fun e => e.1 != i

/-- Write of one whole entry (20_memory R41), keeping the canonical form: the reset entry is never listed. -/
def Table.set {α : Type} [DecidableEq α] (d : α) (t : Table α) (i : Nat) (v : α) : Table α :=
  if v = d then Table.erase t i else Table.insert t i v

/-- Indices strictly rising, all above `lo`. -/
def Table.risingFrom {α : Type} (lo : Nat) : Table α → Bool
  | [] => true
  | (i, _) :: t => decide (lo ≤ i) && Table.risingFrom (i + 1) t

/-- The canonical form of a table of `n` entries with reset entry `d`: indices strictly rising and below
`n`, no entry equal to `d` (log 10). -/
def Table.wf {α : Type} [DecidableEq α] (d : α) (n : Nat) (t : Table α) : Bool :=
  Table.risingFrom 0 t && t.all fun e => decide (e.1 < n) && decide (e.2 ≠ d)

namespace Machine

/-- FREQ[sym] (00_scope R7, 10_state R21). -/
def State.freqAt (s : State) (sym : Sym) : Freq := Table.get 0#32 s.freq sym.toNat

/-- FREQ[sym] <- v. -/
def State.setFreq (s : State) (sym : Sym) (v : Freq) : State :=
  { s with freq := Table.set 0#32 s.freq sym.toNat v }

/-- NODE[i] in a node memory, for a node index `i` other than NULL. -/
def nodeAt (nodes : Table NodeEntry) (i : NodeIdx) : NodeEntry := Table.get NodeEntry.empty nodes i.toNat

/-- NODE[i] <- e in a node memory. -/
def setNodeAt (nodes : Table NodeEntry) (i : NodeIdx) (e : NodeEntry) : Table NodeEntry :=
  Table.set NodeEntry.empty nodes i.toNat e

/-- NODE[i], `none` for NULL: "The index value 511 of the NODE space is NULL and names no entry"
(20_memory R40). -/
def nodeAt? (nodes : Table NodeEntry) (i : NodeIdx) : Option NodeEntry :=
  if i = Config.null then none else some (nodeAt nodes i)

/-- NODE[i] <- {leaf, sym, freq, left, right} (00_scope R7). -/
def State.setNode (s : State) (i : NodeIdx) (e : NodeEntry) : State := { s with node := setNodeAt s.node i e }

/-- CODE[sym] in a code table (10_state R23). -/
def codeAt (codes : Table Code) (sym : Sym) : Code := Table.get Code.absent codes sym.toNat

/-- CODE[sym] <- c in a code table. -/
def setCodeAt (codes : Table Code) (sym : Sym) (c : Code) : Table Code := Table.set Code.absent codes sym.toNat c

/-- HEAP[k] (10_state R24); the read of a slot never written is log 3's. -/
def slotAt (h : Table NodeIdx) (k : Nat) : NodeIdx := Table.get 0#9 h k

/-- HEAP[k] <- i. -/
def setSlotAt (h : Table NodeIdx) (k : Nat) (i : NodeIdx) : Table NodeIdx := Table.set 0#9 h k i

/-- A node's child for a bit: "left child if bit is 0, right child if bit is 1" (46_decode R152, 44_codes R130). -/
def NodeEntry.child (e : NodeEntry) (b : Bool) : NodeIdx := if b then e.right else e.left

/-- CUR <- i (00_scope R7). -/
def State.moveTo (s : State) (i : NodeIdx) : State := { s with cur := i }

/-- ACC <- 0; NBITS <- 0 (45_encode R142, R143). -/
def State.dropPending (s : State) : State := { s with acc := 0#7, nbits := 0#3 }

/-- MODE <- m (00_scope R7). -/
def State.setMode (s : State) (m : Mode) : State := { s with mode := m }

/-- emit(b): append a byte to `out` (20_memory R44). -/
def State.emit (s : State) (b : Byte) : State := { s with out := s.out ++ [b] }

/-- respond(w): append a word to `rsp` (20_memory R45). -/
def State.respond (s : State) (w : Word) : State := { s with rsp := s.rsp ++ [w] }

/-- raise E(info), an error's whole effect on the state: "The first error wins" (60_exceptions R183). The
command ends where its pseudocode raises. -/
def State.raise (s : State) (e : ErrCode) (info : Info) : State :=
  if s.err = .none then { s with err := e, einfo := info } else s

/-- The way out of a latched error and the start of a new run: the reset values in every register and in FREQ,
NODE and CODE, `out` and `rsp` untouched (40_control R81, 60_exceptions R191). HEAP's slots, which R81 does
not write, and the words the host has yet to send stay (log 4, log 1). -/
def State.clear (s : State) : State :=
  { State.reset with heap := s.heap, out := s.out, rsp := s.rsp, inputs := s.inputs }

/-- `rst` (70_reset R210): the reset state; the streams are emptied and what the host does next stays (log 2). -/
def State.assertReset (s : State) : State := { State.reset with inputs := s.inputs }

/-- Statements in order: a raise or a stop ends the command (00_scope R7). -/
def Res.bind {α β : Type} (r : Res α) (f : α → State → Res β) : Res β :=
  match r with
  | .ok a s => f a s
  | .raised s => .raised s
  | .fault e => .fault e

/-- The outcome of a command's whole body: a raise is a next state (60_exceptions R183). -/
def Res.toResult {α : Type} (r : Res α) : Result :=
  match r with
  | .ok _ s => .next s
  | .raised s => .next s
  | .fault e => .fault e

end Machine
end Sys2Proof
end

