-- ==== Sys2Proof/Machine/Operands.lean ====
section
/-! DEFINITION. The forms operands, code bits and response words take (00_scope R6, 20_memory R47 and R49,
30_encoding R64). -/

namespace Sys2Proof.Machine

/-- A symbol as an EINFO value, `zext_16(sym)` (60_exceptions R182). -/
def infoOfSym (sym : Sym) : Info := sym.setWidth 16

/-- A node index as an EINFO value, `zext_16(idx)` (60_exceptions R182). -/
def infoOfIdx (i : NodeIdx) : Info := i.setWidth 16

/-- The opcode byte as an EINFO value, `zext_16(w[63:56])` (60_exceptions R182). -/
def infoOfOpcode (b : BitVec 8) : Info := b.setWidth 16

/-- The bits of a byte, bit 7 first (20_memory R47). -/
def byteBits (b : Byte) : List Bool :=
  [b.getLsbD 7, b.getLsbD 6, b.getLsbD 5, b.getLsbD 4, b.getLsbD 3, b.getLsbD 2, b.getLsbD 1, b.getLsbD 0]

/-- The low `n` bits of a value, bit n − 1 first. -/
def bitsDown {w : Nat} (v : BitVec w) : Nat → List Bool
  | 0 => []
  | n + 1 => v.getLsbD n :: bitsDown v n

/-- A code as the bit-string it stands for, first bit first: bits L − 1 down to 0 of V (00_scope R6,
20_memory R47). -/
def Code.bits (c : Code) : List Bool := bitsDown c.val c.len.toNat

/-- `(L, V) ++ b = (L + 1, 2×V + b)` (00_scope R6). -/
def Code.append (c : Code) (b : Bool) : Code :=
  ⟨c.len + 1#8, 2#255 * c.val + (BitVec.ofBool b).setWidth 255⟩

/-- The word DRD returns: REM at bits 39:0, CUR at 48:40 (40_control R83). -/
def decoderWord (cur : NodeIdx) (rem : Count) : Word := 0#15 ++ cur ++ rem

/-- The word FRD returns: sym at 7:0, the count at 39:8 (41_frequency R92). -/
def freqWord (sym : Sym) (f : Freq) : Word := 0#24 ++ f ++ sym

/-- The word TRN returns: idx at 8:0, leaf at 9, sym at 17:10, left at 26:18, right at 35:27 (43_tree R120). -/
def nodeWord (i : NodeIdx) (e : NodeEntry) : Word :=
  0#28 ++ e.right ++ e.left ++ e.sym ++ BitVec.ofBool e.leaf ++ i

/-- The word TRF returns: idx at 8:0, freq at 48:9 (43_tree R121). -/
def nodeFreqWord (i : NodeIdx) (e : NodeEntry) : Word := 0#15 ++ e.freq ++ i

/-- The word CRL returns: sym at 7:0, len at 15:8 (44_codes R135). -/
def codeLenWord (sym : Sym) (c : Code) : Word := 0#48 ++ c.len ++ sym

/-- The word CRW returns, `zext_256(val)[64k + 63 : 64k]` (44_codes R136, 20_memory R49). -/
def codeChunk (c : Code) (k : BitVec 2) : Word := (c.val.setWidth 256).extractLsb' (64 * k.toNat) 64

end Sys2Proof.Machine
end

