-- ==== Sys2Proof/Machine/Flags.lean ====
section
/-! DEFINITION. The status bits and the STATUS word (10_state R16, R19, R20, R26, R28). -/

namespace Sys2Proof.Machine

/-- MODE's two bits (10_state R16). -/
def Mode.code : Mode → BitVec 2
  | .idle => 0#2
  | .enc => 1#2
  | .dec => 2#2

/-- ERR's four bits (60_exceptions R181). -/
def ErrCode.code : ErrCode → BitVec 4
  | .none => 0#4
  | .emptyInput => 1#4
  | .unknownSymbol => 2#4
  | .corruptStream => 3#4
  | .headerFormat => 4#4
  | .emptyQueue => 5#4
  | .illegalCommand => 6#4
  | .sequence => 7#4
  | .countOverflow => 8#4

/-- DN, decode done: "1 exactly when MODE = DEC and REM = 0; a function of state" (10_state R20). -/
def State.dn (s : State) : Bool := s.mode == .dec && s.rem == 0#40

/-- The level output `err`, "equal to (ERR ≠ 0)" (10_state R28). -/
def State.errOut (s : State) : Bool := s.err != .none

/-- The STATUS word, field by field from bit 63 down, as SRD's rule concatenates it (40_control R82,
10_state R20). -/
def State.status (s : State) : Word :=
  0#16 ++ s.einfo ++ 0#3 ++ s.root ++ 0#1 ++ s.acc ++ s.nbits ++ BitVec.ofBool s.dn ++ BitVec.ofBool s.cv
    ++ BitVec.ofBool s.tv ++ s.mode.code ++ s.err.code

end Sys2Proof.Machine
end

