-- ==== Sys2Proof/Machine/Sequence.lean ====
section
/-! DEFINITION. The three checks every command passes before it is performed (30_encoding R65, R66;
60_exceptions R185, R187, R189). -/

namespace Sys2Proof

/-- ALWAYS, the commands that execute in every MODE and while an error is latched (30_encoding R65). -/
def Opcode.always : Opcode → Bool
  | .nop | .clr | .srd | .drd | .frd | .trn | .trf | .crl | .crw => true
  | .cnt | .fwr | .bld | .twn | .twf | .tcm | .gen | .enc | .fls | .dln | .dec | .dnd => false

namespace Machine

/-- SeqOK(op), when a command is legal (60_exceptions R189). -/
def State.seqOK (s : State) : Opcode → Bool
  | .nop | .clr | .srd | .drd | .frd | .trn | .trf | .crl | .crw => true
  | .cnt | .fwr | .bld | .twn | .twf | .tcm => !s.tv
  | .gen | .dln => s.tv && s.mode == .idle
  | .enc | .fls => s.cv && (s.mode == .idle || s.mode == .enc)
  | .dec | .dnd => s.mode == .dec

/-- Whether a command is accepted and dropped because an error is latched (60_exceptions R185). -/
def State.drops (s : State) (op : Opcode) : Bool := s.errOut && !op.always

/-- The checks of Execute in R66's order, then the command's own rule. An instruction that no word encodes
(its node index is 511) is treated as its word is (log 12). -/
def guarded (i : Instr) (s : State) (perform : State → Result) : Result :=
  if s.drops i.opcode then .next s
  else if !i.wf then .next (s.raise .illegalCommand (infoOfOpcode i.opcode.code))
  else if !s.seqOK i.opcode then .next (s.raise .sequence (infoOfOpcode i.opcode.code))
  else perform s

/-- Execute of a word that is not well formed (30_encoding R66, R68): a working opcode or a reserved one is
dropped while an error is latched, else IllegalCommandError with the opcode byte. -/
def executeIllFormed (w : Word) (s : State) : State :=
  let always := match Opcode.ofCode (opcodeByte w) with
    | some op => op.always
    | none => false
  if s.errOut && !always then s else s.raise .illegalCommand (infoOfOpcode (opcodeByte w))

end Machine
end Sys2Proof
end

