-- ==== Sys2Proof/Machine/Codes.lean ====
section
/-! DEFINITION. The code-table generator: GEN, CRL, CRW (44_codes). -/

namespace Sys2Proof.Machine

/-- Assign(i, (L, V)) of R130, filling a code table. The number bounds the depth: a path of more than 255 edges,
which no proper tree has (R134), stops (log 7), and so does a walk into NULL (log 5). -/
def assign (nodes : Table NodeEntry) : Nat → NodeIdx → Code → Table Code → Except Fault (Table Code)
  | 0, _, _, _ => .error .pathTooLong
  | depth + 1, i, path, codes =>
    match nodeAt? nodes i with
    | none => .error .nullNode
    | some e =>
      if e.leaf then .ok (setCodeAt codes e.sym path)
      else
        match assign nodes depth e.left (path.append false) codes with
        | .error f => .error f
        | .ok codes => assign nodes depth e.right (path.append true) codes

/-- The table GEN fills from an all-absent one: a root that is a leaf gets the code "0" (R130, R132). -/
def codesOf (nodes : Table NodeEntry) (root : NodeIdx) : Except Fault (Table Code) :=
  match nodeAt? nodes root with
  | none => .error .nullNode
  | some e =>
    if e.leaf then .ok (setCodeAt [] e.sym ⟨1#8, 0#255⟩)
    else assign nodes (Config.maxCodeLen + 1) root ⟨0#8, 0#255⟩ []

/-- GEN (R130). -/
def execGen (s : State) : Result :=
  guarded .gen s fun s =>
    match codesOf s.node s.root with
    | .ok codes => .next { s with code := codes, cv := true }
    | .error f => .fault f

/-- The source's per-node `code`, a view: a leaf's stored code once codes are valid, the empty string for an
internal node or before (R133). -/
def State.nodeCode (s : State) (i : NodeIdx) : List Bool :=
  if (nodeAt s.node i).leaf && s.cv then (codeAt s.code (nodeAt s.node i).sym).bits else []

/-- CRL sym (R135). -/
def execCrl (sym : Sym) (s : State) : Result :=
  guarded (.crl sym) s fun s => .next (s.respond (codeLenWord sym (codeAt s.code sym)))

/-- CRW sym, k (R136). -/
def execCrw (sym : Sym) (k : BitVec 2) (s : State) : Result :=
  guarded (.crw sym k) s fun s => .next (s.respond (codeChunk (codeAt s.code sym) k))

end Sys2Proof.Machine
end

