-- ==== Sys2Proof/Machine/Control.lean ====
section
/-! DEFINITION. NOP, CLR, SRD, DRD (40_control). -/

namespace Sys2Proof.Machine

/-- NOP (R80). -/
def execNop (s : State) : Result := guarded .nop s fun s => .next s

/-- CLR (R81). -/
def execClr (s : State) : Result := guarded .clr s fun s => .next s.clear

/-- SRD (R82). -/
def execSrd (s : State) : Result := guarded .srd s fun s => .next (s.respond s.status)

/-- DRD (R83). -/
def execDrd (s : State) : Result := guarded .drd s fun s => .next (s.respond (decoderWord s.cur s.rem))

end Sys2Proof.Machine
end

