-- ==== Sys2Proof/Machine/Frequency.lean ====
section
/-! DEFINITION. The frequency counter: CNT, FWR, FRD (41_frequency). -/

namespace Sys2Proof.Machine

/-- CNT sym (R90): no wrap and no silent saturation, CountOverflowError at 2^32 − 1. -/
def execCnt (sym : Sym) (s : State) : Result :=
  guarded (.cnt sym) s fun s =>
    if s.freqAt sym = Config.freqMax then .next (s.raise .countOverflow (infoOfSym sym))
    else .next (s.setFreq sym (s.freqAt sym + 1#32))

/-- FWR sym, val (R91). -/
def execFwr (sym : Sym) (val : Freq) (s : State) : Result :=
  guarded (.fwr sym val) s fun s => .next (s.setFreq sym val)

/-- FRD sym (R92). -/
def execFrd (sym : Sym) (s : State) : Result :=
  guarded (.frd sym) s fun s => .next (s.respond (freqWord sym (s.freqAt sym)))

end Sys2Proof.Machine
end

