-- ==== Sys2Proof/Machine/Packer.lean ====
section
/-! DEFINITION. The bit-packer: ENC, FLS and the internal step AppendBit (45_encode). -/

namespace Sys2Proof.Machine

/-- AppendBit(b) (R143). -/
def appendBit (s : State) (b : Bool) : State :=
  if s.nbits = 7#3 then (s.emit (s.acc ++ BitVec.ofBool b)).dropPending
  else { s with acc := s.acc <<< 1 ||| (BitVec.ofBool b).setWidth 7, nbits := s.nbits + 1#3 }

/-- AppendBit for each bit in order. -/
def appendBits : List Bool → State → State
  | [], s => s
  | b :: bs, s => appendBits bs (appendBit s b)

/-- ENC sym (R141): the check for a code comes before any bit is appended. -/
def execEnc (sym : Sym) (s : State) : Result :=
  guarded (.enc sym) s fun s =>
    if (codeAt s.code sym).len = 0#8 then .next (s.raise .unknownSymbol (infoOfSym sym))
    else .next (appendBits (codeAt s.code sym).bits (s.setMode .enc))

/-- The padded final byte: "pending bits at the top, zeros below" (R142). -/
def paddedByte (acc : BitVec 7) (nbits : BitVec 3) : Byte := acc.setWidth 8 <<< (8 - nbits.toNat)

/-- FLS (R142): one byte if NBITS is 1 to 7, none if it is 0. -/
def execFls (s : State) : Result :=
  guarded .fls s fun s =>
    if s.nbits = 0#3 then .next (s.setMode .idle)
    else .next ((s.emit (paddedByte s.acc s.nbits)).dropPending.setMode .idle)

end Sys2Proof.Machine
end

