-- ==== Sys2Proof/Machine/Heap.lean ====
section
/-! DEFINITION. The min-heap, internal to BLD: `less`, HINS, HEXT, HSZ over the array HEAP[0 .. HSIZE − 1]
(42_heap R100 to R104). -/

namespace Sys2Proof.Machine

/-- The strict total order of the heap: lower frequency first, on equal frequency the lower index (R100). -/
def less (nodes : Table NodeEntry) (i j : NodeIdx) : Bool :=
  decide ((nodeAt nodes i).freq < (nodeAt nodes j).freq)
    || ((nodeAt nodes i).freq == (nodeAt nodes j).freq && decide (i < j))

/-- swap HEAP[i] and HEAP[j]. -/
def swapSlots (h : Table NodeIdx) (i j : Nat) : Table NodeIdx :=
  setSlotAt (setSlotAt h i (slotAt h j)) j (slotAt h i)

/-- HINS's loop from slot `k` (R102): while the entry is less than its parent, swap. The first argument bounds
the rounds; `k` rounds are enough, since the slot number falls each time (log 8). -/
def siftUp (lt : NodeIdx → NodeIdx → Bool) : Nat → Nat → Table NodeIdx → Table NodeIdx
  | 0, _, h => h
  | rounds + 1, k, h =>
    if decide (0 < k) && lt (slotAt h k) (slotAt h ((k - 1) >>> 1)) then
      siftUp lt rounds ((k - 1) >>> 1) (swapSlots h k ((k - 1) >>> 1))
    else h

/-- The slot HEXT's loop picks at slot `k` of a heap of `n` entries: the least of slot `k` and its children
(R103). -/
def leastSlot (lt : NodeIdx → NodeIdx → Bool) (n k : Nat) (h : Table NodeIdx) : Nat :=
  let c := if decide (2 * k + 1 < n) && lt (slotAt h (2 * k + 1)) (slotAt h k) then 2 * k + 1 else k
  if decide (2 * k + 2 < n) && lt (slotAt h (2 * k + 2)) (slotAt h c) then 2 * k + 2 else c

/-- HEXT's loop from slot `k` of a heap of `n` entries (R103). The first argument bounds the rounds; `n` are
enough, since the slot number rises each time and stays below `n` (log 8). -/
def siftDown (lt : NodeIdx → NodeIdx → Bool) (n : Nat) : Nat → Nat → Table NodeIdx → Table NodeIdx
  | 0, _, h => h
  | rounds + 1, k, h =>
    let c := leastSlot lt n k h
    if c = k then h else siftDown lt n rounds c (swapSlots h k c)

/-- HINS(x): insert node index `x` (R102). Precondition, always met inside BLD: HSIZE < 256 (R106). -/
def hins (s : State) (x : NodeIdx) : State :=
  let k := s.hsize.toNat
  { s with
    heap := siftUp (less s.node) k k (setSlotAt s.heap k x)
    hsize := s.hsize + 1#9 }

/-- HEXT(): remove and return the minimum; EmptyQueueError on an empty heap, unreachable inside BLD
(R103, R107, log 16). -/
def hext (s : State) : Res NodeIdx :=
  if s.hsize = 0#9 then .raised (s.raise .emptyQueue 0#16)
  else
    let n := s.hsize.toNat - 1
    let h := if n > 0 then siftDown (less s.node) n n 0 (setSlotAt s.heap 0 (slotAt s.heap n)) else s.heap
    .ok (slotAt s.heap 0) { s with heap := h, hsize := s.hsize - 1#9 }

/-- HSZ(): the source's `size()` (R104). -/
def hsz (s : State) : Nat := s.hsize.toNat

end Sys2Proof.Machine
end

