-- ==== Sys2Proof/Machine/Tree.lean ====
section
/-! DEFINITION. The tree builder and the tree port: BLD, TWN, TWF, TCM, TRN, TRF (43_tree). -/

namespace Sys2Proof.Machine

/-- The symbols in ascending order (R110 step 1). -/
def allSyms : List Sym := (List.range Config.nSym).map (BitVec.ofNat 8)

/-- BLD step 1 over the given symbols: a leaf for every non-zero counter, written at the next free index and
inserted into the heap; answers the next free index (R110, R111). -/
def insertLeaves : List Sym → Nat → State → Nat × State
  | [], n, s => (n, s)
  | sym :: syms, n, s =>
    if s.freqAt sym = 0#32 then insertLeaves syms n s
    else
      let leaf : NodeEntry := ⟨true, sym, (s.freqAt sym).setWidth 40, Config.null, Config.null⟩
      insertLeaves syms (n + 1) (hins (s.setNode (BitVec.ofNat 9 n) leaf) (BitVec.ofNat 9 n))

/-- BLD step 2 (R110, R112): while HSZ() > 1, extract `a` then `b` and insert their parent, `a` on the left.
The first argument bounds the rounds; HSIZE rounds are enough, since each lowers HSIZE by one (log 8). -/
def mergeLoop : Nat → Nat → State → Res Nat
  | 0, n, s => .ok n s
  | rounds + 1, n, s =>
    if hsz s > 1 then
      (hext s).bind fun a s => (hext s).bind fun b s =>
        let parent : NodeEntry := ⟨false, 0#8, (nodeAt s.node a).freq + (nodeAt s.node b).freq, a, b⟩
        mergeLoop rounds (n + 1) (hins (s.setNode (BitVec.ofNat 9 n) parent) (BitVec.ofNat 9 n))
    else .ok n s

/-- BLD after its EmptyInput check: clear NODE, steps 1 to 3 (R110). -/
def buildTree (s : State) : Res Unit :=
  let leaves := insertLeaves allSyms 0 { s with node := [] }
  (mergeLoop (hsz leaves.2) leaves.1 leaves.2).bind fun _ s =>
    (hext s).bind fun r s => .ok () { s with root := r, tv := true }

/-- BLD (R110). A state with HSIZE not 0 between commands breaks 10_state R25 item 1 and stops (log 6). -/
def execBld (s : State) : Result :=
  guarded .bld s fun s =>
    if allSyms.all fun sym => s.freqAt sym == 0#32 then .next (s.raise .emptyInput 0#16)
    else if s.hsize ≠ 0#9 then .fault .heapInUse
    else (buildTree s).toResult

/-- TWN idx, leaf, sym, left, right (R116): the structure fields; freq stays (20_memory R41). -/
def execTwn (idx : NodeIdx) (leaf : Bool) (sym : Sym) (left right : NodeIdx) (s : State) : Result :=
  guarded (.twn idx leaf sym left right) s fun s =>
    .next (s.setNode idx ⟨leaf, sym, (nodeAt s.node idx).freq, left, right⟩)

/-- TWF idx, freq (R117): freq only (20_memory R41). -/
def execTwf (idx : NodeIdx) (freq : NodeFreq) (s : State) : Result :=
  guarded (.twf idx freq) s fun s => .next (s.setNode idx { nodeAt s.node idx with freq := freq })

/-- Check(i, V, Y) of R118: `none` is fail, else the enlarged sets of visited indices and seen symbols. The
number bounds the depth; 512 levels are enough, since every level adds one of 511 indices to V (log 8). -/
def checkTree (nodes : Table NodeEntry) :
    Nat → NodeIdx → List NodeIdx → List Sym → Option (List NodeIdx × List Sym)
  | 0, _, _, _ => none
  | depth + 1, i, V, Y =>
    if i ∈ V then none
    else
      let e := nodeAt nodes i
      if e.leaf then
        if e.left ≠ Config.null ∨ e.right ≠ Config.null then none
        else if e.sym ∈ Y then none
        else some (i :: V, e.sym :: Y)
      else if e.left = Config.null ∨ e.right = Config.null then none
      else
        match checkTree nodes depth e.left (i :: V) Y with
        | none => none
        | some (V', Y') => checkTree nodes depth e.right V' Y'

/-- Proper(r), for a node index r ≤ 510 (R118). -/
def proper (nodes : Table NodeEntry) (r : NodeIdx) : Bool :=
  r != Config.null && (checkTree nodes (Config.maxNodes + 1) r [] []).isSome

/-- TCM idx (R119). -/
def execTcm (idx : NodeIdx) (s : State) : Result :=
  guarded (.tcm idx) s fun s =>
    if proper s.node idx then .next { s with root := idx, tv := true }
    else .next (s.raise .headerFormat (infoOfIdx idx))

/-- TRN idx (R120). -/
def execTrn (idx : NodeIdx) (s : State) : Result :=
  guarded (.trn idx) s fun s => .next (s.respond (nodeWord idx (nodeAt s.node idx)))

/-- TRF idx (R121). -/
def execTrf (idx : NodeIdx) (s : State) : Result :=
  guarded (.trf idx) s fun s => .next (s.respond (nodeFreqWord idx (nodeAt s.node idx)))

end Sys2Proof.Machine
end

