-- ==== Sys2Proof/Machine/Walker.lean ====
section
/-! DEFINITION. The tree-walker: DLN, DEC, DND and the internal step WalkBit (46_decode). -/

namespace Sys2Proof.Machine

/-- emit(sym); REM <- REM − 1 (R152). -/
def emitSymbol (s : State) (sym : Sym) : State := { s.emit sym with rem := s.rem - 1#40 }

/-- WalkBit(b), called only with REM > 0 (R152). A read of NODE[NULL], possible only where a walk is open
without a tree, stops (log 5). -/
def walkBit (s : State) (b : Bool) : Res Unit :=
  match nodeAt? s.node s.root with
  | none => .fault .nullNode
  | some r =>
    if r.leaf then
      if b then .raised (s.raise .corruptStream (infoOfIdx s.root)) else .ok () (emitSymbol s r.sym)
    else
      match nodeAt? s.node s.cur with
      | none => .fault .nullNode
      | some c =>
        match nodeAt? s.node (c.child b) with
        | none => .raised (s.raise .corruptStream (infoOfIdx s.cur))
        | some e => if e.leaf then .ok () ((emitSymbol s e.sym).moveTo s.root) else .ok () (s.moveTo (c.child b))

/-- DEC's loop over the remaining bits of the byte: it ends where REM = 0 (R151, R154). -/
def walkBits : List Bool → State → Res Unit
  | [], s => .ok () s
  | b :: bs, s => if s.rem = 0#40 then .ok () s else (walkBit s b).bind fun _ s => walkBits bs s

/-- DLN count (R150). -/
def execDln (count : Count) (s : State) : Result :=
  guarded (.dln count) s fun s => .next { s with cur := s.root, rem := count, mode := .dec }

/-- DEC byte (R151). -/
def execDec (byte : Byte) (s : State) : Result :=
  guarded (.dec byte) s fun s => (walkBits (byteBits byte) s).toResult

/-- DND (R153). -/
def execDnd (s : State) : Result :=
  guarded .dnd s fun s =>
    if s.rem ≠ 0#40 then .next (s.raise .corruptStream Config.einfoShortInput)
    else .next ((s.moveTo Config.null).setMode .idle)

end Sys2Proof.Machine
end

