-- ==== Sys2Proof/Machine/Dispatch.lean ====
section
/-! DEFINITION. One arm per command: Execute of a well-formed word (30_encoding R66). -/

namespace Sys2Proof.Machine

/-- The meaning of an instruction. -/
def exec (i : Instr) (s : State) : Host.Outcome State Fault Refusal :=
  match i with
  | .nop => Sys2Proof.Machine.execNop s
  | .clr => Sys2Proof.Machine.execClr s
  | .srd => Sys2Proof.Machine.execSrd s
  | .drd => Sys2Proof.Machine.execDrd s
  | .cnt sym => Sys2Proof.Machine.execCnt sym s
  | .fwr sym val => Sys2Proof.Machine.execFwr sym val s
  | .frd sym => Sys2Proof.Machine.execFrd sym s
  | .bld => Sys2Proof.Machine.execBld s
  | .twn idx leaf sym left right => Sys2Proof.Machine.execTwn idx leaf sym left right s
  | .twf idx freq => Sys2Proof.Machine.execTwf idx freq s
  | .tcm idx => Sys2Proof.Machine.execTcm idx s
  | .trn idx => Sys2Proof.Machine.execTrn idx s
  | .trf idx => Sys2Proof.Machine.execTrf idx s
  | .gen => Sys2Proof.Machine.execGen s
  | .crl sym => Sys2Proof.Machine.execCrl sym s
  | .crw sym k => Sys2Proof.Machine.execCrw sym k s
  | .enc sym => Sys2Proof.Machine.execEnc sym s
  | .fls => Sys2Proof.Machine.execFls s
  | .dln count => Sys2Proof.Machine.execDln count s
  | .dec byte => Sys2Proof.Machine.execDec byte s
  | .dnd => Sys2Proof.Machine.execDnd s

end Sys2Proof.Machine
end

