-- ==== Sys2Proof/Machine/Fetch.lean ====
section
/-! DEFINITION. Where a step takes its command from, and where a command is placed for the next step (log 1). -/

namespace Sys2Proof.Machine

/-- The state once the host's next input has been taken. -/
def State.takeInput (s : State) : State := { s with inputs := s.inputs.tail }

/-- The host's next input is this command word. -/
def State.offerNext (s : State) (w : Word) : State := { s with inputs := .command w :: s.inputs }

/-- The host sends these commands after everything it already has to send. -/
def State.send (s : State) (is : List Instr) : State :=
  { s with inputs := s.inputs ++ is.map fun i => .command (encode i) }

end Sys2Proof.Machine
end

