-- ==== Sys2Proof/Machine/Step.lean ====
section
/-! DEFINITION. One step: the host's next input takes its whole effect (20_memory R43, 30_encoding R66,
70_reset R210). -/

namespace Sys2Proof.Machine

/-- The block "executes nothing until the host sends a command" (70_reset R210); a word is accepted and executed
(30_encoding R66); `rst` gives the reset state (R210). -/
def step (s : State) : Host.Outcome State Fault Refusal :=
  match s.inputs with
  | [] => .next s
  | .reset :: _ => .next s.takeInput.assertReset
  | .command w :: _ =>
    match decode w with
    | .ok i => exec i s.takeInput
    | .error _ => .next (executeIllFormed w s.takeInput)

/-- The state whose very next step executes the word with these low `nbits` bits (log 1, log 14). -/
def State.withFetchWord (s : State) (nbits w : Nat) : State := s.offerNext (tableWord nbits w)

end Sys2Proof.Machine
end

