-- ==== Sys2Proof/Machine/Pseudo.lean ====
section
/-! DEFINITION. The pseudo-commands of 30_encoding R72, the command sequences of 48_host_protocol R160 to R164,
and the assembler syntax of R71 (over lists of characters). -/

namespace Sys2Proof

open Machine

/-- `CNTS` (R72): the first pass over the input. -/
def cnts (bs : List Byte) : List Instr := bs.map .cnt

/-- `ENCS` (R72): the second pass over the input. -/
def encs (bs : List Byte) : List Instr := bs.map .enc

/-- `DECS` (R72): the payload bytes in order. -/
def decs (bs : List Byte) : List Instr := bs.map .dec

/-- `LEAF idx, sym, freq` (R72). -/
def leafCmds (idx : NodeIdx) (sym : Sym) (freq : NodeFreq) : List Instr :=
  [.twn idx true sym Config.null Config.null, .twf idx freq]

/-- `INODE idx, left, right, freq` (R72). -/
def inodeCmds (idx left right : NodeIdx) (freq : NodeFreq) : List Instr :=
  [.twn idx false 0#8 left right, .twf idx freq]

/-- `COMPRESS` (R72), the sequence of R161 without its optional export and its closing SRD. -/
def compressCmds (bs : List Byte) : List Instr := [.clr] ++ cnts bs ++ [.bld, .gen] ++ encs bs ++ [.fls]

/-- `DECOMPRESS n, b0, ..., bm` (R72), steps 3 to 5 of R162. -/
def decompressCmds (n : Count) (payload : List Byte) : List Instr := [.dln n] ++ decs payload ++ [.dnd]

/-- `buildTree(frequencyTable)` as commands (R160). -/
def buildTreeCmds (table : List (Sym × Freq)) : List Instr := [.clr] ++ table.map (fun e => .fwr e.1 e.2) ++ [.bld]

/-- The export commands for the node indices given, structure and frequency (R163). -/
def exportCmds (idxs : List NodeIdx) : List Instr := idxs.flatMap fun i => [.trn i, .trf i]

/-- The import commands that store the entries of a node memory at the indices given, structure and frequency; the
commit with TCM follows them (R164). -/
def importCmds (nodes : Table NodeEntry) (idxs : List NodeIdx) : List Instr :=
  idxs.flatMap fun i =>
    [.twn i (nodeAt nodes i).leaf (nodeAt nodes i).sym (nodeAt nodes i).left (nodeAt nodes i).right,
     .twf i (nodeAt nodes i).freq]

/-- A response word replayed as the write command that stores the same value: its opcode byte, 0 in a response,
becomes that of TWN, TWF or FWR, "the low 56 bits being already in operand layout" (R64, R164). -/
def replayAs (op : Opcode) (response : Word) : Word := op.code ++ operandField response

/-- Why a line of assembly text is refused (R71). -/
inductive AsmError where
  /-- The first word is no mnemonic of R63. -/
  | mnemonic
  /-- The mnemonic has another number of operands. -/
  | operandCount
  /-- An operand is no number in one of R71's forms. -/
  | number
  /-- "An operand that does not fit its field, or an idx of 511, is an assembler error" (R71). -/
  | range
  deriving DecidableEq, Repr

/-- Mnemonics "in upper case" (R63, R71), as characters. -/
def Opcode.mnemonic : Opcode → List Char
  | .nop => ['N', 'O', 'P']
  | .clr => ['C', 'L', 'R']
  | .srd => ['S', 'R', 'D']
  | .drd => ['D', 'R', 'D']
  | .cnt => ['C', 'N', 'T']
  | .fwr => ['F', 'W', 'R']
  | .frd => ['F', 'R', 'D']
  | .bld => ['B', 'L', 'D']
  | .twn => ['T', 'W', 'N']
  | .twf => ['T', 'W', 'F']
  | .tcm => ['T', 'C', 'M']
  | .trn => ['T', 'R', 'N']
  | .trf => ['T', 'R', 'F']
  | .gen => ['G', 'E', 'N']
  | .crl => ['C', 'R', 'L']
  | .crw => ['C', 'R', 'W']
  | .enc => ['E', 'N', 'C']
  | .fls => ['F', 'L', 'S']
  | .dln => ['D', 'L', 'N']
  | .dec => ['D', 'E', 'C']
  | .dnd => ['D', 'N', 'D']

/-- The operand widths in the order of R63's "operands" column (R62, R71). -/
def Opcode.operandWidths : Opcode → List Nat
  | .nop | .clr | .srd | .drd | .bld | .gen | .fls | .dnd => []
  | .cnt | .frd | .crl | .enc | .dec => [8]
  | .fwr => [8, 32]
  | .crw => [8, 2]
  | .tcm | .trn | .trf => [9]
  | .twn => [9, 1, 8, 9, 9]
  | .twf => [9, 40]
  | .dln => [40]

/-- One digit's value in a base up to 16. -/
def digitValue (base : Nat) (c : Char) : Option Nat :=
  let n := c.toNat
  let v := if 48 ≤ n ∧ n ≤ 57 then n - 48 else if 97 ≤ n ∧ n ≤ 102 then n - 87 else if 65 ≤ n ∧ n ≤ 70 then n - 55 else 99
  if v < base then some v else none

/-- A numeral's value after the digits read so far. -/
def numeral (base : Nat) : Nat → List Char → Option Nat
  | acc, [] => some acc
  | acc, c :: cs =>
    match digitValue base c with
    | none => none
    | some v => numeral base (acc * base + v) cs

/-- A single quote. -/
abbrev quote : Char := Char.ofNat 39

/-- A number: "decimal, 0x hexadecimal, 0b binary, or a single printable ASCII character in single quotes", or
`NULL` for 511 (R71). -/
def numberOf (cs : List Char) : Option Nat :=
  if cs = ['N', 'U', 'L', 'L'] then some 511
  else if cs.head? = some quote then
    match cs with
    | [_, c, q] => if q = quote ∧ 32 ≤ c.toNat ∧ c.toNat ≤ 126 then some c.toNat else none
    | _ => none
  else if cs.take 2 = ['0', 'x'] ∧ cs.length > 2 then numeral 16 0 (cs.drop 2)
  else if cs.take 2 = ['0', 'b'] ∧ cs.length > 2 then numeral 2 0 (cs.drop 2)
  else if cs = [] then none
  else numeral 10 0 cs

/-- Split at a separator, but not at a quoted character: one that stands between two single quotes (R71). The
first argument is the character before. -/
def splitOnChar (sep : Char) : Char → List Char → List (List Char)
  | _, [] => [[]]
  | before, c :: cs =>
    match splitOnChar sep c cs with
    | [] => [[c]]
    | w :: ws =>
      if c = sep ∧ ¬ (before = quote ∧ cs.head? = some quote) then [] :: w :: ws else (c :: w) :: ws

/-- Without the spaces around it. -/
def strip (cs : List Char) : List Char :=
  ((cs.dropWhile (· == ' ')).reverse.dropWhile (· == ' ')).reverse

/-- The instruction of an opcode and its operand values in order, each below 2 to its width (R61, R71). -/
def instrOf (op : Opcode) (v : List Nat) : Instr :=
  let a := v.getD 0 0
  let b := v.getD 1 0
  match op with
  | .nop => .nop
  | .clr => .clr
  | .srd => .srd
  | .drd => .drd
  | .cnt => .cnt (.ofNat 8 a)
  | .fwr => .fwr (.ofNat 8 a) (.ofNat 32 b)
  | .frd => .frd (.ofNat 8 a)
  | .bld => .bld
  | .twn => .twn (.ofNat 9 a) (decide (b = 1)) (.ofNat 8 (v.getD 2 0)) (.ofNat 9 (v.getD 3 0)) (.ofNat 9 (v.getD 4 0))
  | .twf => .twf (.ofNat 9 a) (.ofNat 40 b)
  | .tcm => .tcm (.ofNat 9 a)
  | .trn => .trn (.ofNat 9 a)
  | .trf => .trf (.ofNat 9 a)
  | .gen => .gen
  | .crl => .crl (.ofNat 8 a)
  | .crw => .crw (.ofNat 8 a) (.ofNat 2 b)
  | .enc => .enc (.ofNat 8 a)
  | .fls => .fls
  | .dln => .dln (.ofNat 40 a)
  | .dec => .dec (.ofNat 8 a)
  | .dnd => .dnd

/-- Every option holds a value. -/
def allSome {α : Type} : List (Option α) → Option (List α)
  | [] => some []
  | none :: _ => none
  | some a :: os =>
    match allSome os with
    | none => none
    | some as => some (a :: as)

/-- One line of assembly (R71): "the mnemonic ... in upper case, then its operands ..., separated by commas. A
`;` starts a comment". A line with nothing before its comment assembles to nothing. -/
def assembleLine (line : List Char) : Except AsmError (Option Instr) :=
  let text := strip ((splitOnChar ';' ' ' line).headD [])
  if text = [] then .ok none
  else
    let name := text.takeWhile (· != ' ')
    let rest := strip (text.dropWhile (· != ' '))
    let operands := if rest = [] then [] else (splitOnChar ',' ' ' rest).map strip
    match Opcode.all.find? fun op => op.mnemonic == name with
    | none => .error .mnemonic
    | some op =>
      if operands.length ≠ op.operandWidths.length then .error .operandCount
      else
        match allSome (operands.map numberOf) with
        | none => .error .number
        | some vs =>
          if (vs.zip op.operandWidths).all fun e => decide (e.1 < 2 ^ e.2) then
            if (instrOf op vs).wf then .ok (some (instrOf op vs)) else .error .range
          else .error .range

end Sys2Proof
end

