-- ==== Sys2Proof/Safety.lean ====
section
/-! DEFINITION. The notions claims are stated in: the invariant of 10_state R25, paths and code tables
(44_codes R131), trees as data (43_tree R118), the heap property (42_heap R101), pending bits (10_state R11). -/

namespace Sys2Proof.Machine

/-- The node reached from `i` along edge labels, `false` a left edge and `true` a right edge; `none` where an
edge is missing. `Path(r, x)` of 44_codes R131 is the list that leads from `r` to `x`. -/
def follow (nodes : Table NodeEntry) : NodeIdx → List Bool → Option NodeIdx
  | i, [] => if i = Config.null then none else some i
  | i, b :: bs =>
    match nodeAt? nodes i with
    | none => none
    | some e => if e.leaf then none else follow nodes (e.child b) bs

/-- The path `bits` leads from `r` to a leaf that carries `sym`. -/
def LeafAt (nodes : Table NodeEntry) (r : NodeIdx) (bits : List Bool) (sym : Sym) : Prop :=
  ∃ x, follow nodes r bits = some x ∧ (nodeAt nodes x).leaf = true ∧ (nodeAt nodes x).sym = sym

/-- The pair (L, V) of a bit-string: V is the sum of c_i × 2^(L−1−i) (00_scope R6). -/
def codeOfBits (bits : List Bool) : Code :=
  ⟨BitVec.ofNat 8 bits.length, BitVec.ofNat 255 (bits.foldl (fun v b => 2 * v + b.toNat) 0)⟩

/-- The bit-string that is the code of a leaf reached by `bits`: the path, but "0" for a root that is a leaf
(44_codes R131, R132). -/
def leafCode (bits : List Bool) : List Bool := if bits = [] then [false] else bits

/-- `codes` is `Codes(r)` (44_codes R131): each leaf's symbol has its code, every other symbol has none. -/
def IsCodeTable (nodes : Table NodeEntry) (r : NodeIdx) (codes : Table Code) : Prop :=
  ∀ sym, (∀ bits, LeafAt nodes r bits sym → codeAt codes sym = codeOfBits (leafCode bits)) ∧
    ((∀ bits, ¬ LeafAt nodes r bits sym) → codeAt codes sym = Code.absent)

/-- The nodes reached from `i` form a tree with exactly the indices `V` and the leaf symbols `Y`: "every node is
either a leaf (symbol present, no children) or an internal node (symbol absent, exactly two children)"
(43_tree R118). -/
inductive IsTree (nodes : Table NodeEntry) : NodeIdx → List NodeIdx → List Sym → Prop where
  | leaf (i : NodeIdx) : i ≠ Config.null → (nodeAt nodes i).leaf = true →
      (nodeAt nodes i).left = Config.null → (nodeAt nodes i).right = Config.null →
      IsTree nodes i [i] [(nodeAt nodes i).sym]
  | node (i : NodeIdx) (Vl Vr : List NodeIdx) (Yl Yr : List Sym) : i ≠ Config.null →
      (nodeAt nodes i).leaf = false → IsTree nodes (nodeAt nodes i).left Vl Yl →
      IsTree nodes (nodeAt nodes i).right Vr Yr → IsTree nodes i (i :: (Vl ++ Vr)) (Yl ++ Yr)

/-- HEAP[0 .. HSIZE − 1] (10_state R24). -/
def State.heapMembers (s : State) : List NodeIdx := (List.range s.hsize.toNat).map (slotAt s.heap)

/-- The heap property: no entry is less than its parent (42_heap R101). -/
def State.HeapOrdered (s : State) : Prop :=
  ∀ k, 0 < k → k < s.hsize.toNat → less s.node (slotAt s.heap k) (slotAt s.heap ((k - 1) >>> 1)) = false

/-- The pending code bits, earliest first (10_state R11). -/
def State.pending (s : State) : List Bool := bitsDown s.acc s.nbits.toNat

/-- The symbols with a non-zero count, ascending (43_tree R111). -/
def State.liveSyms (s : State) : List Sym := allSyms.filter fun sym => s.freqAt sym != 0#32

/-- Every table is in its canonical form (log 10). -/
def State.memoryWf (s : State) : Bool :=
  Table.wf 0#32 Config.nSym s.freq && Table.wf NodeEntry.empty Config.maxNodes s.node
    && Table.wf Code.absent Config.nSym s.code && Table.wf 0#9 Config.heapCap s.heap

/-- 10_state R25, "The following hold in the reset state and are kept by every command": its eight items, and
the canonical form of the tables. -/
structure State.Inv (s : State) : Prop where
  /-- Item 1. -/
  heapIdle : s.hsize = 0#9
  /-- Item 2, TV = 0. -/
  noTree : s.tv = false → s.root = Config.null ∧ s.cv = false ∧ s.mode = .idle
  /-- Item 2, TV = 1. -/
  tree : s.tv = true → proper s.node s.root = true
  /-- Item 3, CV = 1. -/
  codes : s.cv = true → s.tv = true ∧ IsCodeTable s.node s.root s.code
  /-- Item 3, CV = 0. -/
  noCodes : s.cv = false → ∀ sym, codeAt s.code sym = Code.absent
  /-- Item 4. -/
  encMode : s.mode = .enc → s.cv = true
  /-- Item 4. -/
  decMode : s.mode = .dec → s.tv = true
  /-- Item 5. -/
  packerIdle : s.mode ≠ .enc → s.nbits = 0#3 ∧ s.acc = 0#7
  /-- Item 5. -/
  packerFits : s.acc.toNat < 2 ^ s.nbits.toNat
  /-- Item 6, MODE not DEC. -/
  walkerIdle : s.mode ≠ .dec → s.cur = Config.null ∧ s.rem = 0#40
  /-- Item 6, MODE = DEC. -/
  walkerOpen : s.mode = .dec →
    s.cur = s.root ∨ ((nodeAt s.node s.cur).leaf = false ∧ ∃ bits, follow s.node s.root bits = some s.cur)
  /-- Item 7. -/
  latch : s.err = .none → s.einfo = 0#16
  /-- Item 8. -/
  codeFits : ∀ sym, (codeAt s.code sym).val.toNat < 2 ^ (codeAt s.code sym).len.toNat
  /-- The tables' canonical form (log 10). -/
  memory : s.memoryWf = true

/-- The commands in order, each executed on the state the one before left (20_memory R43, R50). -/
def execAll : List Instr → State → Result
  | [], s => .next s
  | i :: is, s =>
    match exec i s with
    | .next t => execAll is t
    | .fault f => .fault f
    | .refused r => .refused r

/-- The word raises IllegalCommandError with its opcode byte and does nothing else; while an error is latched it
does nothing at all (30_encoding R66, R67). -/
def RaisesIllegal (w : Word) : Prop :=
  ∀ s : State, step (s.offerNext w) =
    .next (if s.err = .none then { s with err := .illegalCommand, einfo := (opcodeByte w).setWidth 16 } else s)

/-- The instruction raises SequenceError with its opcode and does nothing else (60_exceptions R189). -/
def RaisesSequence (i : Instr) (s : State) : Prop :=
  exec i s = .next { s with err := .sequence, einfo := i.opcode.code.setWidth 16 }

/-! Encoding -/

/-- The opcode map of 30_encoding R63 with R61's formats: the opcode, the lowest "zero" bit of its format, and
whether bits 8:0 are an `idx` that must not be 511. -/
def opcodeMap : List (Nat × Nat × Bool) :=
  [(0x00, 0, false), (0x01, 0, false), (0x02, 0, false), (0x03, 0, false),
   (0x10, 8, false), (0x11, 40, false), (0x12, 8, false),
   (0x20, 0, false), (0x21, 36, true), (0x22, 49, true), (0x23, 9, true), (0x24, 9, true), (0x25, 9, true)] ++
  [(0x30, 0, false), (0x31, 8, false), (0x32, 10, false), (0x40, 8, false), (0x41, 0, false),
   (0x50, 40, false), (0x51, 8, false), (0x52, 0, false)]

/-- WellFormed(w) (30_encoding R67), on the word as a number. -/
def WellFormedWord (w : Word) : Prop :=
  ∃ row ∈ opcodeMap, w.toNat / 2 ^ 56 = row.1 ∧ w.toNat % 2 ^ 56 / 2 ^ row.2.1 = 0 ∧
    (row.2.2 = true → w.toNat % 2 ^ 9 ≠ 511)

/-- The field w[lo + n − 1 : lo] as a number (00_scope R6). -/
def wordField (w : Word) (lo n : Nat) : Nat := w.toNat / 2 ^ lo % 2 ^ n

/-- The instruction's opcode and operands are the fields of the word that 30_encoding R61 to R63 give it. -/
def FieldsIn (w : Word) : Instr → Prop
  | .nop => wordField w 56 8 = 0x00
  | .clr => wordField w 56 8 = 0x01
  | .srd => wordField w 56 8 = 0x02
  | .drd => wordField w 56 8 = 0x03
  | .cnt sym => wordField w 56 8 = 0x10 ∧ sym.toNat = wordField w 0 8
  | .fwr sym val => wordField w 56 8 = 0x11 ∧ sym.toNat = wordField w 0 8 ∧ val.toNat = wordField w 8 32
  | .frd sym => wordField w 56 8 = 0x12 ∧ sym.toNat = wordField w 0 8
  | .bld => wordField w 56 8 = 0x20
  | .twn idx leaf sym left right => wordField w 56 8 = 0x21 ∧ idx.toNat = wordField w 0 9 ∧
      leaf.toNat = wordField w 9 1 ∧ sym.toNat = wordField w 10 8 ∧ left.toNat = wordField w 18 9 ∧
      right.toNat = wordField w 27 9
  | .twf idx freq => wordField w 56 8 = 0x22 ∧ idx.toNat = wordField w 0 9 ∧ freq.toNat = wordField w 9 40
  | .tcm idx => wordField w 56 8 = 0x23 ∧ idx.toNat = wordField w 0 9
  | .trn idx => wordField w 56 8 = 0x24 ∧ idx.toNat = wordField w 0 9
  | .trf idx => wordField w 56 8 = 0x25 ∧ idx.toNat = wordField w 0 9
  | .gen => wordField w 56 8 = 0x30
  | .crl sym => wordField w 56 8 = 0x31 ∧ sym.toNat = wordField w 0 8
  | .crw sym k => wordField w 56 8 = 0x32 ∧ sym.toNat = wordField w 0 8 ∧ k.toNat = wordField w 8 2
  | .enc sym => wordField w 56 8 = 0x40 ∧ sym.toNat = wordField w 0 8
  | .fls => wordField w 56 8 = 0x41
  | .dln count => wordField w 56 8 = 0x50 ∧ count.toNat = wordField w 0 40
  | .dec byte => wordField w 56 8 = 0x51 ∧ byte.toNat = wordField w 0 8
  | .dnd => wordField w 56 8 = 0x52

/-- Every word with this opcode byte raises IllegalCommandError where a bit at or above bit `lo` of its operand
field is 1, or where it carries an `idx` and that is 511 (30_encoding R67). -/
def IllegalWords (c : BitVec 8) (lo : Nat) (hasIdx : Bool) : Prop :=
  ∀ w : Word, opcodeByte w = c →
    (w.toNat % 2 ^ 56 / 2 ^ lo ≠ 0 ∨ (hasIdx = true ∧ w.toNat % 2 ^ 9 = 511)) → RaisesIllegal w

/-- The word of CLR (40_control R81). -/
def clrWord : Word := 0x0100000000000000#64

/-! Reset, sequencing, errors -/

/-- The reset values of every register and of FREQ, NODE and CODE (10_state R29). HEAP's slots are "unspecified". -/
structure AtReset (s : State) : Prop where
  freq : ∀ sym, s.freqAt sym = 0#32
  node : ∀ i, i ≠ Config.null → nodeAt s.node i = ⟨false, 0#8, 0#40, 511#9, 511#9⟩
  code : ∀ sym, codeAt s.code sym = ⟨0#8, 0#255⟩
  hsize : s.hsize = 0#9
  root : s.root = 511#9
  flags : s.tv = false ∧ s.cv = false
  mode : s.mode = .idle
  packer : s.acc = 0#7 ∧ s.nbits = 0#3
  walker : s.cur = 511#9 ∧ s.rem = 0#40
  latch : s.err = .none ∧ s.einfo = 0#16

/-- "legal exactly when" of 60_exceptions R189; the always-executed commands are legal in every state. -/
def Legal (s : State) : Instr → Prop
  | .cnt _ | .fwr _ _ => s.tv = false
  | .bld => s.tv = false
  | .twn _ _ _ _ _ | .twf _ _ | .tcm _ => s.tv = false
  | .gen => s.tv = true ∧ s.mode = .idle
  | .enc _ | .fls => s.cv = true ∧ (s.mode = .idle ∨ s.mode = .enc)
  | .dln _ => s.tv = true ∧ s.mode = .idle
  | .dec _ | .dnd => s.mode = .dec
  | .nop | .clr | .srd | .drd | .frd _ | .trn _ | .trf _ | .crl _ | .crw _ _ => True

/-- A command's own errors with their codes and recorded values (60_exceptions R181, R182, R184); `t` is the state
the command left. EmptyQueueError (code 5) is not among BLD's: it is unreachable (42_heap R107). -/
def OwnError (s t : State) : Instr → Prop
  | .cnt sym => t.err.code = 8#4 ∧ t.einfo = sym.setWidth 16
  | .bld => t.err.code = 1#4 ∧ t.einfo = 0#16
  | .tcm idx => t.err.code = 4#4 ∧ t.einfo = idx.setWidth 16
  | .enc sym => t.err.code = 2#4 ∧ t.einfo = sym.setWidth 16
  | .dec _ => t.err.code = 3#4 ∧ t.einfo.toNat ≤ 510 ∧
      t.einfo = (if (nodeAt s.node s.root).leaf then s.root else t.cur).setWidth 16
  | .dnd => t.err.code = 3#4 ∧ t.einfo = 0x8000#16
  | .nop | .clr | .srd | .drd | .frd _ | .trn _ | .trf _ | .crl _ | .crw _ _
  | .fwr _ _ | .twn _ _ _ _ _ | .twf _ _ | .gen | .fls | .dln _ => False

/-- The part of 10_state R25 that speaks of registers only (items 1, 2, 3, 4, 5, 6 and 7 as far as they do not
name Proper, Codes or reachability), with R153's "when REM = 0, CUR = ROOT always". -/
structure State.RegInv (s : State) : Prop where
  heapIdle : s.hsize = 0#9
  noTree : s.tv = false → s.root = Config.null ∧ s.cv = false ∧ s.mode = .idle
  noCodes : s.cv = false → ∀ sym, codeAt s.code sym = Code.absent
  encMode : s.mode = .enc → s.cv = true
  decMode : s.mode = .dec → s.tv = true
  packerIdle : s.mode ≠ .enc → s.nbits = 0#3 ∧ s.acc = 0#7
  packerFits : s.acc.toNat < 2 ^ s.nbits.toNat
  walkerIdle : s.mode ≠ .dec → s.cur = Config.null ∧ s.rem = 0#40
  walkerAtRoot : s.mode = .dec → (s.rem = 0#40 ∨ (nodeAt s.node s.root).leaf = true) → s.cur = s.root
  latch : s.err = .none → s.einfo = 0#16

/-! Building -/

/-- BLD may run and has something to build: no error, no tree, no build in progress, some count not 0
(43_tree R110, 10_state R25 item 1). -/
structure State.Buildable (s : State) : Prop where
  noError : s.err = .none
  noTree : s.tv = false
  heapIdle : s.hsize = 0#9
  live : s.liveSyms ≠ []

/-- A node index below `k` that is no child of an internal node with an index in `L .. k − 1`: a node still in
the heap when BLD makes node `k` (43_tree R110, R111). -/
def Unmerged (nodes : Table NodeEntry) (L k : Nat) (i : NodeIdx) : Prop :=
  i.toNat < k ∧ ∀ j : NodeIdx, L ≤ j.toNat → j.toNat < k → (nodeAt nodes j).left ≠ i ∧ (nodeAt nodes j).right ≠ i

/-- Node `k` is the parent BLD makes of the two least unmerged nodes: the least is its left child, the next its
right child, its frequency is their sum (43_tree R110, R112). -/
def MergesLeast (nodes : Table NodeEntry) (L : Nat) (k : NodeIdx) : Prop :=
  (nodeAt nodes k).leaf = false ∧ (nodeAt nodes k).sym = 0#8 ∧
  (nodeAt nodes k).freq.toNat =
    (nodeAt nodes (nodeAt nodes k).left).freq.toNat + (nodeAt nodes (nodeAt nodes k).right).freq.toNat ∧
  Unmerged nodes L k.toNat (nodeAt nodes k).left ∧ Unmerged nodes L k.toNat (nodeAt nodes k).right ∧
  less nodes (nodeAt nodes k).left (nodeAt nodes k).right = true ∧
  ∀ i, Unmerged nodes L k.toNat i →
    i = (nodeAt nodes k).left ∨ i = (nodeAt nodes k).right ∨ less nodes (nodeAt nodes k).right i = true

/-- The number of bits the symbols' codes take, each as often as it occurs (20_memory R48, 43_tree R123). -/
def totalBits (syms : List Sym) (count : Sym → Nat) (len : Sym → Nat) : Nat :=
  (syms.map fun sym => count sym * len sym).sum

/-! Walking -/

/-- Bits read from node `i` of a tree whose root is internal: the symbols emitted and the node stood on after the
last bit; a leaf reached is emitted and the walk goes on from the root (46_decode R152). -/
inductive Walk (nodes : Table NodeEntry) (root : NodeIdx) : NodeIdx → List Bool → List Sym → NodeIdx → Prop where
  | done (i : NodeIdx) : Walk nodes root i [] [] i
  | move (i k : NodeIdx) (b : Bool) (bs : List Bool) (syms : List Sym) :
      (nodeAt nodes i).leaf = false → (nodeAt nodes i).child b ≠ Config.null →
      (nodeAt nodes ((nodeAt nodes i).child b)).leaf = false →
      Walk nodes root ((nodeAt nodes i).child b) bs syms k → Walk nodes root i (b :: bs) syms k
  | emit (i k : NodeIdx) (b : Bool) (bs : List Bool) (syms : List Sym) :
      (nodeAt nodes i).leaf = false → (nodeAt nodes i).child b ≠ Config.null →
      (nodeAt nodes ((nodeAt nodes i).child b)).leaf = true →
      Walk nodes root root bs syms k →
      Walk nodes root i (b :: bs) ((nodeAt nodes ((nodeAt nodes i).child b)).sym :: syms) k

end Sys2Proof.Machine
end

