-- ==== Sys2Proof/Certificates/Slice0/Obligations.lean ====
section
/-! DEFINITION. The statements for the provers. Each docstring names the rules of spec/ it formalises; where a
clause is the model's own choice it names the log entry. -/

open Sys2Proof Sys2Proof.Machine

/-! ## The command word -/

/-- 30_encoding R60 to R62: the word of a well-formed instruction decodes to that instruction, for every value of
every operand. -/
def Obligations.DecodeOfEncodeIsTheInstruction : Prop :=
  ∀ i : Instr, i.wf = true → decode (encode i) = .ok i

/-- 30_encoding R60, R61, R67: no two words decode to one instruction, so no bit of a word is dropped; and no
word decodes to an instruction with a node index of 511. -/
def Obligations.EncodeOfDecodeIsTheWord : Prop :=
  ∀ (w : Word) (i : Instr), decode w = .ok i → encode i = w ∧ i.wf = true

/-- 30_encoding R67: the decoder accepts exactly the well-formed words: (a) a defined opcode, (b) every "zero"
bit 0, (c) an idx other than 511. -/
def Obligations.DecoderAcceptsExactlyTheWellFormedWords : Prop :=
  ∀ w : Word, (∃ i, decode w = .ok i) ↔ WellFormedWord w

/-- 30_encoding R61, R62: every operand is the unsigned number in its field's contiguous bits. -/
def Obligations.OperandsAreTheirFieldsBits : Prop :=
  ∀ (w : Word) (i : Instr), decode w = .ok i → FieldsIn w i

/-- 30_encoding R68: 235 opcode values are reserved, in the ranges the rule lists; a word with one of them, or with
a non-zero reserved bit, or otherwise not well formed, raises IllegalCommandError; NOP's is the only word that does
nothing in every state; and every word is either performed or raises. -/
def Obligations.IllegalWordsRaiseAndOnlyNopIsIdle : Prop :=
  ((List.range 256).filter fun c => !opcodeMap.any fun row => row.1 == c) =
    List.range' 0x04 12 ++ List.range' 0x13 13 ++ List.range' 0x26 10 ++ List.range' 0x33 13 ++
      List.range' 0x42 14 ++ List.range' 0x53 173 ∧
  12 + 13 + 10 + 13 + 14 + 173 = 235 ∧
  (∀ w : Word, ¬ WellFormedWord w → RaisesIllegal w) ∧
  (∀ w : Word, (∀ s : State, step (s.offerNext w) = .next s) ↔ w = 0x0000000000000000#64) ∧
  ∀ w : Word, RaisesIllegal w ∨ ∃ i, decode w = .ok i ∧ ∀ s : State, step (s.offerNext w) = exec i s

/-- A sanity statement: words written out from 30_encoding R61 and R71 decode to their instructions. -/
def Obligations.WrittenOutWordsDecode : Prop :=
  decode 0x0000000000000000#64 = .ok .nop ∧
  decode 0x4000000000000061#64 = .ok (.enc 97#8) ∧
  decode 0x2100000000040002#64 = .ok (.twn 2#9 false 0#8 1#9 0#9) ∧
  decode 0x2200000000000802#64 = .ok (.twf 2#9 4#40) ∧
  decode 0x5000000000000004#64 = .ok (.dln 4#40) ∧
  decode 0x1100000000000361#64 = .ok (.fwr 97#8 3#32)

/-! ## The step -/

/-- 20_memory R43, 30_encoding R66, 70_reset R210: a step takes the host's next input; a word that decodes is
executed on the state without that input, a word that does not raises, no input changes nothing, `rst` gives the
reset state; and `withFetchWord` makes the next step run its word (the model's own conventions, log 1, 2 and 14). -/
def Obligations.StepExecutesTheNextCommand : Prop :=
  (∀ (s : State) (w : Word) (rest : List HostInput) (i : Instr), s.inputs = .command w :: rest → decode w = .ok i →
    step s = exec i { s with inputs := rest }) ∧
  (∀ (s : State) (w : Word) (rest : List HostInput) (e : DecodeError), s.inputs = .command w :: rest →
    decode w = .error e → step s = .next (if s.err = .none then
      { s with err := .illegalCommand, einfo := (opcodeByte w).setWidth 16, inputs := rest }
      else { s with inputs := rest })) ∧
  (∀ s : State, s.inputs = [] → step s = .next s) ∧
  (∀ (s : State) (rest : List HostInput), s.inputs = .reset :: rest →
    step s = .next { State.reset with inputs := rest }) ∧
  (∀ (s : State) (w : Word) (i : Instr), decode w = .ok i → step (s.withFetchWord 64 w.toNat) = exec i s) ∧
  ∀ s : State, step (s.withFetchWord 64 0x0000000000000000) = .next s

/-- 10_state R29: after reset and after CLR every register and table holds its reset value; reset empties `out`
and `rsp`, CLR leaves them. HEAP's slots are not named: the rule leaves them unspecified. -/
def Obligations.ResetAndClearGiveTheResetValues : Prop :=
  AtReset State.reset ∧ State.reset.out = [] ∧ State.reset.rsp = [] ∧
  (∀ (s : State) (rest : List HostInput), s.inputs = .reset :: rest →
    ∃ t, step s = .next t ∧ AtReset t ∧ t.out = [] ∧ t.rsp = [] ∧ t.errOut = false) ∧
  ∀ s : State, ∃ t, exec .clr s = .next t ∧ AtReset t ∧ t.out = s.out ∧ t.rsp = s.rsp

/-! ## Errors and sequencing -/

/-- 60_exceptions R185, R191, R192: while an error is latched every word that is not one of the nine ALWAYS
commands is dropped; no word but CLR's changes anything but `rsp`; a well-formed read command still answers; CLR
leads to the reset values with the output kept, reset to the reset state. -/
def Obligations.LatchedErrorHaltsUntilClearOrReset : Prop :=
  ∀ s : State, s.err ≠ .none →
    (∀ w : Word, w.toNat / 2 ^ 56 ∉ [0x00, 0x01, 0x02, 0x03, 0x12, 0x24, 0x25, 0x31, 0x32] →
      step (s.offerNext w) = .next s) ∧
    (∀ w : Word, w ≠ clrWord → ∃ ws, step (s.offerNext w) = .next { s with rsp := s.rsp ++ ws } ∧ ws.length ≤ 1) ∧
    (∀ w : Word, WellFormedWord w → w.toNat / 2 ^ 56 ∈ [0x02, 0x03, 0x12, 0x24, 0x25, 0x31, 0x32] →
      ∃ v, step (s.offerNext w) = .next { s with rsp := s.rsp ++ [v] }) ∧
    (∃ t, step (s.offerNext clrWord) = .next t ∧ AtReset t ∧ t.out = s.out ∧ t.rsp = s.rsp) ∧
    ∃ t, step { s with inputs := [.reset] } = .next t ∧ AtReset t ∧ t.out = [] ∧ t.rsp = []

/-- 60_exceptions R189: with no error latched, a command that is not legal raises SequenceError with its opcode and
does nothing else; one that is legal never does. -/
def Obligations.SequenceErrorExactlyWhereNotLegal : Prop :=
  ∀ (i : Instr) (s : State), i.wf = true → s.err = .none →
    (¬ Legal s i → RaisesSequence i s) ∧ (Legal s i → ∀ t, exec i s = .next t → t.err ≠ .sequence)

/-- 60_exceptions R181, R182, R184: which command can raise which error with which code and which EINFO. -/
def Obligations.EachCommandRaisesOnlyItsErrors : Prop :=
  ∀ (i : Instr) (s t : State), s.err = .none → exec i s = .next t → t.err ≠ .none →
    (t.err.code = 6#4 ∧ i.wf = false ∧ t.einfo = i.opcode.code.setWidth 16) ∨
    (t.err.code = 7#4 ∧ i.wf = true ∧ ¬ Legal s i ∧ t.einfo = i.opcode.code.setWidth 16) ∨
    OwnError s t i

/-- 60_exceptions R189's diagram, 10_state R16 to R18, R26: MODE, TV and CV change only along its arrows. -/
def Obligations.ModeAndFlagsChangeOnlyAlongTheDiagram : Prop :=
  ∀ (i : Instr) (s t : State), exec i s = .next t →
    (t.mode ≠ s.mode →
      (i = .clr ∧ t.mode = .idle) ∨
      (∃ sym, i = .enc sym ∧ s.mode = .idle ∧ s.cv = true ∧ t.mode = .enc) ∨
      (i = .fls ∧ s.mode = .enc ∧ t.mode = .idle) ∨
      (∃ count, i = .dln count ∧ s.mode = .idle ∧ s.tv = true ∧ t.mode = .dec) ∨
      (i = .dnd ∧ s.mode = .dec ∧ s.rem = 0#40 ∧ t.mode = .idle)) ∧
    (t.tv ≠ s.tv →
      (i = .clr ∧ t.tv = false) ∨ ((i = .bld ∨ ∃ idx, i = .tcm idx) ∧ t.tv = true ∧ t.err = .none)) ∧
    (t.cv ≠ s.cv → (i = .clr ∧ t.cv = false) ∨ (i = .gen ∧ s.tv = true ∧ t.cv = true))

/-- 10_state R11 to R19 and R21 to R24, "Written by ...": each register and each table changes only by the
commands its rule names; and no command touches what the host sends later (log 1). That CLR leaves HEAP's slots
alone is the model's reading (log 4). -/
def Obligations.EachRegisterIsWrittenOnlyByItsCommands : Prop :=
  ∀ (i : Instr) (s t : State), exec i s = .next t →
    (i.opcode ∉ [.enc, .fls, .clr] → t.acc = s.acc ∧ t.nbits = s.nbits) ∧
    (i.opcode ∉ [.bld, .tcm, .clr] → t.root = s.root ∧ t.tv = s.tv) ∧
    (i.opcode ∉ [.dln, .dec, .dnd, .clr] → t.cur = s.cur) ∧
    (i.opcode ∉ [.dln, .dec, .clr] → t.rem = s.rem) ∧
    (i.opcode ∉ [.bld, .clr] → t.hsize = s.hsize) ∧
    (i.opcode ≠ .bld → t.heap = s.heap) ∧
    (i.opcode ∉ [.enc, .fls, .dln, .dnd, .clr] → t.mode = s.mode) ∧
    (i.opcode ∉ [.gen, .clr] → t.cv = s.cv ∧ t.code = s.code) ∧
    (i.opcode ∉ [.cnt, .fwr, .clr] → t.freq = s.freq) ∧
    (i.opcode ∉ [.bld, .twn, .twf, .clr] → t.node = s.node) ∧
    (i.opcode ≠ .clr → s.err ≠ .none → t.err = s.err ∧ t.einfo = s.einfo) ∧
    t.inputs = s.inputs

/-- 20_memory R45: "Each read command ... that passes decode appends exactly one word; no other command appends
any", and nothing already appended is touched. -/
def Obligations.EachReadCommandAppendsExactlyOneWord : Prop :=
  ∀ (i : Instr) (s : State),
    (i.wf = true → i.opcode ∈ [.srd, .drd, .frd, .trn, .trf, .crl, .crw] →
      ∃ w, exec i s = .next { s with rsp := s.rsp ++ [w] }) ∧
    (i.opcode ∉ [.srd, .drd, .frd, .trn, .trf, .crl, .crw] ∨ i.wf = false → ∀ t, exec i s = .next t → t.rsp = s.rsp)

/-- 20_memory R40, R44: `out` only grows, and only ENC, FLS and DEC append to it. -/
def Obligations.OnlyPackerAndWalkerAppendBytes : Prop :=
  ∀ (i : Instr) (s t : State), exec i s = .next t →
    (∃ bytes, t.out = s.out ++ bytes) ∧ (i.opcode ∉ [.enc, .fls, .dec] → t.out = s.out)

/-- 20_memory R53: while TV = 1 no word but CLR's changes FREQ, NODE, ROOT or TV, and while a stream is open none
changes CODE or CV. -/
def Obligations.TreeAndCodesAreImmutableInUse : Prop :=
  ∀ (s t : State) (w : Word), s.tv = true → w ≠ clrWord → step (s.offerNext w) = .next t →
    t.freq = s.freq ∧ t.node = s.node ∧ t.root = s.root ∧ t.tv = true ∧
    (s.mode ≠ .idle → t.code = s.code ∧ t.cv = s.cv)

/-! ## Control -/

/-- 40_control R80. -/
def Obligations.NopChangesNothing : Prop :=
  encode .nop = 0x0000000000000000#64 ∧ (∀ s : State, exec .nop s = .next s) ∧ IllegalWords 0x00#8 0 false

/-- 40_control R81: CLR clears in every state, a latched error, pending bits and an open decode included, keeps
`out` and `rsp`, and changes nothing in the reset state. -/
def Obligations.ClearStartsANewRun : Prop :=
  encode .clr = 0x0100000000000000#64 ∧ IllegalWords 0x01#8 0 false ∧
  (∀ s : State, ∃ t, exec .clr s = .next t ∧ AtReset t ∧ t.dn = false ∧ t.errOut = false ∧ t.out = s.out ∧
    t.rsp = s.rsp) ∧
  exec .clr State.reset = .next State.reset

/-- 40_control R82 and 10_state R20: the STATUS word, field by field, reserved bits 0. -/
def Obligations.StatusReadReturnsEveryField : Prop :=
  encode .srd = 0x0200000000000000#64 ∧ IllegalWords 0x02#8 0 false ∧
  ∀ s : State, ∃ w : Word, exec .srd s = .next { s with rsp := s.rsp ++ [w] } ∧
    w.extractLsb' 0 4 = s.err.code ∧ w.extractLsb' 4 2 = s.mode.code ∧ w.getLsbD 6 = s.tv ∧ w.getLsbD 7 = s.cv ∧
    (w.getLsbD 8 = true ↔ s.mode = .dec ∧ s.rem = 0#40) ∧ w.extractLsb' 9 3 = s.nbits ∧
    w.extractLsb' 12 7 = s.acc ∧ w.extractLsb' 19 1 = 0#1 ∧ w.extractLsb' 20 9 = s.root ∧
    w.extractLsb' 29 3 = 0#3 ∧ w.extractLsb' 32 16 = s.einfo ∧ w.extractLsb' 48 16 = 0#16

/-- 40_control R83; outside MODE DEC it returns CUR = NULL and REM = 0, in every state that meets the register
part of 10_state R25. -/
def Obligations.DecoderReadReturnsRemAndCur : Prop :=
  encode .drd = 0x0300000000000000#64 ∧ IllegalWords 0x03#8 0 false ∧
  ∀ s : State, ∃ w : Word, exec .drd s = .next { s with rsp := s.rsp ++ [w] } ∧
    w.toNat = s.rem.toNat + 2 ^ 40 * s.cur.toNat ∧ (s.RegInv → s.mode ≠ .dec → w = 0x0001FF0000000000#64)

/-! ## Frequencies -/

/-- 41_frequency R90. -/
def Obligations.CountAddsOneOrOverflows : Prop :=
  IllegalWords 0x10#8 8 false ∧
  ∀ (sym : Sym) (s : State), (encode (.cnt sym)).toNat = 2 ^ 56 * 0x10 + sym.toNat ∧
    (s.err = .none → s.tv = true → RaisesSequence (.cnt sym) s) ∧
    (s.err = .none → s.tv = false → s.freqAt sym = 0xFFFFFFFF#32 →
      exec (.cnt sym) s = .next { s with err := .countOverflow, einfo := sym.setWidth 16 }) ∧
    (s.err = .none → s.tv = false → s.freqAt sym ≠ 0xFFFFFFFF#32 →
      ∃ freq, exec (.cnt sym) s = .next { s with freq := freq } ∧
        ∀ x, ({ s with freq := freq } : State).freqAt x = if x = sym then s.freqAt sym + 1#32 else s.freqAt x)

/-- 41_frequency R91. -/
def Obligations.FrequencyWriteStoresTheValue : Prop :=
  IllegalWords 0x11#8 40 false ∧
  ∀ (sym : Sym) (val : Freq) (s : State), (encode (.fwr sym val)).toNat = 2 ^ 56 * 0x11 + sym.toNat + 2 ^ 8 * val.toNat ∧
    (s.err = .none → s.tv = true → RaisesSequence (.fwr sym val) s) ∧
    (s.err = .none → s.tv = false → ∃ freq, exec (.fwr sym val) s = .next { s with freq := freq } ∧
      ∀ x, ({ s with freq := freq } : State).freqAt x = if x = sym then val else s.freqAt x)

/-- 41_frequency R92: always legal, the count at bits 39:8. -/
def Obligations.FrequencyReadReturnsTheCount : Prop :=
  IllegalWords 0x12#8 8 false ∧
  ∀ (sym : Sym) (s : State), (encode (.frd sym)).toNat = 2 ^ 56 * 0x12 + sym.toNat ∧
    ∃ w : Word, exec (.frd sym) s = .next { s with rsp := s.rsp ++ [w] } ∧
      w.toNat = sym.toNat + 2 ^ 8 * (s.freqAt sym).toNat

/-- 41_frequency R93: CNT of every byte of a sequence leaves the numbers of its occurrences, provided every number
fits, whatever the order; from any unfrozen table it adds them. -/
def Obligations.CountingGivesTheFrequencyFunction : Prop :=
  (∀ (bs : List Byte) (s : State), s.err = .none → s.tv = false →
    (∀ x, (s.freqAt x).toNat + bs.count x ≤ 2 ^ 32 - 1) →
    ∃ freq, execAll (cnts bs) s = .next { s with freq := freq } ∧
      ∀ x, (({ s with freq := freq } : State).freqAt x).toNat = (s.freqAt x).toNat + bs.count x) ∧
  ∀ (bs : List Byte) (s : State), AtReset s → (∀ x, bs.count x ≤ 2 ^ 32 - 1) →
    ∃ t, execAll (cnts bs) s = .next t ∧ ∀ x, (t.freqAt x).toNat = bs.count x

/-- 41_frequency R94: the table is frozen while TV = 1; CNT and FWR then raise SequenceError; a failed BLD does not
freeze it, but its error blocks them. -/
def Obligations.FrequencyTableIsFrozenWithATree : Prop :=
  (∀ (s t : State) (w : Word), s.tv = true → w ≠ clrWord → step (s.offerNext w) = .next t →
    t.tv = true ∧ ∀ x, t.freqAt x = s.freqAt x) ∧
  (∀ (s : State) (sym : Sym) (val : Freq), s.tv = true → s.err = .none →
    RaisesSequence (.cnt sym) s ∧ RaisesSequence (.fwr sym val) s) ∧
  ∀ (s : State) (sym : Sym) (val : Freq), s.tv = false → s.err = .none → (∀ x, s.freqAt x = 0#32) →
    ∃ t, exec .bld s = .next t ∧ t.tv = false ∧ t.err ≠ .none ∧ exec (.cnt sym) t = .next t ∧
      exec (.fwr sym val) t = .next t

/-! ## The heap -/

/-- 42_heap R101, R102: HINS keeps the heap property, adds exactly its operand, and writes HEAP and HSIZE only. -/
def Obligations.HeapInsertKeepsTheHeapProperty : Prop :=
  ∀ (s : State) (x : NodeIdx), s.HeapOrdered → s.hsize.toNat < 256 →
    ∃ heap, hins s x = { s with heap := heap, hsize := s.hsize + 1#9 } ∧ (hins s x).HeapOrdered ∧
      (hins s x).heapMembers.Perm (x :: s.heapMembers)

/-- 42_heap R103, R105: HEXT answers a least member, removes exactly it, keeps the heap property, and writes HEAP
and HSIZE only; on an empty heap it raises EmptyQueueError. -/
def Obligations.HeapExtractRemovesTheLeast : Prop :=
  (∀ s : State, s.HeapOrdered → s.hsize ≠ 0#9 → s.hsize.toNat ≤ 256 →
    ∃ m heap, hext s = .ok m { s with heap := heap, hsize := s.hsize - 1#9 } ∧
      State.HeapOrdered { s with heap := heap, hsize := s.hsize - 1#9 } ∧
      s.heapMembers.Perm (m :: State.heapMembers { s with heap := heap, hsize := s.hsize - 1#9 }) ∧
      ∀ x ∈ s.heapMembers, less s.node x m = false) ∧
  ∀ s : State, s.hsize = 0#9 → s.err = .none → hext s = .raised { s with err := .emptyQueue, einfo := 0#16 }

/-- 42_heap R100, R101: `less` is a strict total order by frequency, then by index; in an ordered heap slot 0 holds
the minimum. -/
def Obligations.HeapOrderIsStrictAndTotal : Prop :=
  (∀ (nodes : Table NodeEntry) (i j : NodeIdx), less nodes i j = true ↔
    (nodeAt nodes i).freq.toNat < (nodeAt nodes j).freq.toNat ∨
      ((nodeAt nodes i).freq = (nodeAt nodes j).freq ∧ i.toNat < j.toNat)) ∧
  (∀ (nodes : Table NodeEntry) (i j k : NodeIdx), less nodes i j = true → less nodes j k = true →
    less nodes i k = true) ∧
  (∀ (nodes : Table NodeEntry) (i j : NodeIdx), less nodes i j = true ∨ less nodes j i = true ↔ i ≠ j) ∧
  ∀ s : State, s.HeapOrdered → ∀ x ∈ s.heapMembers, less s.node x (slotAt s.heap 0) = false

/-- 42_heap R107: EmptyQueueError is raised by no command and no word. -/
def Obligations.EmptyQueueErrorIsNeverRaised : Prop :=
  ∀ s t : State, s.err ≠ .emptyQueue → step s = .next t → t.err ≠ .emptyQueue

/-- 42_heap R105, 10_state R24: what stale values HEAP's slots hold is never seen (so the reset value the model
gives them, log 3, is not either): two states that differ in them only do the same. -/
def Obligations.StaleHeapSlotsAreNeverSeen : Prop :=
  ∀ (i : Instr) (s : State) (heap : Table NodeIdx),
    (∀ t, exec i s = .next t → ∃ heap', exec i { s with heap := heap } = .next { t with heap := heap' }) ∧
    ∀ f, exec i s = .fault f → exec i { s with heap := heap } = .fault f

/-! ## Building a tree -/

/-- 43_tree R110, R111: BLD completes; its leaves are the symbols with a non-zero count, ascending, at indices 0 to
L − 1, with their counts; indices L to 2L − 2 are internal; nothing but NODE, HEAP, ROOT and TV has changed. -/
def Obligations.BuildNumbersTheLeavesInSymbolOrder : Prop :=
  ∀ s : State, s.Buildable → ∃ t, exec .bld s = .next t ∧
    t = { s with node := t.node, heap := t.heap, root := t.root, tv := true } ∧
    1 ≤ s.liveSyms.length ∧ s.liveSyms.length ≤ 256 ∧
    s.liveSyms.Pairwise (fun x y => x.toNat < y.toNat) ∧ (∀ x, x ∈ s.liveSyms ↔ s.freqAt x ≠ 0#32) ∧
    (∀ (k : NodeIdx) (sym : Sym), s.liveSyms[k.toNat]? = some sym →
      nodeAt t.node k = ⟨true, sym, (s.freqAt sym).setWidth 40, 511#9, 511#9⟩) ∧
    ∀ k : NodeIdx, s.liveSyms.length ≤ k.toNat → k.toNat ≤ 2 * s.liveSyms.length - 2 → (nodeAt t.node k).leaf = false

/-- 43_tree R110, R112: each internal node, in order of creation, merges the two least nodes not yet merged: the
first extracted is its left child, the second its right; so the left child's frequency is never the greater, and
when they are equal the left child has the lower index. The last one made is ROOT. -/
def Obligations.BuildMergesTheTwoLeastNodes : Prop :=
  ∀ s : State, s.Buildable → ∃ t, exec .bld s = .next t ∧ t.root.toNat = 2 * s.liveSyms.length - 2 ∧
    ∀ k : NodeIdx, s.liveSyms.length ≤ k.toNat → k.toNat ≤ 2 * s.liveSyms.length - 2 →
      MergesLeast t.node s.liveSyms.length k ∧
      (nodeAt t.node (nodeAt t.node k).left).freq.toNat ≤ (nodeAt t.node (nodeAt t.node k).right).freq.toNat ∧
      ((nodeAt t.node (nodeAt t.node k).left).freq = (nodeAt t.node (nodeAt t.node k).right).freq →
        (nodeAt t.node k).left.toNat < (nodeAt t.node k).right.toNat)

/-- 43_tree R113: what BLD leaves behind, and that it is a function of FREQ alone. -/
def Obligations.BuildLeavesAProperTreeOfFreqAlone : Prop :=
  ∀ s : State, s.Buildable → ∃ t, exec .bld s = .next t ∧
    t.root.toNat = 2 * s.liveSyms.length - 2 ∧ proper t.node t.root = true ∧
    (∀ k : NodeIdx, 2 * s.liveSyms.length - 1 ≤ k.toNat → k.toNat ≤ 510 → nodeAt t.node k = NodeEntry.empty) ∧
    (nodeAt t.node t.root).freq.toNat = (allSyms.map fun x => (s.freqAt x).toNat).sum ∧
    (∀ k : NodeIdx, k.toNat ≤ t.root.toNat → (nodeAt t.node k).leaf = false →
      (nodeAt t.node k).left.toNat < k.toNat ∧ (nodeAt t.node k).right.toNat < k.toNat) ∧
    (∃ V Y, IsTree t.node t.root V Y ∧ ∀ k : NodeIdx, k ∈ V ↔ k.toNat ≤ t.root.toNat) ∧
    ∀ s' : State, s'.Buildable → (∀ x, s'.freqAt x = s.freqAt x) →
      ∃ t', exec .bld s' = .next t' ∧ t'.root = t.root ∧ ∀ k, nodeAt t'.node k = nodeAt t.node k

/-- 43_tree R110: BLD's errors, each with no other effect. -/
def Obligations.BuildErrorsChangeNothingElse : Prop :=
  encode .bld = 0x2000000000000000#64 ∧ IllegalWords 0x20#8 0 false ∧
  ∀ s : State, s.err = .none → (s.tv = true → RaisesSequence .bld s) ∧
    (s.tv = false → (∀ x, s.freqAt x = 0#32) →
      exec .bld s = .next { s with err := .emptyInput, einfo := 0#16 })

/-- 43_tree R114: one distinct symbol gives a tree of one leaf, and its code is "0" (44_codes R132). -/
def Obligations.OneSymbolBuildsASingleLeaf : Prop :=
  ∀ (s : State) (sym : Sym), s.Buildable → s.mode = .idle → (∀ x, s.freqAt x ≠ 0#32 ↔ x = sym) →
    ∃ t, exec .bld s = .next t ∧ t.root = 0#9 ∧
      nodeAt t.node 0#9 = ⟨true, sym, (s.freqAt sym).setWidth 40, 511#9, 511#9⟩ ∧
      ∃ u, exec .gen t = .next u ∧ codeAt u.code sym = ⟨1#8, 0#255⟩ ∧ (codeAt u.code sym).bits = [false]

/-- 43_tree R123, Huffman optimality: with the codes of the built tree the total is the sum of frequency times
depth, and no prefix-free assignment over the same frequencies has a smaller total; for one symbol the total is its
frequency. -/
def Obligations.BuiltTreeIsOptimal : Prop :=
  ∀ s : State, s.Buildable → s.mode = .idle → ∃ t u, exec .bld s = .next t ∧ exec .gen t = .next u ∧
    (2 ≤ s.liveSyms.length →
      (∀ x ∈ s.liveSyms, ∃ bits, LeafAt t.node t.root bits x ∧ bits.length = (codeAt u.code x).len.toNat) ∧
      ∀ c : Sym → List Bool, (∀ x ∈ s.liveSyms, ∀ y ∈ s.liveSyms, x ≠ y → ¬ c x <+: c y) →
        totalBits s.liveSyms (fun x => (s.freqAt x).toNat) (fun x => (codeAt u.code x).len.toNat) ≤
          totalBits s.liveSyms (fun x => (s.freqAt x).toNat) (fun x => (c x).length)) ∧
    (s.liveSyms.length = 1 →
      totalBits s.liveSyms (fun x => (s.freqAt x).toNat) (fun x => (codeAt u.code x).len.toNat) =
        (s.liveSyms.map fun x => (s.freqAt x).toNat).sum)

/-! ## Importing and exporting a tree -/

/-- 43_tree R116, R117, 20_memory R41: TWN writes the four structure fields and leaves freq, TWF writes freq and
leaves the other four, any field value is stored as given, and every other entry reads as before. -/
def Obligations.NodeWritesStoreTheirFields : Prop :=
  IllegalWords 0x21#8 36 true ∧ IllegalWords 0x22#8 49 true ∧
  ∀ (idx : NodeIdx) (leaf : Bool) (sym : Sym) (left right : NodeIdx) (freq : NodeFreq) (s : State),
    (encode (.twn idx leaf sym left right)).toNat = 2 ^ 56 * 0x21 + idx.toNat + 2 ^ 9 * leaf.toNat +
      2 ^ 10 * sym.toNat + 2 ^ 18 * left.toNat + 2 ^ 27 * right.toNat ∧
    (encode (.twf idx freq)).toNat = 2 ^ 56 * 0x22 + idx.toNat + 2 ^ 9 * freq.toNat ∧
    (idx ≠ 511#9 → s.err = .none →
      (s.tv = true → RaisesSequence (.twn idx leaf sym left right) s ∧ RaisesSequence (.twf idx freq) s) ∧
      (s.tv = false →
        (∃ node, exec (.twn idx leaf sym left right) s = .next { s with node := node } ∧
          ∀ i, nodeAt node i = if i = idx then ⟨leaf, sym, (nodeAt s.node idx).freq, left, right⟩ else nodeAt s.node i) ∧
        ∃ node, exec (.twf idx freq) s = .next { s with node := node } ∧
          ∀ i, nodeAt node i = if i = idx then
            ⟨(nodeAt s.node idx).leaf, (nodeAt s.node idx).sym, freq, (nodeAt s.node idx).left,
              (nodeAt s.node idx).right⟩ else nodeAt s.node i))

/-- 43_tree R119: TCM adopts a proper tree and refuses any other, NODE untouched. -/
def Obligations.TreeCommitAdoptsExactlyProperTrees : Prop :=
  IllegalWords 0x23#8 9 true ∧
  ∀ (idx : NodeIdx) (s : State), (encode (.tcm idx)).toNat = 2 ^ 56 * 0x23 + idx.toNat ∧
    (idx ≠ 511#9 → s.err = .none → s.tv = true → RaisesSequence (.tcm idx) s) ∧
    (idx ≠ 511#9 → s.err = .none → s.tv = false → proper s.node idx = true →
      exec (.tcm idx) s = .next { s with root := idx, tv := true }) ∧
    (idx ≠ 511#9 → s.err = .none → s.tv = false → proper s.node idx = false →
      exec (.tcm idx) s = .next { s with err := .headerFormat, einfo := idx.setWidth 16 })

/-- 43_tree R118: Proper holds exactly of finite binary trees with no index twice and no symbol on two leaves; such
a tree has at most 256 leaves, 511 nodes and depth 255; an EMPTY entry is none. -/
def Obligations.ProperMeansADistinctlyLabelledTree : Prop :=
  (∀ (nodes : Table NodeEntry) (r : NodeIdx), proper nodes r = true ↔
    ∃ V Y, IsTree nodes r V Y ∧ V.Nodup ∧ Y.Nodup) ∧
  (∀ (nodes : Table NodeEntry) (r : NodeIdx) (V : List NodeIdx) (Y : List Sym), IsTree nodes r V Y →
    V.Nodup → Y.Nodup → Y.length ≤ 256 ∧ V.length = 2 * Y.length - 1 ∧
      ∀ bits x, follow nodes r bits = some x → x ∈ V ∧ bits.length ≤ Y.length - 1) ∧
  ∀ (nodes : Table NodeEntry) (r : NodeIdx), nodeAt nodes r = NodeEntry.empty → proper nodes r = false

/-- 43_tree R120, R121: always legal, the node's fields at their bits. -/
def Obligations.NodeReadsReturnTheirFields : Prop :=
  IllegalWords 0x24#8 9 true ∧ IllegalWords 0x25#8 9 true ∧
  ∀ (idx : NodeIdx) (s : State), (encode (.trn idx)).toNat = 2 ^ 56 * 0x24 + idx.toNat ∧
    (encode (.trf idx)).toNat = 2 ^ 56 * 0x25 + idx.toNat ∧
    (idx ≠ 511#9 → (∃ w : Word, exec (.trn idx) s = .next { s with rsp := s.rsp ++ [w] } ∧
      w.toNat = idx.toNat + 2 ^ 9 * (nodeAt s.node idx).leaf.toNat + 2 ^ 10 * (nodeAt s.node idx).sym.toNat +
        2 ^ 18 * (nodeAt s.node idx).left.toNat + 2 ^ 27 * (nodeAt s.node idx).right.toNat) ∧
    ∃ w : Word, exec (.trf idx) s = .next { s with rsp := s.rsp ++ [w] } ∧
      w.toNat = idx.toNat + 2 ^ 9 * (nodeAt s.node idx).freq.toNat)

/-- 30_encoding R64, 48_host_protocol R164: the response of FRD, TRN and TRF, with its opcode byte changed, is the
command that stores the same value back. -/
def Obligations.ResponsesReplayAsWrites : Prop :=
  ∀ (s : State) (sym : Sym) (idx : NodeIdx), idx ≠ 511#9 →
    (∃ w, exec (.frd sym) s = .next { s with rsp := s.rsp ++ [w] } ∧ w.toNat / 2 ^ 56 = 0 ∧
      decode (replayAs .fwr w) = .ok (.fwr sym (s.freqAt sym))) ∧
    (∃ w, exec (.trn idx) s = .next { s with rsp := s.rsp ++ [w] } ∧ w.toNat / 2 ^ 56 = 0 ∧
      decode (replayAs .twn w) = .ok (.twn idx (nodeAt s.node idx).leaf (nodeAt s.node idx).sym
        (nodeAt s.node idx).left (nodeAt s.node idx).right)) ∧
    ∃ w, exec (.trf idx) s = .next { s with rsp := s.rsp ++ [w] } ∧ w.toNat / 2 ^ 56 = 0 ∧
      decode (replayAs .twf w) = .ok (.twf idx (nodeAt s.node idx).freq)

/-- 48_host_protocol R164, 43_tree R122, 44_codes R131: a tree imported under any renumbering of its nodes and in
any order is accepted and gets the same codes. -/
def Obligations.ImportedTreeGetsTheSameCodes : Prop :=
  ∀ (s s₀ : State) (V V' : List NodeIdx) (Y : List Sym) (f : NodeIdx → NodeIdx),
    IsTree s.node s.root V Y → V.Nodup → Y.Nodup → V'.Perm V → AtReset s₀ →
    (∀ i ∈ V, f i ≠ 511#9) → (∀ i ∈ V, ∀ j ∈ V, f i = f j → i = j) → f 511#9 = 511#9 →
    ∃ t u, execAll ((V'.map fun i => .twn (f i) (nodeAt s.node i).leaf (nodeAt s.node i).sym
        (f (nodeAt s.node i).left) (f (nodeAt s.node i).right)) ++ [.tcm (f s.root)]) s₀ = .next t ∧
      t.tv = true ∧ t.root = f s.root ∧ t.err = .none ∧ exec .gen t = .next u ∧ IsCodeTable s.node s.root u.code

/-! ## Codes -/

/-- 44_codes R130 to R132: GEN completes and leaves `CODE = Codes(ROOT)`, "0" for a single leaf; a second GEN
changes nothing. -/
def Obligations.GenerateFillsTheTreesCodes : Prop :=
  encode .gen = 0x3000000000000000#64 ∧ IllegalWords 0x30#8 0 false ∧
  (∀ s : State, s.err = .none → (s.tv = false ∨ s.mode ≠ .idle) → RaisesSequence .gen s) ∧
  ∀ s : State, s.err = .none → s.tv = true → s.mode = .idle → proper s.node s.root = true →
    ∃ code, exec .gen s = .next { s with code := code, cv := true } ∧ IsCodeTable s.node s.root code ∧
      ((nodeAt s.node s.root).leaf = true → codeAt code (nodeAt s.node s.root).sym = ⟨1#8, 0#255⟩) ∧
      exec .gen { s with code := code, cv := true } = .next { s with code := code, cv := true }

/-- 44_codes R134: with codes valid, exactly the symbols on leaves have a code, of 1 to 255 bits, and of at most
L − 1 bits where the tree has L ≥ 2 leaves. -/
def Obligations.CodesHaveOneToTwoHundredFiftyFiveBits : Prop :=
  ∀ (s : State) (V : List NodeIdx) (Y : List Sym), proper s.node s.root = true → IsTree s.node s.root V Y →
    IsCodeTable s.node s.root s.code → ∀ sym,
      (sym ∈ Y ↔ (codeAt s.code sym).len ≠ 0#8) ∧
      (sym ∈ Y → 1 ≤ (codeAt s.code sym).len.toNat ∧ (codeAt s.code sym).len.toNat ≤ 255 ∧
        (2 ≤ Y.length → (codeAt s.code sym).len.toNat ≤ Y.length - 1) ∧
        (codeAt s.code sym).val.toNat < 2 ^ (codeAt s.code sym).len.toNat)

/-- 44_codes R137: no code is a prefix of another symbol's. -/
def Obligations.CodesArePrefixFree : Prop :=
  ∀ s : State, proper s.node s.root = true → IsCodeTable s.node s.root s.code → ∀ x y : Sym, x ≠ y →
    (codeAt s.code x).len ≠ 0#8 → (codeAt s.code y).len ≠ 0#8 → ¬ (codeAt s.code x).bits <+: (codeAt s.code y).bits

/-- 44_codes R135, R136, 20_memory R49: always legal; the length at bits 15:8; chunk k of the value, least
significant first, and the four chunks together are the whole value. -/
def Obligations.CodeReadsReturnLengthAndChunks : Prop :=
  IllegalWords 0x31#8 8 false ∧ IllegalWords 0x32#8 10 false ∧
  ∀ (sym : Sym) (s : State), (encode (.crl sym)).toNat = 2 ^ 56 * 0x31 + sym.toNat ∧
    (∀ k : BitVec 2, (encode (.crw sym k)).toNat = 2 ^ 56 * 0x32 + sym.toNat + 2 ^ 8 * k.toNat) ∧
    (∃ w : Word, exec (.crl sym) s = .next { s with rsp := s.rsp ++ [w] } ∧
      w.toNat = sym.toNat + 2 ^ 8 * (codeAt s.code sym).len.toNat) ∧
    (∀ k : BitVec 2, ∃ w : Word, exec (.crw sym k) s = .next { s with rsp := s.rsp ++ [w] } ∧
      w.toNat = (codeAt s.code sym).val.toNat / 2 ^ (64 * k.toNat) % 2 ^ 64) ∧
    ∃ w0 w1 w2 w3 : Word,
      execAll [.crw sym 0#2, .crw sym 1#2, .crw sym 2#2, .crw sym 3#2] s =
        .next { s with rsp := s.rsp ++ [w0, w1, w2, w3] } ∧ w3.getLsbD 63 = false ∧
      (codeAt s.code sym).val.toNat = w0.toNat + 2 ^ 64 * w1.toNat + 2 ^ 128 * w2.toNat + 2 ^ 192 * w3.toNat

/-! ## Encoding -/

/-- 45_encode R141, R143: the code's bits, first bit first, follow the pending ones; every 8 leave as one byte, the
most significant bit first. -/
def Obligations.EncodeAppendsTheCodesBits : Prop :=
  IllegalWords 0x40#8 8 false ∧
  ∀ (sym : Sym) (s : State), (encode (.enc sym)).toNat = 2 ^ 56 * 0x40 + sym.toNat ∧
    (s.err = .none → (s.cv = false ∨ s.mode = .dec) → RaisesSequence (.enc sym) s) ∧
    (s.err = .none → s.cv = true → s.mode ≠ .dec → (codeAt s.code sym).len = 0#8 →
      exec (.enc sym) s = .next { s with err := .unknownSymbol, einfo := sym.setWidth 16 }) ∧
    (s.err = .none → s.cv = true → s.mode ≠ .dec → (codeAt s.code sym).len ≠ 0#8 →
      s.acc.toNat < 2 ^ s.nbits.toNat →
      ∃ t bytes, exec (.enc sym) s = .next t ∧
        t = { s with mode := .enc, acc := t.acc, nbits := t.nbits, out := s.out ++ bytes } ∧
        s.pending ++ (codeAt s.code sym).bits = bytes.flatMap byteBits ++ t.pending ∧
        bytes.length = (s.nbits.toNat + (codeAt s.code sym).len.toNat) / 8 ∧
        t.nbits.toNat = (s.nbits.toNat + (codeAt s.code sym).len.toNat) % 8 ∧
        t.acc.toNat < 2 ^ t.nbits.toNat)

/-- 45_encode R142: one padded byte if bits are pending, none otherwise. -/
def Obligations.FlushPadsTheLastByte : Prop :=
  encode .fls = 0x4100000000000000#64 ∧ IllegalWords 0x41#8 0 false ∧
  ∀ s : State, s.err = .none →
    ((s.cv = false ∨ s.mode = .dec) → RaisesSequence .fls s) ∧
    (s.cv = true → s.mode ≠ .dec → s.nbits = 0#3 → exec .fls s = .next { s with mode := .idle }) ∧
    (s.cv = true → s.mode ≠ .dec → s.nbits ≠ 0#3 →
      ∃ byte, exec .fls s = .next { s with mode := .idle, acc := 0#7, nbits := 0#3, out := s.out ++ [byte] } ∧
        byteBits byte = s.pending ++ List.replicate (8 - s.nbits.toNat) false)

/-- 20_memory R48, 45_encode R144: what a stream emits: the codes' bits in order, zero-padded to whole bytes; before
the FLS, floor(T / 8) bytes and T mod 8 pending bits; and T is the sum of occurrences times code lengths. -/
def Obligations.StreamEmitsThePaddedPayload : Prop :=
  ∀ (s : State) (ds : List Sym), s.err = .none → s.cv = true → s.mode = .idle → s.nbits = 0#3 → s.acc = 0#7 →
    (∀ d ∈ ds, (codeAt s.code d).len ≠ 0#8) →
    ∃ t₁ t₂ first payload bitLength, execAll (encs ds) s = .next t₁ ∧ exec .fls t₁ = .next t₂ ∧
      bitLength = (ds.map fun d => (codeAt s.code d).len.toNat).sum ∧
      bitLength = totalBits allSyms (fun x => ds.count x) (fun x => (codeAt s.code x).len.toNat) ∧
      t₁.out = s.out ++ first ∧ first.length = bitLength / 8 ∧ t₁.nbits.toNat = bitLength % 8 ∧
      t₂ = { s with out := s.out ++ payload } ∧ payload.length = (bitLength + 7) / 8 ∧
      payload.flatMap byteBits = (ds.flatMap fun d => (codeAt s.code d).bits) ++
        List.replicate (8 * payload.length - bitLength) false

/-! ## Decoding -/

/-- 46_decode R150. -/
def Obligations.OpenDecodeStartsAtTheRoot : Prop :=
  IllegalWords 0x50#8 40 false ∧
  ∀ (count : Count) (s : State), (encode (.dln count)).toNat = 2 ^ 56 * 0x50 + count.toNat ∧
    (s.err = .none → (s.tv = false ∨ s.mode ≠ .idle) → RaisesSequence (.dln count) s) ∧
    (s.err = .none → s.tv = true → s.mode = .idle →
      exec (.dln count) s = .next { s with cur := s.root, rem := count, mode := .dec } ∧
      (State.dn { s with cur := s.root, rem := count, mode := .dec } = true ↔ count = 0#40))

/-- 46_decode R151, R152 for a tree whose root is internal, and R156: DEC never raises, walks bit 7 first, emits a
symbol at each leaf, and stops after the byte or when the count is reached, whichever comes first; with the count
reached already it does nothing; on a single leaf it also has an outcome. -/
def Obligations.DecodeWalksTheTree : Prop :=
  ∀ (s : State) (byte : Byte), s.Inv → s.err = .none → s.mode = .dec →
    (∃ t, exec (.dec byte) s = .next t) ∧
    (s.rem = 0#40 → exec (.dec byte) s = .next s) ∧
    ((nodeAt s.node s.root).leaf = false →
      ∃ n syms cur, n ≤ 8 ∧
        exec (.dec byte) s =
          .next { s with cur := cur, rem := s.rem - BitVec.ofNat 40 syms.length, out := s.out ++ syms } ∧
        Walk s.node s.root s.cur ((byteBits byte).take n) syms cur ∧ syms.length ≤ s.rem.toNat ∧
        (n = 8 ∨ syms.length = s.rem.toNat) ∧
        ∀ m < n, ∀ syms' cur', Walk s.node s.root s.cur ((byteBits byte).take m) syms' cur' →
          syms'.length < s.rem.toNat)

/-- 46_decode R152, the single-leaf tree: each 0 bit emits the symbol until the count is reached; a 1 bit met before
that raises CorruptStreamError with ROOT, the symbols already emitted staying (60_exceptions R186). -/
def Obligations.DecodeOfASingleLeafTree : Prop :=
  IllegalWords 0x51#8 8 false ∧
  ∀ (s : State) (byte : Byte), (encode (.dec byte)).toNat = 2 ^ 56 * 0x51 + byte.toNat ∧
    (s.err = .none → (s.mode ≠ .dec → RaisesSequence (.dec byte) s) ∧
    ∀ zeros, s.mode = .dec → s.root ≠ 511#9 → (nodeAt s.node s.root).leaf = true →
      zeros = ((byteBits byte).takeWhile fun b => !b).length →
      ((zeros = 8 ∨ s.rem.toNat ≤ zeros) → exec (.dec byte) s = .next { s with
        rem := s.rem - BitVec.ofNat 40 (min zeros s.rem.toNat)
        out := s.out ++ List.replicate (min zeros s.rem.toNat) (nodeAt s.node s.root).sym }) ∧
      (zeros < 8 → zeros < s.rem.toNat → exec (.dec byte) s = .next { s with
        rem := s.rem - BitVec.ofNat 40 zeros
        out := s.out ++ List.replicate zeros (nodeAt s.node s.root).sym
        err := .corruptStream
        einfo := s.root.setWidth 16 }))

/-- 46_decode R152: a missing child raises CorruptStreamError with the node the walk stands on, and nothing else
changes. The branch is one "that cannot be taken" in a run; the statement is about states no run reaches. -/
def Obligations.MissingChildRaisesCorruptStream : Prop :=
  ∀ (s : State) (byte : Byte), s.err = .none → s.mode = .dec → s.rem ≠ 0#40 → s.root ≠ 511#9 → s.cur ≠ 511#9 →
    (nodeAt s.node s.root).leaf = false →
    (if byte.getLsbD 7 then (nodeAt s.node s.cur).right else (nodeAt s.node s.cur).left) = 511#9 →
    exec (.dec byte) s = .next { s with err := .corruptStream, einfo := s.cur.setWidth 16 }

/-- 46_decode R153. -/
def Obligations.EndDecodeChecksTheCount : Prop :=
  encode .dnd = 0x5200000000000000#64 ∧ IllegalWords 0x52#8 0 false ∧
  ∀ s : State, s.err = .none → (s.mode ≠ .dec → RaisesSequence .dnd s) ∧
    (s.mode = .dec → s.rem ≠ 0#40 →
      exec .dnd s = .next { s with err := .corruptStream, einfo := 0x8000#16 }) ∧
    (s.mode = .dec → s.rem = 0#40 → exec .dnd s = .next { s with cur := 511#9, mode := .idle }) ∧
    (s.RegInv → s.mode = .dec → s.rem = 0#40 → s.cur = s.root)

/-! ## The whole machine -/

/-- 46_decode R154 (a), R155, for any tree in the block, built or imported: the payload of a stream, decoded with a
count not above the true one, gives the first symbols of the input, exactly as many as the count, and no error. -/
def Obligations.PayloadDecodesToItsInput : Prop :=
  ∀ (s : State) (ds : List Sym) (n : Count), s.Inv → s.err = .none → s.cv = true → s.mode = .idle →
    (∀ d ∈ ds, (codeAt s.code d).len ≠ 0#8) → n.toNat ≤ ds.length →
    ∃ payload, execAll (encs ds ++ [.fls]) s = .next { s with out := s.out ++ payload } ∧
      execAll (decompressCmds n payload) { s with out := s.out ++ payload } =
        .next { s with out := s.out ++ payload ++ ds.take n.toNat }

/-- 46_decode R155, the source's round trip: COMPRESS from the reset state, then DECOMPRESS with the true count,
gives the input back, also after the tree is exported and imported into the cleared block. -/
def Obligations.CompressThenDecompressIsTheIdentity : Prop :=
  ∀ b : List Byte, b ≠ [] → (∀ x, b.count x ≤ 2 ^ 32 - 1) → b.length < 2 ^ 40 →
    ∃ s₁ t u, execAll (compressCmds b) State.reset = .next s₁ ∧
      execAll (decompressCmds (BitVec.ofNat 40 b.length) s₁.out) s₁ = .next t ∧
      t.out = s₁.out ++ b ∧ t.err = .none ∧ t.mode = .idle ∧
      execAll ([.clr] ++ importCmds s₁.node ((List.range (s₁.root.toNat + 1)).map (BitVec.ofNat 9)) ++
        [.tcm s₁.root] ++ decompressCmds (BitVec.ofNat 40 b.length) s₁.out) s₁ = .next u ∧
      u.out = s₁.out ++ b ∧ u.err = .none ∧ u.mode = .idle

/-- 10_state R25: the invariant holds in the reset state. -/
def Obligations.ResetStateSatisfiesTheInvariant : Prop :=
  State.reset.Inv ∧ State.reset.RegInv

/-- 10_state R25, with 30_encoding R68 "Execute is total": from every state that meets the invariant a step
completes, whatever the host does next, and the invariant holds again. -/
def Obligations.EveryStepCompletesAndKeepsTheInvariant : Prop :=
  ∀ s : State, s.Inv → ∃ t, step s = .next t ∧ t.Inv

/-- 10_state R25, the part that speaks of registers alone, kept by every step on its own. -/
def Obligations.RegisterInvariantIsKept : Prop :=
  ∀ s t : State, s.RegInv → step s = .next t → t.RegInv

/-- The model's own form of the four tables (log 10): strictly rising indices in range, no entry equal to the reset
entry. Every step keeps it, so equal memories are equal data. -/
def Obligations.CanonicalTablesAreKept : Prop :=
  State.reset.memoryWf = true ∧ ∀ s t : State, s.memoryWf = true → step s = .next t → t.memoryWf = true
end

