-- ==== Sys2Proof/Laws/Decode.lean ====
section
/-! SUPPORT. The opcode map read both ways, and the two halves of an encoded word. -/

namespace Sys2Proof

/-- The opcode map has no two rows with one number (30_encoding R63). -/
@[simp] theorem Opcode.ofCode_code (op : Opcode) : Opcode.ofCode op.code = some op := by
  cases op <;> decide

theorem Opcode.code_of_ofCode {c : BitVec 8} {op : Opcode} (h : Opcode.ofCode c = some op) : op.code = c := by
  have := List.find?_some h
  simpa using this

theorem Opcode.ofCode_eq_some {c : BitVec 8} {op : Opcode} : Opcode.ofCode c = some op ↔ c = op.code :=
  ⟨fun h => (Opcode.code_of_ofCode h).symm, fun h => h ▸ Opcode.ofCode_code op⟩

theorem getLsbD_word (c : BitVec 8) (o : BitVec 56) (i : Nat) :
    (show Word from c ++ o).getLsbD i = if i < 56 then o.getLsbD i else c.getLsbD (i - 56) :=
  BitVec.getLsbD_append

theorem opcodeByte_append (c : BitVec 8) (o : BitVec 56) : opcodeByte (c ++ o) = c := by
  ext i hi
  rw [opcodeByte, BitVec.getElem_extractLsb', getLsbD_word, if_neg (by omega), Nat.add_sub_cancel_left,
    BitVec.getLsbD_eq_getElem hi]

theorem operandField_append (c : BitVec 8) (o : BitVec 56) : operandField (c ++ o) = o := by
  ext i hi
  rw [operandField, BitVec.getElem_extractLsb', getLsbD_word, Nat.zero_add, if_pos hi, BitVec.getLsbD_eq_getElem hi]

/-- A word is its opcode byte above its operand field (30_encoding R60). -/
theorem opcodeByte_append_operandField (w : Word) : opcodeByte w ++ operandField w = w := by
  apply BitVec.eq_of_getLsbD_eq
  intro i hi
  rw [getLsbD_word, opcodeByte, operandField, BitVec.getLsbD_extractLsb', BitVec.getLsbD_extractLsb']
  split
  · simp [*]
  · rw [show 56 + (i - 56) = i by omega, decide_eq_true (by omega : i - 56 < 8), Bool.true_and]

@[simp] theorem opcodeByte_encode (i : Instr) : opcodeByte (encode i) = i.opcode.code := opcodeByte_append _ _

@[simp] theorem operandField_encode (i : Instr) : operandField (encode i) = i.operands := operandField_append _ _

/-- All that `decode` can answer with an instruction (30_encoding R67). -/
theorem decode_eq_ok {w : Word} {i : Instr} (h : decode w = .ok i) :
    ∃ op, Opcode.ofCode (opcodeByte w) = some op ∧ operandField w >>> op.format.usedBits = 0#56 ∧
      ¬ (op.format.hasIdx = true ∧ w.extractLsb' 0 9 = Config.null) ∧ i = fieldsOf op w := by
  unfold decode at h
  split at h
  · cases h
  · rename_i op hop
    split at h
    · cases h
    · rename_i hz
      split at h
      · cases h
      · rename_i hx
        refine ⟨op, hop, by simpa using hz, by simpa using hx, ?_⟩
        cases h; rfl

/-- The opcode of the decoded instruction is the word's (30_encoding R60). -/
theorem decode_opcode {w : Word} {i : Instr} (h : decode w = .ok i) : Opcode.ofCode (opcodeByte w) = some i.opcode := by
  obtain ⟨op, hop, -, -, rfl⟩ := decode_eq_ok h
  rw [hop]; cases op <;> rfl

end Sys2Proof
end

