-- ==== Sys2Proof/Laws/Table.lean ====
section
/-! SUPPORT. The laws of table memories: a read sees the latest write, other entries stay, every write keeps the
canonical form, and tables in canonical form with equal entries are equal. -/

namespace Sys2Proof

variable {α : Type}

@[simp] theorem Table.get_nil (d : α) (i : Nat) : Table.get d [] i = d := rfl

theorem Table.get_insert (d : α) (t : Table α) (i j : Nat) (v : α) :
    Table.get d (Table.insert t i v) j = if j = i then v else Table.get d t j := by
  induction t with
  | nil => rfl
  | cons e t ih =>
    obtain ⟨k, u⟩ := e
    simp only [Table.insert]
    split
    · rfl
    · split
      · subst k; simp only [Table.get]; split <;> rfl
      · simp only [Table.get, ih]
        split
        · subst j; rw [if_neg (by omega)]
        · rfl

theorem Table.get_erase (d : α) (t : Table α) (i j : Nat) :
    Table.get d (Table.erase t i) j = if j = i then d else Table.get d t j := by
  induction t with
  | nil => simp [Table.erase]
  | cons e t ih =>
    obtain ⟨k, u⟩ := e
    have ih' : Table.get d (List.filter (fun e => e.1 != i) t) j = if j = i then d else Table.get d t j := ih
    by_cases hk : k = i
    · subst hk
      rw [Table.erase, List.filter_cons_of_neg (by simp), ih', Table.get]
      split <;> rfl
    · rw [Table.erase, List.filter_cons_of_pos (by simp [hk]), Table.get, Table.get, ih']
      split
      · subst j; rw [if_neg hk]
      · rfl

/-- A read after a write: the value written there, the entry from before everywhere else. -/
@[simp] theorem Table.get_set [DecidableEq α] (d : α) (t : Table α) (i j : Nat) (v : α) :
    Table.get d (Table.set d t i v) j = if j = i then v else Table.get d t j := by
  unfold Table.set
  split
  · subst v; exact Table.get_erase d t i j
  · exact Table.get_insert d t i j v

theorem Table.risingFrom_mono {lo lo' : Nat} {t : Table α} (h : lo' ≤ lo) (hr : Table.risingFrom lo t = true) :
    Table.risingFrom lo' t = true := by
  cases t with
  | nil => rfl
  | cons e t =>
    simp only [Table.risingFrom, Bool.and_eq_true, decide_eq_true_eq] at hr ⊢
    exact ⟨by omega, hr.2⟩

theorem Table.risingFrom_insert {lo i : Nat} {t : Table α} (v : α) (hi : lo ≤ i)
    (hr : Table.risingFrom lo t = true) : Table.risingFrom lo (Table.insert t i v) = true := by
  induction t generalizing lo with
  | nil => simp [Table.insert, Table.risingFrom, hi]
  | cons e t ih =>
    obtain ⟨k, u⟩ := e
    simp only [Table.risingFrom, Bool.and_eq_true, decide_eq_true_eq] at hr
    simp only [Table.insert]
    split
    · simp only [Table.risingFrom, Bool.and_eq_true, decide_eq_true_eq]
      exact ⟨hi, by omega, hr.2⟩
    · split
      · subst k; simp only [Table.risingFrom, Bool.and_eq_true, decide_eq_true_eq]; exact hr
      · simp only [Table.risingFrom, Bool.and_eq_true, decide_eq_true_eq]
        exact ⟨hr.1, ih (by omega) hr.2⟩

theorem Table.risingFrom_filter {lo : Nat} {t : Table α} (p : Nat × α → Bool)
    (hr : Table.risingFrom lo t = true) : Table.risingFrom lo (t.filter p) = true := by
  induction t generalizing lo with
  | nil => rfl
  | cons e t ih =>
    obtain ⟨k, u⟩ := e
    simp only [Table.risingFrom, Bool.and_eq_true, decide_eq_true_eq] at hr
    cases hp : p (k, u) with
    | true =>
      rw [List.filter_cons_of_pos hp]
      simp only [Table.risingFrom, Bool.and_eq_true, decide_eq_true_eq]
      exact ⟨hr.1, ih hr.2⟩
    | false =>
      rw [List.filter_cons_of_neg (by simp [hp])]
      exact Table.risingFrom_mono (by omega) (ih hr.2)

theorem Table.mem_insert {t : Table α} {i : Nat} {v : α} {e : Nat × α} (h : e ∈ Table.insert t i v) :
    e = (i, v) ∨ e ∈ t := by
  induction t with
  | nil => simpa [Table.insert] using h
  | cons f t ih =>
    obtain ⟨k, u⟩ := f
    simp only [Table.insert] at h
    split at h
    · simpa using h
    · split at h
      · rcases List.mem_cons.1 h with h | h
        · exact .inl h
        · exact .inr (List.mem_cons_of_mem _ h)
      · rcases List.mem_cons.1 h with h | h
        · exact .inr (h ▸ List.mem_cons_self)
        · exact (ih h).imp id (List.mem_cons_of_mem _)

@[simp] theorem Table.wf_nil [DecidableEq α] (d : α) (n : Nat) : Table.wf d n [] = true := rfl

/-- Every write within range keeps the canonical form. -/
theorem Table.wf_set [DecidableEq α] {d : α} {n i : Nat} {t : Table α} (v : α) (hi : i < n) (h : Table.wf d n t = true) :
    Table.wf d n (Table.set d t i v) = true := by
  simp only [Table.wf, Bool.and_eq_true, List.all_eq_true, decide_eq_true_eq] at h ⊢
  unfold Table.set
  split
  · exact ⟨Table.risingFrom_filter _ h.1, fun e he => h.2 e (List.mem_filter.1 he).1⟩
  · refine ⟨Table.risingFrom_insert v (Nat.zero_le i) h.1, fun e he => ?_⟩
    rcases Table.mem_insert he with rfl | he
    · exact ⟨hi, by assumption⟩
    · exact h.2 e he

theorem Table.get_below {d : α} {lo i : Nat} {t : Table α} (hr : Table.risingFrom lo t = true) (hi : i < lo) :
    Table.get d t i = d := by
  induction t generalizing lo with
  | nil => rfl
  | cons e t ih =>
    obtain ⟨k, u⟩ := e
    simp only [Table.risingFrom, Bool.and_eq_true, decide_eq_true_eq] at hr
    rw [Table.get, if_neg (by omega)]
    exact ih hr.2 (by omega)

theorem Table.ext_of_rising {d : α} {lo : Nat} {t u : Table α} (ht : Table.risingFrom lo t = true)
    (hu : Table.risingFrom lo u = true) (htd : ∀ e ∈ t, e.2 ≠ d) (hud : ∀ e ∈ u, e.2 ≠ d)
    (h : ∀ i, Table.get d t i = Table.get d u i) : t = u := by
  induction t generalizing lo u with
  | nil =>
    cases u with
    | nil => rfl
    | cons e u =>
      have := h e.1
      simp only [Table.get, if_true] at this
      exact absurd this.symm (hud e List.mem_cons_self)
  | cons e t ih =>
    obtain ⟨k, a⟩ := e
    simp only [Table.risingFrom, Bool.and_eq_true, decide_eq_true_eq] at ht
    have hka : a ≠ d := htd (k, a) List.mem_cons_self
    have hk := h k
    rw [Table.get, if_pos rfl] at hk
    cases u with
    | nil => exact absurd hk hka
    | cons f u =>
      obtain ⟨m, b⟩ := f
      simp only [Table.risingFrom, Bool.and_eq_true, decide_eq_true_eq] at hu
      have hmb : b ≠ d := hud (m, b) List.mem_cons_self
      have hm := h m
      rw [Table.get.eq_2 d m m b u, if_pos rfl] at hm
      have hkm : k = m := by
        rcases Nat.lt_trichotomy k m with hlt | heq | hgt
        · rw [Table.get, if_neg (by omega), Table.get_below hu.2 (by omega)] at hk
          exact absurd hk hka
        · exact heq
        · rw [Table.get, if_neg (by omega), Table.get_below ht.2 (by omega)] at hm
          exact absurd hm.symm hmb
      subst hkm
      rw [Table.get, if_pos rfl] at hk
      subst hk
      congr 1
      refine ih ht.2 hu.2 (fun e he => htd e (List.mem_cons_of_mem _ he))
        (fun e he => hud e (List.mem_cons_of_mem _ he)) fun i => ?_
      by_cases hi : i = k
      · subst hi; rw [Table.get_below ht.2 (by omega), Table.get_below hu.2 (by omega)]
      · simpa [Table.get, hi] using h i

/-- Tables in canonical form that read alike everywhere are the same data. -/
theorem Table.ext_of_wf [DecidableEq α] {d : α} {n : Nat} {t u : Table α} (ht : Table.wf d n t = true) (hu : Table.wf d n u = true)
    (h : ∀ i, Table.get d t i = Table.get d u i) : t = u := by
  simp only [Table.wf, Bool.and_eq_true, List.all_eq_true, decide_eq_true_eq] at ht hu
  exact Table.ext_of_rising ht.1 hu.1 (fun e he => (ht.2 e he).2) (fun e he => (hu.2 e he).2) h

end Sys2Proof
end

