-- ==== Sys2Proof/Laws/State.lean ====
section
/-! SUPPORT. One lemma per field per update of the state, true by definition, so that no later proof unfolds a
record update; and `raise`, whose fields depend on ERR. -/

namespace Sys2Proof.Machine

section setFreq

variable (s : State) (sym : Sym) (v : Freq)

@[simp] theorem State.setFreq_freq : (s.setFreq sym v).freq = Table.set 0#32 s.freq sym.toNat v := rfl
@[simp] theorem State.setFreq_node : (s.setFreq sym v).node = s.node := rfl
@[simp] theorem State.setFreq_code : (s.setFreq sym v).code = s.code := rfl
@[simp] theorem State.setFreq_heap : (s.setFreq sym v).heap = s.heap := rfl
@[simp] theorem State.setFreq_hsize : (s.setFreq sym v).hsize = s.hsize := rfl
@[simp] theorem State.setFreq_root : (s.setFreq sym v).root = s.root := rfl
@[simp] theorem State.setFreq_tv : (s.setFreq sym v).tv = s.tv := rfl
@[simp] theorem State.setFreq_cv : (s.setFreq sym v).cv = s.cv := rfl
@[simp] theorem State.setFreq_mode : (s.setFreq sym v).mode = s.mode := rfl
@[simp] theorem State.setFreq_acc : (s.setFreq sym v).acc = s.acc := rfl
@[simp] theorem State.setFreq_nbits : (s.setFreq sym v).nbits = s.nbits := rfl
@[simp] theorem State.setFreq_cur : (s.setFreq sym v).cur = s.cur := rfl
@[simp] theorem State.setFreq_rem : (s.setFreq sym v).rem = s.rem := rfl
@[simp] theorem State.setFreq_err : (s.setFreq sym v).err = s.err := rfl
@[simp] theorem State.setFreq_einfo : (s.setFreq sym v).einfo = s.einfo := rfl
@[simp] theorem State.setFreq_out : (s.setFreq sym v).out = s.out := rfl
@[simp] theorem State.setFreq_rsp : (s.setFreq sym v).rsp = s.rsp := rfl
@[simp] theorem State.setFreq_inputs : (s.setFreq sym v).inputs = s.inputs := rfl

end setFreq

section setNode

variable (s : State) (i : NodeIdx) (e : NodeEntry)

@[simp] theorem State.setNode_freq : (s.setNode i e).freq = s.freq := rfl
@[simp] theorem State.setNode_node : (s.setNode i e).node = setNodeAt s.node i e := rfl
@[simp] theorem State.setNode_code : (s.setNode i e).code = s.code := rfl
@[simp] theorem State.setNode_heap : (s.setNode i e).heap = s.heap := rfl
@[simp] theorem State.setNode_hsize : (s.setNode i e).hsize = s.hsize := rfl
@[simp] theorem State.setNode_root : (s.setNode i e).root = s.root := rfl
@[simp] theorem State.setNode_tv : (s.setNode i e).tv = s.tv := rfl
@[simp] theorem State.setNode_cv : (s.setNode i e).cv = s.cv := rfl
@[simp] theorem State.setNode_mode : (s.setNode i e).mode = s.mode := rfl
@[simp] theorem State.setNode_acc : (s.setNode i e).acc = s.acc := rfl
@[simp] theorem State.setNode_nbits : (s.setNode i e).nbits = s.nbits := rfl
@[simp] theorem State.setNode_cur : (s.setNode i e).cur = s.cur := rfl
@[simp] theorem State.setNode_rem : (s.setNode i e).rem = s.rem := rfl
@[simp] theorem State.setNode_err : (s.setNode i e).err = s.err := rfl
@[simp] theorem State.setNode_einfo : (s.setNode i e).einfo = s.einfo := rfl
@[simp] theorem State.setNode_out : (s.setNode i e).out = s.out := rfl
@[simp] theorem State.setNode_rsp : (s.setNode i e).rsp = s.rsp := rfl
@[simp] theorem State.setNode_inputs : (s.setNode i e).inputs = s.inputs := rfl

end setNode

section emit

variable (s : State) (b : Byte)

@[simp] theorem State.emit_freq : (s.emit b).freq = s.freq := rfl
@[simp] theorem State.emit_node : (s.emit b).node = s.node := rfl
@[simp] theorem State.emit_code : (s.emit b).code = s.code := rfl
@[simp] theorem State.emit_heap : (s.emit b).heap = s.heap := rfl
@[simp] theorem State.emit_hsize : (s.emit b).hsize = s.hsize := rfl
@[simp] theorem State.emit_root : (s.emit b).root = s.root := rfl
@[simp] theorem State.emit_tv : (s.emit b).tv = s.tv := rfl
@[simp] theorem State.emit_cv : (s.emit b).cv = s.cv := rfl
@[simp] theorem State.emit_mode : (s.emit b).mode = s.mode := rfl
@[simp] theorem State.emit_acc : (s.emit b).acc = s.acc := rfl
@[simp] theorem State.emit_nbits : (s.emit b).nbits = s.nbits := rfl
@[simp] theorem State.emit_cur : (s.emit b).cur = s.cur := rfl
@[simp] theorem State.emit_rem : (s.emit b).rem = s.rem := rfl
@[simp] theorem State.emit_err : (s.emit b).err = s.err := rfl
@[simp] theorem State.emit_einfo : (s.emit b).einfo = s.einfo := rfl
@[simp] theorem State.emit_out : (s.emit b).out = s.out ++ [b] := rfl
@[simp] theorem State.emit_rsp : (s.emit b).rsp = s.rsp := rfl
@[simp] theorem State.emit_inputs : (s.emit b).inputs = s.inputs := rfl

end emit

section respond

variable (s : State) (w : Word)

@[simp] theorem State.respond_freq : (s.respond w).freq = s.freq := rfl
@[simp] theorem State.respond_node : (s.respond w).node = s.node := rfl
@[simp] theorem State.respond_code : (s.respond w).code = s.code := rfl
@[simp] theorem State.respond_heap : (s.respond w).heap = s.heap := rfl
@[simp] theorem State.respond_hsize : (s.respond w).hsize = s.hsize := rfl
@[simp] theorem State.respond_root : (s.respond w).root = s.root := rfl
@[simp] theorem State.respond_tv : (s.respond w).tv = s.tv := rfl
@[simp] theorem State.respond_cv : (s.respond w).cv = s.cv := rfl
@[simp] theorem State.respond_mode : (s.respond w).mode = s.mode := rfl
@[simp] theorem State.respond_acc : (s.respond w).acc = s.acc := rfl
@[simp] theorem State.respond_nbits : (s.respond w).nbits = s.nbits := rfl
@[simp] theorem State.respond_cur : (s.respond w).cur = s.cur := rfl
@[simp] theorem State.respond_rem : (s.respond w).rem = s.rem := rfl
@[simp] theorem State.respond_err : (s.respond w).err = s.err := rfl
@[simp] theorem State.respond_einfo : (s.respond w).einfo = s.einfo := rfl
@[simp] theorem State.respond_out : (s.respond w).out = s.out := rfl
@[simp] theorem State.respond_rsp : (s.respond w).rsp = s.rsp ++ [w] := rfl
@[simp] theorem State.respond_inputs : (s.respond w).inputs = s.inputs := rfl

end respond

section takeInput

variable (s : State)

@[simp] theorem State.takeInput_freq : (s.takeInput).freq = s.freq := rfl
@[simp] theorem State.takeInput_node : (s.takeInput).node = s.node := rfl
@[simp] theorem State.takeInput_code : (s.takeInput).code = s.code := rfl
@[simp] theorem State.takeInput_heap : (s.takeInput).heap = s.heap := rfl
@[simp] theorem State.takeInput_hsize : (s.takeInput).hsize = s.hsize := rfl
@[simp] theorem State.takeInput_root : (s.takeInput).root = s.root := rfl
@[simp] theorem State.takeInput_tv : (s.takeInput).tv = s.tv := rfl
@[simp] theorem State.takeInput_cv : (s.takeInput).cv = s.cv := rfl
@[simp] theorem State.takeInput_mode : (s.takeInput).mode = s.mode := rfl
@[simp] theorem State.takeInput_acc : (s.takeInput).acc = s.acc := rfl
@[simp] theorem State.takeInput_nbits : (s.takeInput).nbits = s.nbits := rfl
@[simp] theorem State.takeInput_cur : (s.takeInput).cur = s.cur := rfl
@[simp] theorem State.takeInput_rem : (s.takeInput).rem = s.rem := rfl
@[simp] theorem State.takeInput_err : (s.takeInput).err = s.err := rfl
@[simp] theorem State.takeInput_einfo : (s.takeInput).einfo = s.einfo := rfl
@[simp] theorem State.takeInput_out : (s.takeInput).out = s.out := rfl
@[simp] theorem State.takeInput_rsp : (s.takeInput).rsp = s.rsp := rfl
@[simp] theorem State.takeInput_inputs : (s.takeInput).inputs = s.inputs.tail := rfl

end takeInput

section offerNext

variable (s : State) (w : Word)

@[simp] theorem State.offerNext_freq : (s.offerNext w).freq = s.freq := rfl
@[simp] theorem State.offerNext_node : (s.offerNext w).node = s.node := rfl
@[simp] theorem State.offerNext_code : (s.offerNext w).code = s.code := rfl
@[simp] theorem State.offerNext_heap : (s.offerNext w).heap = s.heap := rfl
@[simp] theorem State.offerNext_hsize : (s.offerNext w).hsize = s.hsize := rfl
@[simp] theorem State.offerNext_root : (s.offerNext w).root = s.root := rfl
@[simp] theorem State.offerNext_tv : (s.offerNext w).tv = s.tv := rfl
@[simp] theorem State.offerNext_cv : (s.offerNext w).cv = s.cv := rfl
@[simp] theorem State.offerNext_mode : (s.offerNext w).mode = s.mode := rfl
@[simp] theorem State.offerNext_acc : (s.offerNext w).acc = s.acc := rfl
@[simp] theorem State.offerNext_nbits : (s.offerNext w).nbits = s.nbits := rfl
@[simp] theorem State.offerNext_cur : (s.offerNext w).cur = s.cur := rfl
@[simp] theorem State.offerNext_rem : (s.offerNext w).rem = s.rem := rfl
@[simp] theorem State.offerNext_err : (s.offerNext w).err = s.err := rfl
@[simp] theorem State.offerNext_einfo : (s.offerNext w).einfo = s.einfo := rfl
@[simp] theorem State.offerNext_out : (s.offerNext w).out = s.out := rfl
@[simp] theorem State.offerNext_rsp : (s.offerNext w).rsp = s.rsp := rfl
@[simp] theorem State.offerNext_inputs : (s.offerNext w).inputs = .command w :: s.inputs := rfl

end offerNext

section send

variable (s : State) (is : List Instr)

@[simp] theorem State.send_freq : (s.send is).freq = s.freq := rfl
@[simp] theorem State.send_node : (s.send is).node = s.node := rfl
@[simp] theorem State.send_code : (s.send is).code = s.code := rfl
@[simp] theorem State.send_heap : (s.send is).heap = s.heap := rfl
@[simp] theorem State.send_hsize : (s.send is).hsize = s.hsize := rfl
@[simp] theorem State.send_root : (s.send is).root = s.root := rfl
@[simp] theorem State.send_tv : (s.send is).tv = s.tv := rfl
@[simp] theorem State.send_cv : (s.send is).cv = s.cv := rfl
@[simp] theorem State.send_mode : (s.send is).mode = s.mode := rfl
@[simp] theorem State.send_acc : (s.send is).acc = s.acc := rfl
@[simp] theorem State.send_nbits : (s.send is).nbits = s.nbits := rfl
@[simp] theorem State.send_cur : (s.send is).cur = s.cur := rfl
@[simp] theorem State.send_rem : (s.send is).rem = s.rem := rfl
@[simp] theorem State.send_err : (s.send is).err = s.err := rfl
@[simp] theorem State.send_einfo : (s.send is).einfo = s.einfo := rfl
@[simp] theorem State.send_out : (s.send is).out = s.out := rfl
@[simp] theorem State.send_rsp : (s.send is).rsp = s.rsp := rfl
@[simp] theorem State.send_inputs : (s.send is).inputs = s.inputs ++ is.map fun i => .command (encode i) := rfl

end send

section clear

variable (s : State)

@[simp] theorem State.clear_freq : (s.clear).freq = [] := rfl
@[simp] theorem State.clear_node : (s.clear).node = [] := rfl
@[simp] theorem State.clear_code : (s.clear).code = [] := rfl
@[simp] theorem State.clear_heap : (s.clear).heap = s.heap := rfl
@[simp] theorem State.clear_hsize : (s.clear).hsize = 0#9 := rfl
@[simp] theorem State.clear_root : (s.clear).root = Config.null := rfl
@[simp] theorem State.clear_tv : (s.clear).tv = false := rfl
@[simp] theorem State.clear_cv : (s.clear).cv = false := rfl
@[simp] theorem State.clear_mode : (s.clear).mode = .idle := rfl
@[simp] theorem State.clear_acc : (s.clear).acc = 0#7 := rfl
@[simp] theorem State.clear_nbits : (s.clear).nbits = 0#3 := rfl
@[simp] theorem State.clear_cur : (s.clear).cur = Config.null := rfl
@[simp] theorem State.clear_rem : (s.clear).rem = 0#40 := rfl
@[simp] theorem State.clear_err : (s.clear).err = .none := rfl
@[simp] theorem State.clear_einfo : (s.clear).einfo = 0#16 := rfl
@[simp] theorem State.clear_out : (s.clear).out = s.out := rfl
@[simp] theorem State.clear_rsp : (s.clear).rsp = s.rsp := rfl
@[simp] theorem State.clear_inputs : (s.clear).inputs = s.inputs := rfl

end clear

section assertReset

variable (s : State)

@[simp] theorem State.assertReset_freq : (s.assertReset).freq = [] := rfl
@[simp] theorem State.assertReset_node : (s.assertReset).node = [] := rfl
@[simp] theorem State.assertReset_code : (s.assertReset).code = [] := rfl
@[simp] theorem State.assertReset_heap : (s.assertReset).heap = [] := rfl
@[simp] theorem State.assertReset_hsize : (s.assertReset).hsize = 0#9 := rfl
@[simp] theorem State.assertReset_root : (s.assertReset).root = Config.null := rfl
@[simp] theorem State.assertReset_tv : (s.assertReset).tv = false := rfl
@[simp] theorem State.assertReset_cv : (s.assertReset).cv = false := rfl
@[simp] theorem State.assertReset_mode : (s.assertReset).mode = .idle := rfl
@[simp] theorem State.assertReset_acc : (s.assertReset).acc = 0#7 := rfl
@[simp] theorem State.assertReset_nbits : (s.assertReset).nbits = 0#3 := rfl
@[simp] theorem State.assertReset_cur : (s.assertReset).cur = Config.null := rfl
@[simp] theorem State.assertReset_rem : (s.assertReset).rem = 0#40 := rfl
@[simp] theorem State.assertReset_err : (s.assertReset).err = .none := rfl
@[simp] theorem State.assertReset_einfo : (s.assertReset).einfo = 0#16 := rfl
@[simp] theorem State.assertReset_out : (s.assertReset).out = [] := rfl
@[simp] theorem State.assertReset_rsp : (s.assertReset).rsp = [] := rfl
@[simp] theorem State.assertReset_inputs : (s.assertReset).inputs = s.inputs := rfl

end assertReset

section moveTo

variable (s : State) (i : NodeIdx)

@[simp] theorem State.moveTo_freq : (s.moveTo i).freq = s.freq := rfl
@[simp] theorem State.moveTo_node : (s.moveTo i).node = s.node := rfl
@[simp] theorem State.moveTo_code : (s.moveTo i).code = s.code := rfl
@[simp] theorem State.moveTo_heap : (s.moveTo i).heap = s.heap := rfl
@[simp] theorem State.moveTo_hsize : (s.moveTo i).hsize = s.hsize := rfl
@[simp] theorem State.moveTo_root : (s.moveTo i).root = s.root := rfl
@[simp] theorem State.moveTo_tv : (s.moveTo i).tv = s.tv := rfl
@[simp] theorem State.moveTo_cv : (s.moveTo i).cv = s.cv := rfl
@[simp] theorem State.moveTo_mode : (s.moveTo i).mode = s.mode := rfl
@[simp] theorem State.moveTo_acc : (s.moveTo i).acc = s.acc := rfl
@[simp] theorem State.moveTo_nbits : (s.moveTo i).nbits = s.nbits := rfl
@[simp] theorem State.moveTo_cur : (s.moveTo i).cur = i := rfl
@[simp] theorem State.moveTo_rem : (s.moveTo i).rem = s.rem := rfl
@[simp] theorem State.moveTo_err : (s.moveTo i).err = s.err := rfl
@[simp] theorem State.moveTo_einfo : (s.moveTo i).einfo = s.einfo := rfl
@[simp] theorem State.moveTo_out : (s.moveTo i).out = s.out := rfl
@[simp] theorem State.moveTo_rsp : (s.moveTo i).rsp = s.rsp := rfl
@[simp] theorem State.moveTo_inputs : (s.moveTo i).inputs = s.inputs := rfl

end moveTo

section dropPending

variable (s : State)

@[simp] theorem State.dropPending_freq : (s.dropPending).freq = s.freq := rfl
@[simp] theorem State.dropPending_node : (s.dropPending).node = s.node := rfl
@[simp] theorem State.dropPending_code : (s.dropPending).code = s.code := rfl
@[simp] theorem State.dropPending_heap : (s.dropPending).heap = s.heap := rfl
@[simp] theorem State.dropPending_hsize : (s.dropPending).hsize = s.hsize := rfl
@[simp] theorem State.dropPending_root : (s.dropPending).root = s.root := rfl
@[simp] theorem State.dropPending_tv : (s.dropPending).tv = s.tv := rfl
@[simp] theorem State.dropPending_cv : (s.dropPending).cv = s.cv := rfl
@[simp] theorem State.dropPending_mode : (s.dropPending).mode = s.mode := rfl
@[simp] theorem State.dropPending_acc : (s.dropPending).acc = 0#7 := rfl
@[simp] theorem State.dropPending_nbits : (s.dropPending).nbits = 0#3 := rfl
@[simp] theorem State.dropPending_cur : (s.dropPending).cur = s.cur := rfl
@[simp] theorem State.dropPending_rem : (s.dropPending).rem = s.rem := rfl
@[simp] theorem State.dropPending_err : (s.dropPending).err = s.err := rfl
@[simp] theorem State.dropPending_einfo : (s.dropPending).einfo = s.einfo := rfl
@[simp] theorem State.dropPending_out : (s.dropPending).out = s.out := rfl
@[simp] theorem State.dropPending_rsp : (s.dropPending).rsp = s.rsp := rfl
@[simp] theorem State.dropPending_inputs : (s.dropPending).inputs = s.inputs := rfl

end dropPending

section setMode

variable (s : State) (m : Mode)

@[simp] theorem State.setMode_freq : (s.setMode m).freq = s.freq := rfl
@[simp] theorem State.setMode_node : (s.setMode m).node = s.node := rfl
@[simp] theorem State.setMode_code : (s.setMode m).code = s.code := rfl
@[simp] theorem State.setMode_heap : (s.setMode m).heap = s.heap := rfl
@[simp] theorem State.setMode_hsize : (s.setMode m).hsize = s.hsize := rfl
@[simp] theorem State.setMode_root : (s.setMode m).root = s.root := rfl
@[simp] theorem State.setMode_tv : (s.setMode m).tv = s.tv := rfl
@[simp] theorem State.setMode_cv : (s.setMode m).cv = s.cv := rfl
@[simp] theorem State.setMode_mode : (s.setMode m).mode = m := rfl
@[simp] theorem State.setMode_acc : (s.setMode m).acc = s.acc := rfl
@[simp] theorem State.setMode_nbits : (s.setMode m).nbits = s.nbits := rfl
@[simp] theorem State.setMode_cur : (s.setMode m).cur = s.cur := rfl
@[simp] theorem State.setMode_rem : (s.setMode m).rem = s.rem := rfl
@[simp] theorem State.setMode_err : (s.setMode m).err = s.err := rfl
@[simp] theorem State.setMode_einfo : (s.setMode m).einfo = s.einfo := rfl
@[simp] theorem State.setMode_out : (s.setMode m).out = s.out := rfl
@[simp] theorem State.setMode_rsp : (s.setMode m).rsp = s.rsp := rfl
@[simp] theorem State.setMode_inputs : (s.setMode m).inputs = s.inputs := rfl

end setMode

section emitSymbol

variable (s : State) (sym : Sym)

@[simp] theorem emitSymbol_freq : (emitSymbol s sym).freq = s.freq := rfl
@[simp] theorem emitSymbol_node : (emitSymbol s sym).node = s.node := rfl
@[simp] theorem emitSymbol_code : (emitSymbol s sym).code = s.code := rfl
@[simp] theorem emitSymbol_heap : (emitSymbol s sym).heap = s.heap := rfl
@[simp] theorem emitSymbol_hsize : (emitSymbol s sym).hsize = s.hsize := rfl
@[simp] theorem emitSymbol_root : (emitSymbol s sym).root = s.root := rfl
@[simp] theorem emitSymbol_tv : (emitSymbol s sym).tv = s.tv := rfl
@[simp] theorem emitSymbol_cv : (emitSymbol s sym).cv = s.cv := rfl
@[simp] theorem emitSymbol_mode : (emitSymbol s sym).mode = s.mode := rfl
@[simp] theorem emitSymbol_acc : (emitSymbol s sym).acc = s.acc := rfl
@[simp] theorem emitSymbol_nbits : (emitSymbol s sym).nbits = s.nbits := rfl
@[simp] theorem emitSymbol_cur : (emitSymbol s sym).cur = s.cur := rfl
@[simp] theorem emitSymbol_rem : (emitSymbol s sym).rem = s.rem - 1#40 := rfl
@[simp] theorem emitSymbol_err : (emitSymbol s sym).err = s.err := rfl
@[simp] theorem emitSymbol_einfo : (emitSymbol s sym).einfo = s.einfo := rfl
@[simp] theorem emitSymbol_out : (emitSymbol s sym).out = s.out ++ [sym] := rfl
@[simp] theorem emitSymbol_rsp : (emitSymbol s sym).rsp = s.rsp := rfl
@[simp] theorem emitSymbol_inputs : (emitSymbol s sym).inputs = s.inputs := rfl

end emitSymbol

section hins

variable (s : State) (x : NodeIdx)

@[simp] theorem hins_freq : (hins s x).freq = s.freq := rfl
@[simp] theorem hins_node : (hins s x).node = s.node := rfl
@[simp] theorem hins_code : (hins s x).code = s.code := rfl
@[simp] theorem hins_heap : (hins s x).heap =
    siftUp (less s.node) s.hsize.toNat s.hsize.toNat (setSlotAt s.heap s.hsize.toNat x) := rfl
@[simp] theorem hins_hsize : (hins s x).hsize = s.hsize + 1#9 := rfl
@[simp] theorem hins_root : (hins s x).root = s.root := rfl
@[simp] theorem hins_tv : (hins s x).tv = s.tv := rfl
@[simp] theorem hins_cv : (hins s x).cv = s.cv := rfl
@[simp] theorem hins_mode : (hins s x).mode = s.mode := rfl
@[simp] theorem hins_acc : (hins s x).acc = s.acc := rfl
@[simp] theorem hins_nbits : (hins s x).nbits = s.nbits := rfl
@[simp] theorem hins_cur : (hins s x).cur = s.cur := rfl
@[simp] theorem hins_rem : (hins s x).rem = s.rem := rfl
@[simp] theorem hins_err : (hins s x).err = s.err := rfl
@[simp] theorem hins_einfo : (hins s x).einfo = s.einfo := rfl
@[simp] theorem hins_out : (hins s x).out = s.out := rfl
@[simp] theorem hins_rsp : (hins s x).rsp = s.rsp := rfl
@[simp] theorem hins_inputs : (hins s x).inputs = s.inputs := rfl

end hins

section raise

variable (s : State) (e : ErrCode) (info : Info)

/-- With no error latched, `raise` latches (60_exceptions R183). -/
theorem State.raise_of_none {s : State} (h : s.err = .none) :
    s.raise e info = { s with err := e, einfo := info } := if_pos h

/-- With an error latched, `raise` changes nothing: "The first error wins" (60_exceptions R183). -/
theorem State.raise_of_latched {s : State} (h : s.err ≠ .none) : s.raise e info = s := if_neg h

/-- All that `raise` can do. -/
theorem State.raise_cases : (s.err = .none ∧ s.raise e info = { s with err := e, einfo := info }) ∨
    (s.err ≠ .none ∧ s.raise e info = s) := by
  by_cases h : s.err = .none
  · exact .inl ⟨h, State.raise_of_none e info h⟩
  · exact .inr ⟨h, State.raise_of_latched e info h⟩

@[simp] theorem State.raise_freq : (s.raise e info).freq = s.freq := by unfold State.raise; split <;> rfl
@[simp] theorem State.raise_node : (s.raise e info).node = s.node := by unfold State.raise; split <;> rfl
@[simp] theorem State.raise_code : (s.raise e info).code = s.code := by unfold State.raise; split <;> rfl
@[simp] theorem State.raise_heap : (s.raise e info).heap = s.heap := by unfold State.raise; split <;> rfl
@[simp] theorem State.raise_hsize : (s.raise e info).hsize = s.hsize := by unfold State.raise; split <;> rfl
@[simp] theorem State.raise_root : (s.raise e info).root = s.root := by unfold State.raise; split <;> rfl
@[simp] theorem State.raise_tv : (s.raise e info).tv = s.tv := by unfold State.raise; split <;> rfl
@[simp] theorem State.raise_cv : (s.raise e info).cv = s.cv := by unfold State.raise; split <;> rfl
@[simp] theorem State.raise_mode : (s.raise e info).mode = s.mode := by unfold State.raise; split <;> rfl
@[simp] theorem State.raise_acc : (s.raise e info).acc = s.acc := by unfold State.raise; split <;> rfl
@[simp] theorem State.raise_nbits : (s.raise e info).nbits = s.nbits := by unfold State.raise; split <;> rfl
@[simp] theorem State.raise_cur : (s.raise e info).cur = s.cur := by unfold State.raise; split <;> rfl
@[simp] theorem State.raise_rem : (s.raise e info).rem = s.rem := by unfold State.raise; split <;> rfl
@[simp] theorem State.raise_out : (s.raise e info).out = s.out := by unfold State.raise; split <;> rfl
@[simp] theorem State.raise_rsp : (s.raise e info).rsp = s.rsp := by unfold State.raise; split <;> rfl
@[simp] theorem State.raise_inputs : (s.raise e info).inputs = s.inputs := by unfold State.raise; split <;> rfl

theorem State.raise_err : (s.raise e info).err = if s.err = .none then e else s.err := by
  unfold State.raise; split <;> rfl

theorem State.raise_einfo : (s.raise e info).einfo = if s.err = .none then info else s.einfo := by
  unfold State.raise; split <;> rfl

end raise

section reads

variable (s : State)

/-- A read of FREQ after a write (41_frequency R91). -/
@[simp] theorem State.freqAt_setFreq (sym sym' : Sym) (v : Freq) :
    (s.setFreq sym v).freqAt sym' = if sym' = sym then v else s.freqAt sym' := by
  simp only [State.freqAt, State.setFreq_freq, Table.get_set, BitVec.toNat_inj]

/-- A read of NODE after a write (20_memory R50). -/
@[simp] theorem nodeAt_setNodeAt (nodes : Table NodeEntry) (i j : NodeIdx) (e : NodeEntry) :
    nodeAt (setNodeAt nodes i e) j = if j = i then e else nodeAt nodes j := by
  simp only [nodeAt, setNodeAt, Table.get_set, BitVec.toNat_inj]

/-- A read of CODE after a write (20_memory R50). -/
@[simp] theorem codeAt_setCodeAt (codes : Table Code) (sym sym' : Sym) (c : Code) :
    codeAt (setCodeAt codes sym c) sym' = if sym' = sym then c else codeAt codes sym' := by
  simp only [codeAt, setCodeAt, Table.get_set, BitVec.toNat_inj]

/-- A read of HEAP after a write (20_memory R50). -/
@[simp] theorem slotAt_setSlotAt (h : Table NodeIdx) (k j : Nat) (i : NodeIdx) :
    slotAt (setSlotAt h k i) j = if j = k then i else slotAt h j := by
  simp only [slotAt, setSlotAt, Table.get_set]

@[simp] theorem nodeAt_nil (i : NodeIdx) : nodeAt [] i = NodeEntry.empty := rfl

@[simp] theorem codeAt_nil (sym : Sym) : codeAt [] sym = Code.absent := rfl

end reads

end Sys2Proof.Machine
end

