-- ==== Sys2Proof/Laws/Sequence.lean ====
section
/-! SUPPORT. What the three checks before a command can do (30_encoding R66), the bind of a command's pseudocode,
and what one step can do. -/

namespace Sys2Proof.Machine

/-- `err` is low exactly when ERR is 0 (10_state R28). -/
@[simp] theorem State.errOut_eq_false {s : State} : s.errOut = false ↔ s.err = .none := by
  simp [State.errOut]

@[simp] theorem State.errOut_eq_true {s : State} : s.errOut = true ↔ s.err ≠ .none := by
  simp [State.errOut]

theorem State.drops_eq_true {s : State} {op : Opcode} :
    s.drops op = true ↔ s.err ≠ .none ∧ op.always = false := by
  simp [State.drops, State.errOut]

/-- With no error latched nothing is dropped (60_exceptions R185). -/
theorem State.drops_of_none {s : State} (h : s.err = .none) (op : Opcode) : s.drops op = false := by
  simp [State.drops, State.errOut, h]

/-- A command of the always-executed set is legal in every state (30_encoding R65, 60_exceptions R189). -/
theorem State.seqOK_of_always {s : State} {op : Opcode} (h : op.always = true) : s.seqOK op = true := by
  cases op <;> simp_all [Opcode.always, State.seqOK]

variable {i : Instr} {s t : State} {perform : State → Result}

/-- A command that passes the checks is performed (30_encoding R66). -/
theorem guarded_perform (hd : s.drops i.opcode = false) (hw : i.wf = true) (hs : s.seqOK i.opcode = true) :
    guarded i s perform = perform s := by
  simp [guarded, hd, hw, hs]

/-- A working command with no error latched, legal now, is performed (30_encoding R66). -/
theorem guarded_working (he : s.err = .none) (hw : i.wf = true) (hs : s.seqOK i.opcode = true) :
    guarded i s perform = perform s :=
  guarded_perform (State.drops_of_none he _) hw hs

/-- A command of the always-executed set is performed in every state (30_encoding R65). -/
theorem guarded_always (ha : i.opcode.always = true) (hw : i.wf = true) : guarded i s perform = perform s :=
  guarded_perform (by simp [State.drops, ha]) hw (State.seqOK_of_always ha)

/-- All that a guarded command that answers a next state can have done (60_exceptions R187). -/
theorem guarded_cases (h : guarded i s perform = .next t) :
    (s.err ≠ .none ∧ i.opcode.always = false ∧ t = s) ∨
    (i.wf = false ∧ t = s.raise .illegalCommand (infoOfOpcode i.opcode.code)) ∨
    (s.err = .none ∧ i.wf = true ∧ s.seqOK i.opcode = false ∧
      t = { s with err := .sequence, einfo := infoOfOpcode i.opcode.code }) ∨
    (i.wf = true ∧ s.seqOK i.opcode = true ∧ (s.err = .none ∨ i.opcode.always = true) ∧ perform s = .next t) := by
  unfold guarded at h
  split at h
  · rename_i hd
    obtain ⟨he, ha⟩ := State.drops_eq_true.1 hd
    exact .inl ⟨he, ha, by cases h; rfl⟩
  · rename_i hd
    have hd' : s.err = .none ∨ i.opcode.always = true := by
      by_cases he : s.err = .none
      · exact .inl he
      · refine .inr ?_
        cases ha : i.opcode.always with
        | true => rfl
        | false => exact absurd (State.drops_eq_true.2 ⟨he, ha⟩) hd
    split at h
    · rename_i hw
      exact .inr (.inl ⟨by simpa using hw, by cases h; rfl⟩)
    · rename_i hw
      have hw' : i.wf = true := by simpa using hw
      split at h
      · rename_i hs
        have hs' : s.seqOK i.opcode = false := by simpa using hs
        rcases hd' with he | ha
        · refine .inr (.inr (.inl ⟨he, hw', hs', ?_⟩))
          rw [State.raise_of_none _ _ he] at h
          cases h; rfl
        · rw [State.seqOK_of_always ha] at hs'; cases hs'
      · rename_i hs
        exact .inr (.inr (.inr ⟨hw', by simpa using hs, hd', h⟩))

/-- A guarded command stops only where its own rule does. -/
theorem guarded_fault {f : Fault} (h : guarded i s perform = .fault f) : perform s = .fault f := by
  unfold guarded at h
  split at h
  · cases h
  · split at h
    · cases h
    · split at h
      · cases h
      · exact h

theorem Res.bind_eq_ok {α β : Type} {r : Res α} {f : α → State → Res β} {b : β} :
    r.bind f = .ok b t ↔ ∃ a u, r = .ok a u ∧ f a u = .ok b t := by
  cases r <;> simp [Res.bind]

theorem Res.bind_eq_raised {α β : Type} {r : Res α} {f : α → State → Res β} :
    r.bind f = .raised t ↔ r = .raised t ∨ ∃ a u, r = .ok a u ∧ f a u = .raised t := by
  cases r <;> simp [Res.bind]

theorem Res.bind_eq_fault {α β : Type} {r : Res α} {f : α → State → Res β} {e : Fault} :
    r.bind f = .fault e ↔ r = .fault e ∨ ∃ a u, r = .ok a u ∧ f a u = .fault e := by
  cases r <;> simp [Res.bind]

theorem Res.toResult_eq_next {α : Type} {r : Res α} :
    r.toResult = .next t ↔ (∃ a, r = .ok a t) ∨ r = .raised t := by
  cases r <;> simp [Res.toResult]

theorem Res.toResult_eq_fault {α : Type} {r : Res α} {e : Fault} : r.toResult = .fault e ↔ r = .fault e := by
  cases r <;> simp [Res.toResult]

/-- A word that is not well formed, whatever its opcode: IllegalCommandError, or nothing while an error is latched
(30_encoding R66). -/
theorem executeIllFormed_eq (w : Word) (s : State) :
    executeIllFormed w s = s.raise .illegalCommand (infoOfOpcode (opcodeByte w)) := by
  by_cases he : s.err = .none
  · simp [executeIllFormed, State.errOut, he]
  · simp only [executeIllFormed, State.raise_of_latched _ _ he, ite_self]

/-- All that one step can do (20_memory R43, 70_reset R210). -/
theorem step_cases {r : Result} (h : step s = r) :
    (s.inputs = [] ∧ r = .next s) ∨
    (∃ rest, s.inputs = .reset :: rest ∧ r = .next s.takeInput.assertReset) ∨
    (∃ w rest i, s.inputs = .command w :: rest ∧ decode w = .ok i ∧ r = exec i s.takeInput) ∨
    (∃ w rest e, s.inputs = .command w :: rest ∧ decode w = .error e ∧
      r = .next (s.takeInput.raise .illegalCommand (infoOfOpcode (opcodeByte w)))) := by
  unfold step at h
  split at h
  · exact .inl ⟨by assumption, h.symm⟩
  · exact .inr (.inl ⟨_, by assumption, h.symm⟩)
  · split at h
    · exact .inr (.inr (.inl ⟨_, _, _, by assumption, by assumption, h.symm⟩))
    · refine .inr (.inr (.inr ⟨_, _, _, by assumption, by assumption, ?_⟩))
      rw [← executeIllFormed_eq]; exact h.symm

end Sys2Proof.Machine
end

