-- ==== Sys2Proof/Laws/Checks.lean ====
section
/-! SUPPORT. When a word and an instruction raise the errors every command can raise (30_encoding R66 to R68,
60_exceptions R189). -/

namespace Sys2Proof.Machine

/-- A step on an offered word leaves what the host sends later alone (20_memory R43). -/
theorem step_offerNext (s : State) (w : Word) :
    step (s.offerNext w) = match decode w with
      | .ok i => exec i s
      | .error _ => .next (executeIllFormed w s) := rfl

/-- A word the decoder refuses raises IllegalCommandError (30_encoding R67). -/
theorem raisesIllegal_of_error {w : Word} {e : DecodeError} (h : decode w = .error e) : RaisesIllegal w := by
  intro s
  rw [step_offerNext, h]
  simp only [executeIllFormed_eq, State.raise, infoOfOpcode]

/-- The words of an opcode that R67 makes ill-formed, by the opcode's format. -/
theorem illegalWords_opcode (op : Opcode) : IllegalWords op.code op.format.usedBits op.format.hasIdx := by
  intro w hw hbad
  cases hd : decode w with
  | error e => exact raisesIllegal_of_error hd
  | ok i =>
    exfalso
    unfold decode at hd
    rw [hw, Opcode.ofCode_code] at hd
    simp only at hd
    split at hd
    · cases hd
    · rename_i h1
      split at hd
      · cases hd
      · rename_i h2
        rcases hbad with h3 | ⟨h3, h4⟩
        · apply h1
          simp only [bne_iff_ne, ne_eq, operandField]
          intro h5
          have := congrArg BitVec.toNat h5
          exact h3 (by simpa [BitVec.toNat_ushiftRight, Nat.shiftRight_eq_div_pow] using this)
        · apply h2
          simp only [h3, Bool.true_and, beq_iff_eq]
          exact BitVec.eq_of_toNat_eq (by simpa using h4)

/-- A well-formed command that the sequence check refuses, with no error latched (60_exceptions R189). -/
theorem guarded_sequence {i : Instr} {s : State} {perform : State → Result} (he : s.err = .none) (hw : i.wf = true)
    (hs : s.seqOK i.opcode = false) :
    guarded i s perform = .next { s with err := .sequence, einfo := infoOfOpcode i.opcode.code } := by
  simp [guarded, State.drops_of_none he, hw, hs, State.raise_of_none _ _ he]

end Sys2Proof.Machine
end

