-- ==== Sys2Proof/Laws/Heap.lean ====
section
/-! SUPPORT. The order of the heap, what its loops touch, and all that HINS and HEXT can do (42_heap). -/

namespace Sys2Proof.Machine

section order

variable {nodes : Table NodeEntry} {i j k : NodeIdx}

/-- The order by frequency, then by index, on numbers (42_heap R100). -/
theorem less_iff : less nodes i j = true ↔ (nodeAt nodes i).freq.toNat < (nodeAt nodes j).freq.toNat ∨
    ((nodeAt nodes i).freq.toNat = (nodeAt nodes j).freq.toNat ∧ i.toNat < j.toNat) := by
  simp [less, BitVec.lt_def, BitVec.toNat_eq]

theorem less_irrefl : less nodes i i = false := by
  rw [Bool.eq_false_iff, Ne, less_iff]; omega

theorem less_trans (h : less nodes i j = true) (h' : less nodes j k = true) : less nodes i k = true := by
  rw [less_iff] at *; omega

/-- "Two distinct indices are never equal under `less`" (42_heap R100). -/
theorem less_total (h : i ≠ j) : less nodes i j = true ∨ less nodes j i = true := by
  have : i.toNat ≠ j.toNat := fun e => h (BitVec.eq_of_toNat_eq e)
  rw [less_iff, less_iff]; omega

/-- What is not less comes after or is the same. -/
theorem not_less_trans (h : less nodes j i = false) (h' : less nodes k j = false) : less nodes k i = false := by
  rw [Bool.eq_false_iff, Ne, less_iff] at *; omega

end order

/-- A read after a swap (42_heap R102). -/
theorem slotAt_swapSlots (h : Table NodeIdx) (i j k : Nat) :
    slotAt (swapSlots h i j) k = if k = j then slotAt h i else if k = i then slotAt h j else slotAt h k := by
  simp only [swapSlots, slotAt_setSlotAt]

/-- HINS's loop leaves every slot above its start alone (42_heap R102). -/
theorem slotAt_siftUp (lt : NodeIdx → NodeIdx → Bool) (rounds k j : Nat) (h : Table NodeIdx) (hj : k < j) :
    slotAt (siftUp lt rounds k h) j = slotAt h j := by
  induction rounds generalizing k h with
  | zero => rfl
  | succ rounds ih =>
    simp only [siftUp]
    split
    · have hk : (k - 1) >>> 1 ≤ k := by rw [Nat.shiftRight_eq_div_pow]; omega
      rw [ih _ _ (by omega), slotAt_swapSlots, if_neg (by omega), if_neg (by omega)]
    · rfl

/-- The slot HEXT's loop picks is the slot itself or one of its children below `n` (42_heap R103). -/
theorem leastSlot_cases (lt : NodeIdx → NodeIdx → Bool) (n k : Nat) (h : Table NodeIdx) :
    leastSlot lt n k h = k ∨ (leastSlot lt n k h = 2 * k + 1 ∧ 2 * k + 1 < n) ∨
      (leastSlot lt n k h = 2 * k + 2 ∧ 2 * k + 2 < n) := by
  simp only [leastSlot]
  by_cases h1 : (decide (2 * k + 1 < n) && lt (slotAt h (2 * k + 1)) (slotAt h k)) = true
  · rw [if_pos h1]
    simp only [Bool.and_eq_true, decide_eq_true_eq] at h1
    split
    · rename_i h2; simp only [Bool.and_eq_true, decide_eq_true_eq] at h2; exact .inr (.inr ⟨rfl, h2.1⟩)
    · exact .inr (.inl ⟨rfl, h1.1⟩)
  · rw [if_neg h1]
    split
    · rename_i h2; simp only [Bool.and_eq_true, decide_eq_true_eq] at h2; exact .inr (.inr ⟨rfl, h2.1⟩)
    · exact .inl rfl

/-- HEXT's loop leaves every slot at or above the heap's size alone (42_heap R103). -/
theorem slotAt_siftDown (lt : NodeIdx → NodeIdx → Bool) (n rounds k j : Nat) (h : Table NodeIdx) (hk : k < n)
    (hj : n ≤ j) : slotAt (siftDown lt n rounds k h) j = slotAt h j := by
  induction rounds generalizing k h with
  | zero => rfl
  | succ rounds ih =>
    simp only [siftDown]
    split
    · rfl
    · rename_i hc
      have hlt : leastSlot lt n k h < n := by rcases leastSlot_cases lt n k h with h | h | h <;> omega
      rw [ih _ _ hlt, slotAt_swapSlots, if_neg (by omega), if_neg (by omega)]

/-- HINS writes HEAP and HSIZE only (42_heap R102). -/
theorem hins_frame (s : State) (x : NodeIdx) : ∃ heap, hins s x = { s with heap := heap, hsize := s.hsize + 1#9 } :=
  ⟨_, rfl⟩

/-- HEXT on a heap with an entry: the entry at slot 0, HSIZE one less (42_heap R103). -/
theorem hext_of_pos {s : State} (h : s.hsize ≠ 0#9) :
    ∃ heap, hext s = .ok (slotAt s.heap 0) { s with heap := heap, hsize := s.hsize - 1#9 } := by
  unfold hext; rw [if_neg h]; exact ⟨_, rfl⟩

/-- All that HEXT can do (42_heap R103). -/
theorem hext_cases (s : State) :
    (s.hsize = 0#9 ∧ hext s = .raised (s.raise .emptyQueue 0#16)) ∨
    (s.hsize ≠ 0#9 ∧ ∃ heap, hext s = .ok (slotAt s.heap 0) { s with heap := heap, hsize := s.hsize - 1#9 }) := by
  by_cases h : s.hsize = 0#9
  · exact .inl ⟨h, by unfold hext; rw [if_pos h]⟩
  · exact .inr ⟨h, hext_of_pos h⟩

end Sys2Proof.Machine
end

