-- ==== Sys2Proof/Laws/Tree.lean ====
section
/-! SUPPORT. What BLD's steps can do to the state (43_tree R110), and that the merge loop never meets an empty heap
(42_heap R107). -/

namespace Sys2Proof.Machine

/-- Step 1 writes NODE, HEAP and HSIZE only (43_tree R110). -/
theorem insertLeaves_frame (syms : List Sym) (n : Nat) (s : State) :
    ∃ node heap hsize, (insertLeaves syms n s).2 = { s with node := node, heap := heap, hsize := hsize } := by
  induction syms generalizing n s with
  | nil => exact ⟨_, _, _, rfl⟩
  | cons sym syms ih =>
    simp only [insertLeaves]
    split
    · exact ih n s
    · obtain ⟨node, heap, hsize, h⟩ := ih (n + 1) _
      exact ⟨node, heap, hsize, h⟩

/-- Step 2 always ends with a value: no extraction meets an empty heap (42_heap R107), and it writes NODE, HEAP
and HSIZE only (43_tree R110). -/
theorem mergeLoop_completes (rounds n : Nat) (s : State) :
    ∃ m node heap hsize, mergeLoop rounds n s = .ok m { s with node := node, heap := heap, hsize := hsize } := by
  induction rounds generalizing n s with
  | zero => exact ⟨_, _, _, _, rfl⟩
  | succ rounds ih =>
    simp only [mergeLoop]
    split
    · rename_i h
      simp only [hsz, gt_iff_lt] at h
      have h0 : s.hsize ≠ 0#9 := by rintro h'; simp [h'] at h
      obtain ⟨heap, h1⟩ := hext_of_pos h0
      have h1' : s.hsize - 1#9 ≠ 0#9 := by
        intro h'
        bv_omega
      obtain ⟨heap', h2⟩ := hext_of_pos (s := { s with heap := heap, hsize := s.hsize - 1#9 }) h1'
      rw [h1, Res.bind, h2, Res.bind]
      obtain ⟨m, node, heap'', hsize, h3⟩ := ih (n + 1) _
      exact ⟨m, node, heap'', hsize, h3⟩
    · exact ⟨_, _, _, _, rfl⟩

/-- All that BLD's body can do: a tree with TV = 1, or the unreachable EmptyQueueError (43_tree R110). -/
theorem buildTree_cases (s : State) :
    (∃ node heap hsize root,
      buildTree s = .ok () { s with node := node, heap := heap, hsize := hsize, root := root, tv := true }) ∨
    (∃ node heap hsize, buildTree s =
      .raised (State.raise { s with node := node, heap := heap, hsize := hsize } .emptyQueue 0#16)) := by
  obtain ⟨node, heap, hsize, hl⟩ := insertLeaves_frame allSyms 0 { s with node := [] }
  obtain ⟨m, node', heap', hsize', hm⟩ :=
    mergeLoop_completes (hsz (insertLeaves allSyms 0 { s with node := [] }).2)
      (insertLeaves allSyms 0 { s with node := [] }).1 (insertLeaves allSyms 0 { s with node := [] }).2
  simp only [buildTree, hm, Res.bind]
  rw [hl]
  rcases hext_cases { s with node := node', heap := heap', hsize := hsize' } with ⟨-, h⟩ | ⟨-, heap'', h⟩
  · rw [h]; exact .inr ⟨_, _, _, rfl⟩
  · rw [h]; exact .inl ⟨_, _, _, _, rfl⟩

/-- All that Check can answer at a node (43_tree R118). -/
theorem checkTree_cases {nodes : Table NodeEntry} {depth : Nat} {i : NodeIdx} {V V' : List NodeIdx} {Y Y' : List Sym}
    (h : checkTree nodes depth i V Y = some (V', Y')) :
    ∃ d, depth = d + 1 ∧ i ∉ V ∧
      (((nodeAt nodes i).leaf = true ∧ (nodeAt nodes i).left = Config.null ∧ (nodeAt nodes i).right = Config.null ∧
          (nodeAt nodes i).sym ∉ Y ∧ V' = i :: V ∧ Y' = (nodeAt nodes i).sym :: Y) ∨
       ((nodeAt nodes i).leaf = false ∧ (nodeAt nodes i).left ≠ Config.null ∧ (nodeAt nodes i).right ≠ Config.null ∧
          ∃ Vl Yl, checkTree nodes d (nodeAt nodes i).left (i :: V) Y = some (Vl, Yl) ∧
            checkTree nodes d (nodeAt nodes i).right Vl Yl = some (V', Y'))) := by
  cases depth with
  | zero => cases h
  | succ d =>
    refine ⟨d, rfl, ?_⟩
    simp only [checkTree] at h
    split at h
    · cases h
    · rename_i hi
      refine ⟨hi, ?_⟩
      split at h
      · rename_i hl
        split at h
        · cases h
        · rename_i hc
          split at h
          · cases h
          · rename_i hy
            cases h
            exact .inl ⟨hl, by simpa using (not_or.1 hc).1, by simpa using (not_or.1 hc).2, hy, rfl, rfl⟩
      · rename_i hl
        split at h
        · cases h
        · rename_i hc
          split at h
          · cases h
          · rename_i Vl Yl hleft
            exact .inr ⟨by simpa using hl, (not_or.1 hc).1, (not_or.1 hc).2, Vl, Yl, hleft, h⟩

end Sys2Proof.Machine
end

