-- ==== Sys2Proof/Laws/Walker.lean ====
section
/-! SUPPORT. All that WalkBit can do (46_decode R152), and what DEC's loop leaves alone. -/

namespace Sys2Proof.Machine

/-- A node index other than NULL names its entry (20_memory R40). -/
theorem nodeAt?_of_ne {nodes : Table NodeEntry} {i : NodeIdx} (h : i ≠ Config.null) :
    nodeAt? nodes i = some (nodeAt nodes i) := if_neg h

@[simp] theorem nodeAt?_null {nodes : Table NodeEntry} : nodeAt? nodes Config.null = none := rfl

theorem nodeAt?_eq_some {nodes : Table NodeEntry} {i : NodeIdx} {e : NodeEntry} :
    nodeAt? nodes i = some e ↔ i ≠ Config.null ∧ e = nodeAt nodes i := by
  unfold nodeAt?
  split <;> simp [*, eq_comm]

/-- All that WalkBit can do when it goes on: emit the single leaf's symbol, emit the symbol of the leaf reached
and go back to the root, or move to a child (46_decode R152). -/
theorem walkBit_ok {s t : State} {b : Bool} (h : walkBit s b = .ok () t) :
    s.root ≠ Config.null ∧
    (((nodeAt s.node s.root).leaf = true ∧ b = false ∧ t = emitSymbol s (nodeAt s.node s.root).sym) ∨
     ((nodeAt s.node s.root).leaf = false ∧ s.cur ≠ Config.null ∧ (nodeAt s.node s.cur).child b ≠ Config.null ∧
        (((nodeAt s.node ((nodeAt s.node s.cur).child b)).leaf = true ∧
          t = (emitSymbol s (nodeAt s.node ((nodeAt s.node s.cur).child b)).sym).moveTo s.root) ∨
         ((nodeAt s.node ((nodeAt s.node s.cur).child b)).leaf = false ∧
          t = s.moveTo ((nodeAt s.node s.cur).child b))))) := by
  unfold walkBit at h
  split at h
  · cases h
  · rename_i r hr
    obtain ⟨hr0, rfl⟩ := nodeAt?_eq_some.1 hr
    refine ⟨hr0, ?_⟩
    split at h
    · rename_i hl
      split at h
      · cases h
      · rename_i hb; cases h; exact .inl ⟨hl, by simpa using hb, rfl⟩
    · rename_i hl
      split at h
      · cases h
      · rename_i c hc
        obtain ⟨hc0, rfl⟩ := nodeAt?_eq_some.1 hc
        split at h
        · cases h
        · rename_i e he
          obtain ⟨he0, rfl⟩ := nodeAt?_eq_some.1 he
          refine .inr ⟨by simpa using hl, hc0, he0, ?_⟩
          split at h
          · rename_i hx; cases h; exact .inl ⟨hx, rfl⟩
          · rename_i hx; cases h; exact .inr ⟨by simpa using hx, rfl⟩

/-- All that WalkBit can raise: CorruptStreamError at the node it stands on, with nothing else changed
(46_decode R152, 60_exceptions R186). -/
theorem walkBit_raised {s t : State} {b : Bool} (h : walkBit s b = .raised t) :
    s.root ≠ Config.null ∧
    (((nodeAt s.node s.root).leaf = true ∧ b = true ∧ t = s.raise .corruptStream (infoOfIdx s.root)) ∨
     ((nodeAt s.node s.root).leaf = false ∧ s.cur ≠ Config.null ∧ (nodeAt s.node s.cur).child b = Config.null ∧
      t = s.raise .corruptStream (infoOfIdx s.cur))) := by
  unfold walkBit at h
  split at h
  · cases h
  · rename_i r hr
    obtain ⟨hr0, rfl⟩ := nodeAt?_eq_some.1 hr
    refine ⟨hr0, ?_⟩
    split at h
    · rename_i hl
      split at h
      · rename_i hb; cases h; exact .inl ⟨hl, hb, rfl⟩
      · cases h
    · rename_i hl
      split at h
      · cases h
      · rename_i c hc
        obtain ⟨hc0, rfl⟩ := nodeAt?_eq_some.1 hc
        split at h
        · rename_i hn
          cases h
          refine .inr ⟨by simpa using hl, hc0, ?_, rfl⟩
          by_contra hne
          rw [nodeAt?_of_ne hne] at hn
          cases hn
        · split at h <;> cases h

/-- A WalkBit that goes on writes CUR, REM and `out` only (46_decode R152). -/
theorem walkBit_frame {s t : State} {b : Bool} (h : walkBit s b = .ok () t) :
    ∃ syms, t = { s with cur := t.cur, rem := t.rem, out := s.out ++ syms } := by
  obtain ⟨-, ⟨-, -, rfl⟩ | ⟨-, -, -, ⟨-, rfl⟩ | ⟨-, rfl⟩⟩⟩ := walkBit_ok h
  · exact ⟨[_], rfl⟩
  · exact ⟨[_], rfl⟩
  · exact ⟨[], by simp [State.moveTo]⟩

/-- A WalkBit that raises writes the latch only (60_exceptions R186). -/
theorem walkBit_raised_frame {s t : State} {b : Bool} (h : walkBit s b = .raised t) :
    t = { s with err := t.err, einfo := t.einfo } := by
  obtain ⟨-, ⟨-, -, rfl⟩ | ⟨-, -, -, rfl⟩⟩ := walkBit_raised h <;>
  · unfold State.raise; split <;> rfl

/-- DEC's loop writes CUR, REM, `out` and, where it raises, the latch only (46_decode R151). -/
theorem walkBits_frame {bs : List Bool} {s t : State} (h : walkBits bs s = .ok () t ∨ walkBits bs s = .raised t) :
    ∃ syms, t = { s with cur := t.cur, rem := t.rem, err := t.err, einfo := t.einfo, out := s.out ++ syms } := by
  induction bs generalizing s with
  | nil =>
    rcases h with h | h
    · cases h; exact ⟨[], by simp⟩
    · cases h
  | cons b bs ih =>
    simp only [walkBits] at h
    split at h
    · rcases h with h | h
      · cases h; exact ⟨[], by simp⟩
      · cases h
    · rw [Res.bind_eq_ok, Res.bind_eq_raised] at h
      have hr : walkBit s b = .raised t ∨
          ∃ u, walkBit s b = .ok () u ∧ (walkBits bs u = .ok () t ∨ walkBits bs u = .raised t) := by
        rcases h with ⟨_, u, h1, h2⟩ | h | ⟨_, u, h1, h2⟩
        · exact .inr ⟨u, h1, .inl h2⟩
        · exact .inl h
        · exact .inr ⟨u, h1, .inr h2⟩
      rcases hr with h | ⟨u, h1, h2⟩
      · have ht := walkBit_raised_frame h
        refine ⟨[], ?_⟩
        cases s; cases t; simp_all
      · obtain ⟨syms, hu⟩ := walkBit_frame h1
        obtain ⟨syms', ht⟩ := ih h2
        refine ⟨syms ++ syms', ?_⟩
        clear ih h h1 h2
        cases s; cases t; cases u
        simp_all

end Sys2Proof.Machine
end

