-- ==== Sys2Proof/Laws/Memory.lean ====
section
/-! SUPPORT. Every operation on a table memory keeps its canonical form (log 10), and the reset state has it. -/

namespace Sys2Proof.Machine

/-- The reset state's memory is in canonical form. -/
theorem State.reset_memoryWf : State.reset.memoryWf = true := rfl

/-- The four tables' forms, apart. -/
theorem State.memoryWf_iff {s : State} : s.memoryWf = true ↔
    Table.wf 0#32 Config.nSym s.freq = true ∧ Table.wf NodeEntry.empty Config.maxNodes s.node = true ∧
      Table.wf Code.absent Config.nSym s.code = true ∧ Table.wf 0#9 Config.heapCap s.heap = true := by
  simp [State.memoryWf, and_assoc]

/-- A write of FREQ keeps the form. -/
theorem State.setFreq_wf {s : State} (sym : Sym) (v : Freq) (h : Table.wf 0#32 Config.nSym s.freq = true) :
    Table.wf 0#32 Config.nSym (s.setFreq sym v).freq = true :=
  Table.wf_set v sym.isLt h

/-- A write of NODE, at an index other than NULL, keeps the form. -/
theorem setNodeAt_wf {nodes : Table NodeEntry} {i : NodeIdx} (e : NodeEntry) (hi : i ≠ Config.null)
    (h : Table.wf NodeEntry.empty Config.maxNodes nodes = true) :
    Table.wf NodeEntry.empty Config.maxNodes (setNodeAt nodes i e) = true := by
  refine Table.wf_set e ?_ h
  have := i.isLt
  have : i.toNat ≠ 511 := fun h' => hi (BitVec.eq_of_toNat_eq h')
  simp only [Config.maxNodes]; omega

/-- A write of CODE keeps the form. -/
theorem setCodeAt_wf {codes : Table Code} (sym : Sym) (c : Code)
    (h : Table.wf Code.absent Config.nSym codes = true) :
    Table.wf Code.absent Config.nSym (setCodeAt codes sym c) = true :=
  Table.wf_set c sym.isLt h

/-- A write of HEAP keeps the form. -/
theorem setSlotAt_wf {heap : Table NodeIdx} {k : Nat} (i : NodeIdx) (hk : k < Config.heapCap)
    (h : Table.wf 0#9 Config.heapCap heap = true) : Table.wf 0#9 Config.heapCap (setSlotAt heap k i) = true :=
  Table.wf_set i hk h

theorem swapSlots_wf {heap : Table NodeIdx} {i j : Nat} (hi : i < Config.heapCap) (hj : j < Config.heapCap)
    (h : Table.wf 0#9 Config.heapCap heap = true) : Table.wf 0#9 Config.heapCap (swapSlots heap i j) = true :=
  setSlotAt_wf _ hj (setSlotAt_wf _ hi h)

theorem siftUp_wf {lt : NodeIdx → NodeIdx → Bool} {rounds k : Nat} {heap : Table NodeIdx} (hk : k < Config.heapCap)
    (h : Table.wf 0#9 Config.heapCap heap = true) : Table.wf 0#9 Config.heapCap (siftUp lt rounds k heap) = true := by
  induction rounds generalizing k heap with
  | zero => exact h
  | succ rounds ih =>
    simp only [siftUp]
    split
    · have hp : (k - 1) >>> 1 < Config.heapCap := by
        rw [Nat.shiftRight_eq_div_pow]; simp only [Config.heapCap] at hk ⊢; omega
      exact ih hp (swapSlots_wf hk hp h)
    · exact h

theorem siftDown_wf {lt : NodeIdx → NodeIdx → Bool} {n rounds k : Nat} {heap : Table NodeIdx}
    (hn : n ≤ Config.heapCap) (hk : k < n) (h : Table.wf 0#9 Config.heapCap heap = true) :
    Table.wf 0#9 Config.heapCap (siftDown lt n rounds k heap) = true := by
  induction rounds generalizing k heap with
  | zero => exact h
  | succ rounds ih =>
    simp only [siftDown]
    split
    · exact h
    · have hlt : leastSlot lt n k heap < n := by rcases leastSlot_cases lt n k heap with h | h | h <;> omega
      exact ih hlt (swapSlots_wf (by omega) (by omega) h)

/-- HINS keeps the form of HEAP where the heap is not full (42_heap R102). -/
theorem hins_wf {s : State} (x : NodeIdx) (hs : s.hsize.toNat < Config.heapCap)
    (h : Table.wf 0#9 Config.heapCap s.heap = true) : Table.wf 0#9 Config.heapCap (hins s x).heap = true :=
  siftUp_wf hs (setSlotAt_wf x hs h)

/-- HEXT keeps the form of HEAP (42_heap R103). -/
theorem hext_wf {s t : State} {m : NodeIdx} (hs : s.hsize.toNat ≤ Config.heapCap)
    (h : Table.wf 0#9 Config.heapCap s.heap = true) (he : hext s = .ok m t) :
    Table.wf 0#9 Config.heapCap t.heap = true := by
  unfold hext at he
  split at he
  · cases he
  · cases he
    simp only
    split
    · rename_i hn
      exact siftDown_wf (by omega) hn (setSlotAt_wf _ (by simp [Config.heapCap]) h)
    · exact h

/-- Assign keeps the form of CODE (44_codes R130). -/
theorem assign_wf {nodes : Table NodeEntry} {depth : Nat} {i : NodeIdx} {path : Code} {codes codes' : Table Code}
    (h : Table.wf Code.absent Config.nSym codes = true) (ha : assign nodes depth i path codes = .ok codes') :
    Table.wf Code.absent Config.nSym codes' = true := by
  induction depth generalizing i path codes codes' with
  | zero => cases ha
  | succ depth ih =>
    simp only [assign] at ha
    split at ha
    · cases ha
    · split at ha
      · cases ha; exact setCodeAt_wf _ _ h
      · split at ha
        · cases ha
        · rename_i _ hl
          exact ih (ih h hl) ha

/-- GEN's table is in canonical form (44_codes R130). -/
theorem codesOf_wf {nodes : Table NodeEntry} {root : NodeIdx} {codes : Table Code}
    (h : codesOf nodes root = .ok codes) : Table.wf Code.absent Config.nSym codes = true := by
  unfold codesOf at h
  split at h
  · cases h
  · split at h
    · cases h; exact setCodeAt_wf _ _ (Table.wf_nil _ _)
    · exact assign_wf (Table.wf_nil _ _) h

end Sys2Proof.Machine
end

