-- ==== Sys2Proof/Laws/Packer.lean ====
section
/-! SUPPORT. All that AppendBit can do (45_encode R143), and the pending bits as a list. -/

namespace Sys2Proof.Machine

/-- AppendBit on a full accumulator: one byte leaves (45_encode R143). -/
theorem appendBit_full {s : State} (h : s.nbits = 7#3) (b : Bool) :
    appendBit s b = (s.emit (s.acc ++ BitVec.ofBool b)).dropPending := if_pos h

/-- AppendBit with room: the bit joins at the low end (45_encode R143). -/
theorem appendBit_room {s : State} (h : s.nbits ≠ 7#3) (b : Bool) :
    appendBit s b = { s with acc := s.acc <<< 1 ||| (BitVec.ofBool b).setWidth 7, nbits := s.nbits + 1#3 } := if_neg h

/-- AppendBit writes ACC, NBITS and `out` only (45_encode R143). -/
theorem appendBits_frame (bs : List Bool) (s : State) :
    ∃ acc nbits bytes, appendBits bs s = { s with acc := acc, nbits := nbits, out := s.out ++ bytes } := by
  induction bs generalizing s with
  | nil => exact ⟨s.acc, s.nbits, [], by simp [appendBits]⟩
  | cons b bs ih =>
    obtain ⟨acc, nbits, bytes, h⟩ := ih (appendBit s b)
    rw [appendBits, h]
    by_cases h7 : s.nbits = 7#3
    · rw [appendBit_full h7]; exact ⟨acc, nbits, (s.acc ++ BitVec.ofBool b) :: bytes, by simp [State.emit, State.dropPending]⟩
    · rw [appendBit_room h7]; exact ⟨acc, nbits, bytes, rfl⟩

@[simp] theorem bitsDown_length {w : Nat} (v : BitVec w) (n : Nat) : (bitsDown v n).length = n := by
  induction n with
  | zero => rfl
  | succ n ih => simp [bitsDown, ih]

/-- A code has as many bits as its length says (00_scope R6). -/
@[simp] theorem Code.bits_length (c : Code) : c.bits.length = c.len.toNat := bitsDown_length _ _

@[simp] theorem byteBits_length (b : Byte) : (byteBits b).length = 8 := rfl

end Sys2Proof.Machine
end

