-- ==== Sys2Proof/Laws/PerInstr.lean ====
section
/-! SUPPORT. Statements per instruction, as syntax: where an instruction's opcode and operands stand in its word,
and that the format's reserved bits are zero. -/

namespace Sys2Proof.Laws.EncodedFields

/-- The opcode byte and the operand field of the word, and its "zero" bits (30_encoding R60, R61). -/
def Statement (i : Instr) : Prop :=
  opcodeByte (encode i) = i.opcode.code ∧ operandField (encode i) = i.operands ∧
    i.operands >>> i.opcode.format.usedBits = 0#56

/-- Appending `m` bits below a number of at most `k` significant bits. -/
theorem append_lt {n m k : Nat} {x : BitVec n} (hx : x.toNat < 2 ^ k) (y : BitVec m) :
    (x ++ y).toNat < 2 ^ (k + m) := by
  have hy := y.isLt
  rw [BitVec.toNat_append, ← Nat.shiftLeft_add_eq_or_of_lt hy, Nat.shiftLeft_eq, Nat.pow_add]
  calc x.toNat * 2 ^ m + y.toNat < x.toNat * 2 ^ m + 2 ^ m := by omega
    _ = (x.toNat + 1) * 2 ^ m := by rw [Nat.succ_mul]
    _ ≤ 2 ^ k * 2 ^ m := Nat.mul_le_mul_right _ hx

/-- Zero has no significant bit. -/
theorem zero_lt (n : Nat) : (0#n).toNat < 2 ^ 0 := by simp

/-- An operand field with no bit at or above the format's used ones has its "zero" bits zero. -/
theorem of_lt {i : Instr} (h : i.operands.toNat < 2 ^ i.opcode.format.usedBits) : Statement i := by
  refine ⟨opcodeByte_encode i, operandField_encode i, BitVec.eq_of_toNat_eq ?_⟩
  rw [BitVec.toNat_ushiftRight, Nat.shiftRight_eq_div_pow, Nat.div_eq_of_lt h]
  rfl

theorem nop : Statement .nop := of_lt (by decide)
theorem clr : Statement .clr := of_lt (by decide)
theorem srd : Statement .srd := of_lt (by decide)
theorem drd : Statement .drd := of_lt (by decide)
theorem cnt (sym : Sym) : Statement (.cnt sym) := of_lt (append_lt (zero_lt _) sym)
theorem fwr (sym : Sym) (val : Freq) : Statement (.fwr sym val) := of_lt
  (append_lt (append_lt (zero_lt _) val) sym)
theorem frd (sym : Sym) : Statement (.frd sym) := of_lt (append_lt (zero_lt _) sym)
theorem bld : Statement .bld := of_lt (by decide)
theorem twn (idx : NodeIdx) (leaf : Bool) (sym : Sym) (left right : NodeIdx) :
    Statement (.twn idx leaf sym left right) := of_lt
  (append_lt (append_lt (append_lt (append_lt (append_lt (zero_lt _) right) left) sym) _) idx)
theorem twf (idx : NodeIdx) (freq : NodeFreq) : Statement (.twf idx freq) := of_lt
  (append_lt (append_lt (zero_lt _) freq) idx)
theorem tcm (idx : NodeIdx) : Statement (.tcm idx) := of_lt (append_lt (zero_lt _) idx)
theorem trn (idx : NodeIdx) : Statement (.trn idx) := of_lt (append_lt (zero_lt _) idx)
theorem trf (idx : NodeIdx) : Statement (.trf idx) := of_lt (append_lt (zero_lt _) idx)
theorem gen : Statement .gen := of_lt (by decide)
theorem crl (sym : Sym) : Statement (.crl sym) := of_lt (append_lt (zero_lt _) sym)
theorem crw (sym : Sym) (k : BitVec 2) : Statement (.crw sym k) := of_lt
  (append_lt (append_lt (zero_lt _) k) sym)
theorem enc (sym : Sym) : Statement (.enc sym) := of_lt (append_lt (zero_lt _) sym)
theorem fls : Statement .fls := of_lt (by decide)
theorem dln (count : Count) : Statement (.dln count) := of_lt (append_lt (zero_lt _) count)
theorem dec (byte : Byte) : Statement (.dec byte) := of_lt (append_lt (zero_lt _) byte)
theorem dnd : Statement .dnd := of_lt (by decide)

end Sys2Proof.Laws.EncodedFields
end

