-- ==== Sys2Proof/Tests/Slice0.lean ====
section
/-! SUPPORT. Tests, their expected results taken from the spec's vectors (V-... of 95 to 97) and examples, and for
every statement with hypotheses a state and operands that meet them (`wit_...`). -/

namespace Sys2Proof.Tests

open Machine

/-! ## Helpers -/

/-- The state a result goes on with. -/
def after : Result → Option State
  | .next t => some t
  | .fault _ => none
  | .refused _ => none

/-- A view of that state. -/
def view {α : Type} (r : Result) (f : State → α) : Option α := (after r).map f

/-- One command word executed. -/
def send (w : Word) (s : State) : Result := step (s.offerNext w)

/-- The counts of "aaab" (V-P1). -/
def counted : State := { State.reset with freq := [(97, 3#32), (98, 1#32)] }

/-- The tree of "aaab" (43_tree R110's example). -/
def pair : State :=
  { counted with
    node := [(0, ⟨true, 97#8, 3#40, 511#9, 511#9⟩), (1, ⟨true, 98#8, 1#40, 511#9, 511#9⟩),
             (2, ⟨false, 0#8, 4#40, 1#9, 0#9⟩)]
    root := 2#9
    tv := true }

/-- That tree with its codes (44_codes R130's example). -/
def coded : State := { pair with code := [(97, ⟨1#8, 1#255⟩), (98, ⟨1#8, 0#255⟩)], cv := true }

/-- An open decode of four symbols (46_decode R150's example). -/
def decoding : State := { pair with cur := 2#9, rem := 4#40, mode := .dec }

/-- A tree of one leaf at node 5, a decode of three symbols open. -/
def lone : State :=
  { State.reset with
    node := [(5, ⟨true, 122#8, 5#40, 511#9, 511#9⟩)], root := 5#9, tv := true, cur := 5#9, rem := 3#40, mode := .dec }

/-- An error latched while a tree and codes are held. -/
def latched : State := { coded with err := .corruptStream, einfo := 2#16 }

/-- A count at its maximum. -/
def full : State := { State.reset with freq := [(97, 0xFFFFFFFF#32)] }

/-- Six nodes with the frequencies of V-H1. -/
def six : State :=
  { State.reset with
    node := [(0, ⟨true, 0#8, 5#40, 511#9, 511#9⟩), (1, ⟨true, 1#8, 3#40, 511#9, 511#9⟩),
             (2, ⟨true, 2#8, 8#40, 511#9, 511#9⟩), (3, ⟨true, 3#8, 3#40, 511#9, 511#9⟩),
             (4, ⟨true, 4#8, 1#40, 511#9, 511#9⟩), (5, ⟨true, 5#8, 5#40, 511#9, 511#9⟩)] }

/-! ## WellFormed (30_encoding R67): an ill-formed term per check, refused -/

theorem test_wf_twn : (Instr.twn 511#9 false 0#8 0#9 0#9).wf = false := by decide
theorem test_wf_twf : (Instr.twf 511#9 0#40).wf = false := by decide
theorem test_wf_tcm : (Instr.tcm 511#9).wf = false := by decide
theorem test_wf_trn : (Instr.trn 511#9).wf = false := by decide
theorem test_wf_trf : (Instr.trf 511#9).wf = false := by decide
theorem test_wf_children_may_be_null : (Instr.twn 510#9 true 0xFF#8 511#9 511#9).wf = true := by decide

/-! ## Decoding, the words of V-E1 -/

theorem test_decode_nop : decode 0x0000000000000000#64 = .ok .nop := by rfl
theorem test_decode_clr : decode 0x0100000000000000#64 = .ok .clr := by rfl
theorem test_decode_srd : decode 0x0200000000000000#64 = .ok .srd := by rfl
theorem test_decode_drd : decode 0x0300000000000000#64 = .ok .drd := by rfl
theorem test_decode_cnt : decode 0x1000000000000061#64 = .ok (.cnt 97#8) := by rfl
theorem test_decode_fwr : decode 0x1100000000000361#64 = .ok (.fwr 97#8 3#32) := by rfl
theorem test_decode_fwr_max : decode 0x110000FFFFFFFFFF#64 = .ok (.fwr 0xFF#8 0xFFFFFFFF#32) := by rfl
theorem test_decode_frd : decode 0x1200000000000061#64 = .ok (.frd 97#8) := by rfl
theorem test_decode_bld : decode 0x2000000000000000#64 = .ok .bld := by rfl
theorem test_decode_twn : decode 0x2100000FEFF001FE#64 = .ok (.twn 510#9 false 0#8 508#9 509#9) := by rfl
theorem test_decode_twn_leaf : decode 0x2100000FFFFD8600#64 = .ok (.twn 0#9 true 97#8 511#9 511#9) := by rfl
theorem test_decode_twf : decode 0x2201FFFFFFFFFFFE#64 = .ok (.twf 510#9 0xFFFFFFFFFF#40) := by rfl
theorem test_decode_tcm : decode 0x2300000000000002#64 = .ok (.tcm 2#9) := by rfl
theorem test_decode_trn : decode 0x24000000000001FE#64 = .ok (.trn 510#9) := by rfl
theorem test_decode_trf : decode 0x2500000000000000#64 = .ok (.trf 0#9) := by rfl
theorem test_decode_gen : decode 0x3000000000000000#64 = .ok .gen := by rfl
theorem test_decode_crl : decode 0x3100000000000061#64 = .ok (.crl 97#8) := by rfl
theorem test_decode_crw : decode 0x32000000000003FF#64 = .ok (.crw 0xFF#8 3#2) := by rfl
theorem test_decode_enc : decode 0x4000000000000061#64 = .ok (.enc 97#8) := by rfl
theorem test_decode_fls : decode 0x4100000000000000#64 = .ok .fls := by rfl
theorem test_decode_dln : decode 0x500000FFFFFFFFFF#64 = .ok (.dln 0xFFFFFFFFFF#40) := by rfl
theorem test_decode_dec : decode 0x51000000000000E0#64 = .ok (.dec 0xE0#8) := by rfl
theorem test_decode_dnd : decode 0x5200000000000000#64 = .ok .dnd := by rfl

/-- V-E2. -/
theorem test_decode_refused :
    decode 0x0400000000000000#64 = .error .reservedOpcode ∧ decode 0xFFFFFFFFFFFFFFFF#64 = .error .reservedOpcode ∧
    decode 0x0280000000000000#64 = .error .reservedBits ∧ decode 0x2202000000000000#64 = .error .reservedBits ∧
    decode 0x1100010000000061#64 = .error .reservedBits ∧ decode 0x21000000000001FF#64 = .error .nullIndex ∧
    decode 0x24000000000001FF#64 = .error .nullIndex := ⟨rfl, rfl, rfl, rfl, rfl, rfl, rfl⟩

/-- V-E2: `0x2100001000000000` from reset, STATUS after. -/
theorem test_illegal_status :
    view (send 0x2100001000000000#64 State.reset) State.status = some 0x000000211FF00006#64 := by decide +kernel

/-- The table's row bits, with operand bits above them 0. -/
theorem test_decodeTableWord : decodeTableWord 64 0x2100000000040002 = some (.twn 2#9 false 0#8 1#9 0#9) := by rfl

/-! ## Assembler examples of 30_encoding R71 -/

theorem test_asm_enc : assembleLine "ENC 'a'".toList = .ok (some (.enc 97#8)) := by rfl
theorem test_asm_twn : assembleLine "TWN 2, 0, 0, 1, 0".toList = .ok (some (.twn 2#9 false 0#8 1#9 0#9)) := by rfl
theorem test_asm_fwr : assembleLine "FWR 'a', 3 ; the count".toList = .ok (some (.fwr 97#8 3#32)) := by rfl
theorem test_asm_null_root : assembleLine "TCM NULL".toList = .error .range := by rfl

/-! ## One step each -/

/-- 40_control R80: in any state nothing changes. -/
theorem test_nop : after (send 0#64 latched) = some latched := by decide

/-- V-C2: CLR after the run, STATUS after. -/
theorem test_clr : view (exec .clr latched) State.status = some 0x000000001FF00000#64 := by decide

/-- V-C1: SRD in the reset state. -/
theorem test_srd : view (exec .srd State.reset) State.rsp = some [0x000000001FF00000#64] := by decide

/-- 40_control R83's example. -/
theorem test_drd : view (exec .drd decoding) State.rsp = some [0x0000020000000004#64] := by decide

/-- 41_frequency R90's example. -/
theorem test_cnt : view (execAll [.cnt 97#8, .cnt 97#8, .cnt 98#8] State.reset) State.freq =
    some [(97, 2#32), (98, 1#32)] := by decide

/-- 41_frequency R90: at the maximum the counter keeps its value. -/
theorem test_cnt_overflow : after (exec (.cnt 97#8) full) =
    some { full with err := .countOverflow, einfo := 97#16 } := by decide

/-- 41_frequency R91: val = 0 removes the symbol. -/
theorem test_fwr_zero : view (exec (.fwr 97#8 0#32) counted) State.freq = some [(98, 1#32)] := by decide

/-- 41_frequency R92's example. -/
theorem test_frd : view (exec (.frd 97#8) counted) State.rsp = some [0x0000000000000361#64] := by decide

/-- 43_tree R110's example: the tree of three 'a' and one 'b'. -/
theorem test_bld : view (exec .bld counted) (fun t => (t.node, t.root, t.tv, t.hsize)) =
    some (pair.node, 2#9, true, 0#9) := by decide +kernel

/-- 43_tree R110: EmptyInputError, nothing else. -/
theorem test_bld_empty : after (exec .bld State.reset) = some { State.reset with err := .emptyInput } := by
  decide +kernel

/-- 43_tree R116, R117: TWN leaves freq, TWF leaves the rest. -/
theorem test_twn_twf : view (execAll [.twf 2#9 4#40, .twn 2#9 false 0#8 1#9 0#9] State.reset) State.node =
    some [(2, ⟨false, 0#8, 4#40, 1#9, 0#9⟩)] := by decide

/-- 43_tree R119's example. -/
theorem test_tcm : view (execAll (leafCmds 0#9 97#8 3#40 ++ leafCmds 1#9 98#8 1#40 ++ inodeCmds 2#9 1#9 0#9 4#40 ++
    [.tcm 2#9]) State.reset) (fun t => (t.node, t.root, t.tv)) = some (pair.node, 2#9, true) := by decide +kernel

/-- 43_tree R119: TCM with no TWN before it fails. -/
theorem test_tcm_unwritten : view (exec (.tcm 0#9) State.reset) State.status = some 0x000000001FF00004#64 := by
  decide +kernel

/-- 43_tree R120's and R121's examples. -/
theorem test_trn_trf : view (execAll [.trn 2#9, .trn 0#9, .trf 2#9] pair) State.rsp =
    some [0x0000000000040002#64, 0x0000000FFFFD8600#64, 0x0000000000000802#64] := by decide

/-- 44_codes R130's example. -/
theorem test_gen : view (exec .gen pair) (fun t => (t.code, t.cv)) = some (coded.code, true) := by decide +kernel

/-- 44_codes R133: a leaf's code once CV = 1, empty for an internal node and while CV = 0. -/
theorem test_nodeCode : coded.nodeCode 0#9 = [true] ∧ coded.nodeCode 2#9 = [] ∧ pair.nodeCode 0#9 = [] := by decide

/-- 44_codes R135's examples, R136. -/
theorem test_crl_crw : view (execAll [.crl 97#8, .crl 99#8, .crw 97#8 0#2, .crw 97#8 3#2] coded) State.rsp =
    some [0x0000000000000161#64, 0x0000000000000063#64, 1#64, 0#64] := by decide +kernel

/-- V-P1: four ENC, then FLS: 0xE0. -/
theorem test_enc_fls : view (execAll (encs [97#8, 97#8, 97#8, 98#8] ++ [.fls]) coded)
    (fun t => (t.out, t.mode, t.nbits)) = some ([0xE0#8], .idle, 0#3) := by decide +kernel

/-- 45_encode R141: an unknown symbol changes nothing else. -/
theorem test_enc_unknown : after (exec (.enc 99#8) coded) = some { coded with err := .unknownSymbol, einfo := 99#16 } := by
  decide

/-- 46_decode R150's example. -/
theorem test_dln : after (exec (.dln 4#40) pair) = some decoding := by decide

/-- 46_decode R151's example. -/
theorem test_dec : after (exec (.dec 0xE0#8) decoding) =
    some { decoding with rem := 0#40, out := [97#8, 97#8, 97#8, 98#8] } := by decide

/-- 46_decode R152: a 1 bit on a single-leaf tree after one 0 bit. -/
theorem test_dec_single_leaf : after (exec (.dec 0x40#8) lone) =
    some { lone with rem := 2#40, out := [122#8], err := .corruptStream, einfo := 5#16 } := by decide

/-- 46_decode R153: symbols still owed. -/
theorem test_dnd_owed : view (exec .dnd decoding) (fun t => (t.err, t.einfo, t.mode)) =
    some (.corruptStream, 0x8000#16, .dec) := by decide

/-- V-H1: the array after six insertions. -/
theorem test_hins : ((List.range 6).foldl (fun s i => hins s (BitVec.ofNat 9 i)) six).heapMembers =
    [4#9, 1#9, 5#9, 0#9, 3#9, 2#9] := by decide +kernel

/-- V-H1: the first extraction. -/
theorem test_hext : (match hext ((List.range 6).foldl (fun s i => hins s (BitVec.ofNat 9 i)) six) with
    | .ok m t => some (m, t.heapMembers)
    | .raised _ => none
    | .fault _ => none) = some (4#9, [1#9, 3#9, 5#9, 0#9, 2#9]) := by decide +kernel

/-- 70_reset R210: `rst` empties the streams. -/
theorem test_rst : after (step { latched with inputs := [.reset], out := [1#8] }) = some State.reset := by decide

/-! ## Witnesses: the facts about the helper states they rest on -/

/-- The paths of the tree of "aaab". -/
theorem leafAt_pair {bits : List Bool} {sym : Sym} :
    LeafAt pair.node 2#9 bits sym ↔ (bits = [true] ∧ sym = 97#8) ∨ (bits = [false] ∧ sym = 98#8) := by
  constructor
  · rintro ⟨x, hx, hl, hs⟩
    match bits with
    | [] => cases hx; exact absurd hl (by decide)
    | [true] => cases hx; exact .inl ⟨rfl, hs.symm⟩
    | [false] => cases hx; exact .inr ⟨rfl, hs.symm⟩
    | true :: _ :: _ => cases hx
    | false :: _ :: _ => cases hx
  · rintro (⟨rfl, rfl⟩ | ⟨rfl, rfl⟩)
    · exact ⟨0#9, rfl, rfl, rfl⟩
    · exact ⟨1#9, rfl, rfl, rfl⟩

theorem coded_isCodeTable : IsCodeTable coded.node coded.root coded.code := by
  intro sym
  constructor
  · intro bits h
    rcases leafAt_pair.1 h with ⟨rfl, rfl⟩ | ⟨rfl, rfl⟩ <;> decide
  · intro h
    have h1 : sym ≠ 97#8 := fun e => h [true] (leafAt_pair.2 (.inl ⟨rfl, e⟩))
    have h2 : sym ≠ 98#8 := fun e => h [false] (leafAt_pair.2 (.inr ⟨rfl, e⟩))
    have h1' : sym.toNat ≠ 97 := fun e => h1 (BitVec.eq_of_toNat_eq e)
    have h2' : sym.toNat ≠ 98 := fun e => h2 (BitVec.eq_of_toNat_eq e)
    simp [codeAt, coded, Table.get, h1', h2']

theorem coded_codeFits (sym : Sym) : (codeAt coded.code sym).val.toNat < 2 ^ (codeAt coded.code sym).len.toNat := by
  simp only [codeAt, coded, Table.get]
  split
  · decide
  · split <;> decide

theorem proper_pair : proper pair.node 2#9 = true := by decide +kernel

theorem proper_lone : proper lone.node 5#9 = true := by decide +kernel

theorem coded_inv : coded.Inv where
  heapIdle := rfl
  noTree h := by cases h
  tree _ := proper_pair
  codes _ := ⟨rfl, coded_isCodeTable⟩
  noCodes h := by cases h
  encMode h := by cases h
  decMode h := by cases h
  packerIdle _ := ⟨rfl, rfl⟩
  packerFits := by decide
  walkerIdle _ := ⟨rfl, rfl⟩
  walkerOpen h := by cases h
  latch _ := rfl
  codeFits := coded_codeFits
  memory := by decide

/-- An open decode, before and after its count is reached. -/
theorem decoding_inv (rem : Count) : ({ decoding with rem := rem } : State).Inv where
  heapIdle := rfl
  noTree h := by cases h
  tree _ := proper_pair
  codes h := by cases h
  noCodes _ _ := rfl
  encMode h := by cases h
  decMode _ := rfl
  packerIdle _ := ⟨rfl, rfl⟩
  packerFits := by show (0#7).toNat < 2 ^ (0#3).toNat; decide
  walkerIdle h := by exact absurd rfl h
  walkerOpen _ := .inl rfl
  latch _ := rfl
  codeFits _ := by show (0#255).toNat < 2 ^ (0#8).toNat; decide
  memory := by show pair.memoryWf = true; decide

theorem coded_regInv : coded.RegInv where
  heapIdle := rfl
  noTree h := by cases h
  noCodes h := by cases h
  encMode h := by cases h
  decMode h := by cases h
  packerIdle _ := ⟨rfl, rfl⟩
  packerFits := by decide
  walkerIdle _ := ⟨rfl, rfl⟩
  walkerAtRoot h := by cases h
  latch _ := rfl

/-- A decode whose count is reached. -/
theorem done_regInv : ({ decoding with rem := 0#40 } : State).RegInv where
  heapIdle := rfl
  noTree h := by cases h
  noCodes _ _ := rfl
  encMode h := by cases h
  decMode _ := rfl
  packerIdle _ := ⟨rfl, rfl⟩
  packerFits := by show (0#7).toNat < 2 ^ (0#3).toNat; decide
  walkerIdle h := by exact absurd rfl h
  walkerAtRoot _ _ := rfl
  latch _ := rfl

theorem counted_buildable : counted.Buildable := ⟨rfl, rfl, rfl, by decide +kernel⟩

/-- One symbol, and all 256 of them. -/
theorem one_buildable : full.Buildable := ⟨rfl, rfl, rfl, by decide +kernel⟩

def all256 : State := { State.reset with freq := (List.range 256).map fun i => (i, 1#32) }

theorem all256_buildable : all256.Buildable := ⟨rfl, rfl, rfl, by decide +kernel⟩

theorem isTree_pair : IsTree pair.node 2#9 [2#9, 1#9, 0#9] [98#8, 97#8] :=
  .node 2#9 [1#9] [0#9] [98#8] [97#8] (by decide) rfl
    (.leaf 1#9 (by decide) rfl rfl rfl) (.leaf 0#9 (by decide) rfl rfl rfl)

theorem full_freq (x : Sym) : full.freqAt x ≠ 0#32 ↔ x = 97#8 := by
  simp only [State.freqAt, full, Table.get]
  split
  · rename_i h; exact ⟨fun _ => BitVec.eq_of_toNat_eq h, fun _ => by decide⟩
  · rename_i h; exact ⟨fun h' => absurd rfl h', fun e => absurd (congrArg BitVec.toNat e) h⟩

/-! ## Witnesses for the statements' hypotheses -/

/-- Words of each opcode that are not well formed, at the lowest reserved bit or with idx = 511. -/
theorem wit_IllegalWords :
    ([(0x0000000000000001, 0x00, 0, false), (0x0100000000000001, 0x01, 0, false), (0x0280000000000000, 0x02, 0, false),
      (0x0300000000000001, 0x03, 0, false), (0x1000000000000100, 0x10, 8, false), (0x1100010000000061, 0x11, 40, false),
      (0x1200000000000100, 0x12, 8, false), (0x2000000000000001, 0x20, 0, false), (0x2100001000000000, 0x21, 36, true),
      (0x21000000000001FF, 0x21, 36, true), (0x2202000000000000, 0x22, 49, true), (0x22000000000001FF, 0x22, 49, true)] ++
     [(0x23000000000001FF, 0x23, 9, true), (0x2400000000000200, 0x24, 9, true), (0x25000000000001FF, 0x25, 9, true),
      (0x3000000000000001, 0x30, 0, false), (0x3100000000000100, 0x31, 8, false), (0x3200000000000400, 0x32, 10, false),
      (0x4000000000000100, 0x40, 8, false), (0x4180000000000000, 0x41, 0, false), (0x5000010000000000, 0x50, 40, false),
      (0x5100000000000100, 0x51, 8, false), (0x5200000000000001, 0x52, 0, false)] : List (Nat × Nat × Nat × Bool)).all
      (fun e => opcodeByte (BitVec.ofNat 64 e.1) == BitVec.ofNat 8 e.2.1 &&
        (e.1 % 2 ^ 56 / 2 ^ e.2.2.1 != 0 || (e.2.2.2 && e.1 % 2 ^ 9 == 511))) = true := by decide +kernel

theorem wit_DecodeOfEncodeIsTheInstruction : (Instr.twf 510#9 0xFFFFFFFFFF#40).wf = true := by decide

/-- Also of OperandsAreTheirFieldsBits and StepExecutesTheNextCommand's fourth clause. -/
theorem wit_EncodeOfDecodeIsTheWord : decode 0x2100000FFFFFFFFE#64 = .ok (.twn 510#9 true 0xFF#8 511#9 511#9) := by rfl

theorem wit_DecoderAcceptsExactlyTheWellFormedWords : WellFormedWord 0x2100000FFFFFFFFE#64 :=
  ⟨(0x21, 36, true), by decide, by decide, by decide, by decide⟩

theorem wit_IllegalWordsRaiseAndOnlyNopIsIdle :
    ¬ WellFormedWord 0x5300000000000000#64 ∧ ¬ WellFormedWord 0x2202000000000000#64 ∧
      ¬ WellFormedWord 0x22000000000001FF#64 := by
  refine ⟨?_, ?_, ?_⟩ <;> (simp only [WellFormedWord]; decide)

theorem wit_StepExecutesTheNextCommand :
    let s : State := { coded with inputs := [.command 0x4000000000000061#64, .reset] }
    let t : State := { coded with inputs := [.command 0x4000000000000100#64] }
    s.inputs = .command 0x4000000000000061#64 :: [.reset] ∧ decode 0x4000000000000061#64 = .ok (.enc 97#8) ∧
      t.inputs = .command 0x4000000000000100#64 :: [] ∧ decode 0x4000000000000100#64 = .error .reservedBits ∧
      coded.inputs = [] ∧ ({ coded with inputs := [.reset] } : State).inputs = .reset :: [] :=
  ⟨rfl, rfl, rfl, rfl, rfl, rfl⟩

theorem wit_ResetAndClearGiveTheResetValues :
    ({ latched with inputs := [.reset, .reset] } : State).inputs = .reset :: [.reset] := rfl

theorem wit_LatchedErrorHaltsUntilClearOrReset :
    latched.err ≠ .none ∧
    (0x4100000000000000#64 : Word).toNat / 2 ^ 56 ∉ [0x00, 0x01, 0x02, 0x03, 0x12, 0x24, 0x25, 0x31, 0x32] ∧
    (0x0100000000000001#64 : Word) ≠ clrWord ∧ WellFormedWord 0x24000000000001FE#64 ∧
    (0x24000000000001FE#64 : Word).toNat / 2 ^ 56 ∈ [0x02, 0x03, 0x12, 0x24, 0x25, 0x31, 0x32] :=
  ⟨by decide, by decide, by decide, ⟨(0x24, 9, true), by decide, by decide, by decide, by decide⟩, by decide⟩

theorem wit_SequenceErrorExactlyWhereNotLegal :
    (Instr.tcm 510#9).wf = true ∧ pair.err = .none ∧ ¬ Legal pair (.tcm 510#9) ∧
      Legal State.reset (.tcm 510#9) ∧ ∃ t, exec (.tcm 510#9) State.reset = .next t :=
  ⟨by decide, rfl, by simp [Legal, pair], rfl, _, rfl⟩

/-- Every error of 60_exceptions R181 but the unreachable one. -/
theorem wit_EachCommandRaisesOnlyItsErrors :
    view (exec (.trn 511#9) coded) State.err = some .illegalCommand ∧
    view (exec (.cnt 97#8) coded) State.err = some .sequence ∧
    view (exec (.cnt 97#8) full) State.err = some .countOverflow ∧
    view (exec .bld State.reset) State.err = some .emptyInput ∧
    view (exec (.tcm 510#9) State.reset) State.err = some .headerFormat ∧
    view (exec (.enc 99#8) coded) State.err = some .unknownSymbol ∧
    view (exec (.dec 0xFF#8) lone) State.err = some .corruptStream ∧
    view (exec .dnd decoding) State.err = some .corruptStream := by decide +kernel

/-- Every arrow of 60_exceptions R189's diagram. -/
theorem wit_ModeAndFlagsChangeOnlyAlongTheDiagram :
    view (exec .clr decoding) (fun t => (t.mode, t.tv)) = some (.idle, false) ∧
    view (exec (.enc 97#8) coded) State.mode = some .enc ∧
    view (exec .fls { coded with mode := .enc }) State.mode = some .idle ∧
    view (exec (.dln 0#40) coded) State.mode = some .dec ∧
    view (exec .dnd { decoding with rem := 0#40 }) State.mode = some .idle ∧
    view (exec .bld counted) State.tv = some true ∧
    view (exec (.tcm 2#9) { pair with tv := false }) State.tv = some true ∧
    view (exec .gen pair) State.cv = some true ∧ view (exec .clr coded) State.cv = some false := by decide +kernel

/-- Also of EachReadCommandAppendsExactlyOneWord, OnlyPackerAndWalkerAppendBytes and StaleHeapSlotsAreNeverSeen. -/
theorem wit_EachRegisterIsWrittenOnlyByItsCommands :
    exec .nop latched = .next latched ∧ latched.err ≠ .none ∧ (Instr.crw 0xFF#8 3#2).wf = true ∧
      (Instr.crw 0xFF#8 3#2).opcode ∈ [.srd, .drd, .frd, .trn, .trf, .crl, .crw] ∧ (Instr.trn 511#9).wf = false ∧
      (∃ t, exec (.trn 511#9) latched = .next t) ∧ exec .bld { counted with hsize := 1#9 } = .fault .heapInUse :=
  ⟨rfl, by decide, by decide, by decide, by decide, ⟨_, rfl⟩, by rfl⟩

/-- Also of FrequencyTableIsFrozenWithATree's first clause. -/
theorem wit_TreeAndCodesAreImmutableInUse :
    decoding.tv = true ∧ (0x3000000000000000#64 : Word) ≠ clrWord ∧
      (∃ t, step (decoding.offerNext 0x3000000000000000#64) = .next t) ∧ decoding.mode ≠ .idle :=
  ⟨rfl, by decide, ⟨_, rfl⟩, by decide⟩

theorem wit_DecoderReadReturnsRemAndCur : coded.RegInv ∧ coded.mode ≠ .dec := ⟨coded_regInv, by decide⟩

theorem wit_CountAddsOneOrOverflows :
    pair.err = .none ∧ pair.tv = true ∧ full.err = .none ∧ full.tv = false ∧ full.freqAt 97#8 = 0xFFFFFFFF#32 ∧
      ({ full with freq := [(97, 0xFFFFFFFE#32)] } : State).freqAt 97#8 ≠ 0xFFFFFFFF#32 := by decide

theorem wit_FrequencyWriteStoresTheValue :
    pair.err = .none ∧ pair.tv = true ∧ counted.err = .none ∧ counted.tv = false := by decide

/-- A count one below the maximum, counted once more. -/
theorem wit_CountingGivesTheFrequencyFunction :
    let s : State := { full with freq := [(97, 0xFFFFFFFE#32)] }
    s.err = .none ∧ s.tv = false ∧ (∀ x, (s.freqAt x).toNat + [97#8].count x ≤ 2 ^ 32 - 1) ∧
      ∀ x : Sym, [97#8].count x ≤ 2 ^ 32 - 1 := by
  refine ⟨rfl, rfl, fun x => ?_, fun x => ?_⟩
  · simp only [State.freqAt, Table.get]
    have := List.count_le_length (l := [97#8]) (a := x)
    split
    · simp only [List.length_singleton] at this; norm_num; omega
    · simp only [List.length_singleton] at this; norm_num; omega
  · have := List.count_le_length (l := [97#8]) (a := x)
    simp only [List.length_singleton] at this; omega

theorem wit_FrequencyTableIsFrozenWithATree :
    pair.tv = true ∧ pair.err = .none ∧ State.reset.tv = false ∧ State.reset.err = .none ∧
      ∀ x, State.reset.freqAt x = 0#32 := ⟨rfl, rfl, rfl, rfl, fun _ => rfl⟩

/-- A heap of 255 equal entries, and one of two. -/
theorem wit_HeapInsertKeepsTheHeapProperty :
    State.HeapOrdered { State.reset with hsize := 255#9 } ∧
    State.HeapOrdered { six with heap := [(0, 4#9), (1, 1#9)], hsize := 2#9 } := by
  refine ⟨fun k _ _ => rfl, fun k h1 h2 => ?_⟩
  have : k = 1 := by simp only [show (2#9).toNat = 2 from rfl] at h2; omega
  subst this; decide

/-- A full heap, a heap of one, and an empty one; also of HeapOrderIsStrictAndTotal's last clause. -/
theorem wit_HeapExtractRemovesTheLeast :
    State.HeapOrdered { State.reset with hsize := 256#9 } ∧ (256#9 : BitVec 9) ≠ 0#9 ∧ (256#9).toNat ≤ 256 ∧
    State.HeapOrdered { six with heap := [(0, 4#9)], hsize := 1#9 } ∧
    0#9 ∈ State.heapMembers { State.reset with hsize := 256#9 } ∧
    State.reset.hsize = 0#9 ∧ State.reset.err = .none := by
  refine ⟨fun k _ _ => rfl, by decide, by decide, fun k h1 h2 => ?_, by decide +kernel, rfl, rfl⟩
  simp only [show (1#9).toNat = 1 from rfl] at h2; omega

theorem wit_HeapOrderIsStrictAndTotal : less six.node 1#9 3#9 = true ∧ less six.node 3#9 0#9 = true := by decide

theorem wit_EmptyQueueErrorIsNeverRaised :
    counted.err ≠ .emptyQueue ∧ view (step (counted.offerNext 0x2000000000000000#64)) State.tv = some true := by
  decide +kernel

/-- One leaf, two leaves and 256 leaves; also of BuildMergesTheTwoLeastNodes and BuildLeavesAProperTreeOfFreqAlone. -/
theorem wit_BuildNumbersTheLeavesInSymbolOrder :
    full.Buildable ∧ counted.Buildable ∧ all256.Buildable ∧ full.liveSyms = [97#8] ∧ counted.liveSyms = [97#8, 98#8] ∧
      all256.liveSyms.length = 256 ∧ counted.liveSyms[(1#9).toNat]? = some 98#8 ∧
      counted.liveSyms.length ≤ (2#9).toNat ∧ (2#9).toNat ≤ 2 * counted.liveSyms.length - 2 :=
  ⟨one_buildable, counted_buildable, all256_buildable, by decide +kernel, by decide +kernel, by decide +kernel,
    by decide +kernel, by decide +kernel, by decide +kernel⟩

theorem wit_BuildErrorsChangeNothingElse :
    pair.err = .none ∧ pair.tv = true ∧ State.reset.err = .none ∧ State.reset.tv = false ∧
      ∀ x, State.reset.freqAt x = 0#32 := ⟨rfl, rfl, rfl, rfl, fun _ => rfl⟩

theorem wit_OneSymbolBuildsASingleLeaf : full.Buildable ∧ full.mode = .idle ∧ ∀ x, full.freqAt x ≠ 0#32 ↔ x = 97#8 :=
  ⟨one_buildable, rfl, full_freq⟩

theorem wit_BuiltTreeIsOptimal :
    counted.Buildable ∧ counted.mode = .idle ∧ 2 ≤ counted.liveSyms.length ∧
    (∀ x ∈ counted.liveSyms, ∀ y ∈ counted.liveSyms, x ≠ y → ¬ [x == 97#8] <+: [y == 97#8]) ∧
    full.Buildable ∧ full.liveSyms.length = 1 := by
  have h : counted.liveSyms = [97#8, 98#8] := by decide +kernel
  refine ⟨counted_buildable, rfl, by rw [h]; decide, ?_, one_buildable, by decide +kernel⟩
  rw [h]; decide

theorem wit_NodeWritesStoreTheirFields :
    (510#9 : NodeIdx) ≠ 511#9 ∧ pair.err = .none ∧ pair.tv = true ∧ State.reset.err = .none ∧ State.reset.tv = false := by
  decide

theorem wit_TreeCommitAdoptsExactlyProperTrees :
    (2#9 : NodeIdx) ≠ 511#9 ∧ pair.tv = true ∧ ({ pair with tv := false } : State).err = .none ∧
      proper ({ pair with tv := false } : State).node 2#9 = true ∧ (510#9 : NodeIdx) ≠ 511#9 ∧
      State.reset.err = .none ∧ State.reset.tv = false ∧ proper State.reset.node 510#9 = false := by decide +kernel

/-- Also of CodesHaveOneToTwoHundredFiftyFiveBits. -/
theorem wit_ProperMeansADistinctlyLabelledTree :
    proper pair.node 2#9 = true ∧ IsTree pair.node 2#9 [2#9, 1#9, 0#9] [98#8, 97#8] ∧
      [2#9, 1#9, 0#9].Nodup ∧ [98#8, 97#8].Nodup ∧ follow pair.node 2#9 [true] = some 0#9 ∧
      nodeAt pair.node 510#9 = NodeEntry.empty :=
  ⟨proper_pair, isTree_pair, by decide, by decide, rfl, rfl⟩

theorem wit_NodeReadsReturnTheirFields : (510#9 : NodeIdx) ≠ 511#9 := by decide

/-- Also of ResponsesReplayAsWrites. The tree of "aaab", its nodes renumbered from the top. -/
theorem wit_ImportedTreeGetsTheSameCodes :
    let f : NodeIdx → NodeIdx := fun i => if i = 511#9 then i else 510#9 - i
    IsTree pair.node pair.root [2#9, 1#9, 0#9] [98#8, 97#8] ∧ [2#9, 1#9, 0#9].Nodup ∧ [98#8, 97#8].Nodup ∧
      [0#9, 1#9, 2#9].Perm [2#9, 1#9, 0#9] ∧ AtReset State.reset ∧ (∀ i ∈ [2#9, 1#9, 0#9], f i ≠ 511#9) ∧
      (∀ i ∈ [2#9, 1#9, 0#9], ∀ j ∈ [2#9, 1#9, 0#9], f i = f j → i = j) ∧ f 511#9 = 511#9 :=
  ⟨isTree_pair, by decide, by decide, by decide,
    ⟨fun _ => rfl, fun _ _ => rfl, fun _ => rfl, rfl, rfl, ⟨rfl, rfl⟩, rfl, ⟨rfl, rfl⟩, ⟨rfl, rfl⟩, ⟨rfl, rfl⟩⟩,
    by decide, by decide, rfl⟩

theorem wit_GenerateFillsTheTreesCodes :
    State.reset.err = .none ∧ State.reset.tv = false ∧ decoding.err = .none ∧ decoding.mode ≠ .idle ∧
      pair.err = .none ∧ pair.tv = true ∧ pair.mode = .idle ∧ proper pair.node pair.root = true ∧
      (nodeAt lone.node lone.root).leaf = true ∧ proper lone.node lone.root = true := by decide +kernel

theorem wit_CodesHaveOneToTwoHundredFiftyFiveBits :
    proper coded.node coded.root = true ∧ IsTree coded.node coded.root [2#9, 1#9, 0#9] [98#8, 97#8] ∧
      IsCodeTable coded.node coded.root coded.code ∧ 97#8 ∈ [98#8, 97#8] ∧ 2 ≤ [98#8, 97#8].length :=
  ⟨proper_pair, isTree_pair, coded_isCodeTable, by decide, by decide⟩

theorem wit_CodesArePrefixFree :
    proper coded.node coded.root = true ∧ IsCodeTable coded.node coded.root coded.code ∧ (97#8 : Sym) ≠ 98#8 ∧
      (codeAt coded.code 97#8).len ≠ 0#8 ∧ (codeAt coded.code 98#8).len ≠ 0#8 :=
  ⟨proper_pair, coded_isCodeTable, by decide, by decide, by decide⟩

/-- No codes, a decode open, an unknown symbol, an empty and a full accumulator. -/
theorem wit_EncodeAppendsTheCodesBits :
    pair.err = .none ∧ pair.cv = false ∧ decoding.mode = .dec ∧ coded.err = .none ∧ coded.cv = true ∧
      coded.mode ≠ .dec ∧ (codeAt coded.code 99#8).len = 0#8 ∧ (codeAt coded.code 97#8).len ≠ 0#8 ∧
      coded.acc.toNat < 2 ^ coded.nbits.toNat ∧ (127#7).toNat < 2 ^ (7#3).toNat := by decide

theorem wit_FlushPadsTheLastByte :
    pair.err = .none ∧ pair.cv = false ∧ decoding.mode = .dec ∧ coded.err = .none ∧ coded.cv = true ∧
      coded.mode ≠ .dec ∧ coded.nbits = 0#3 ∧ ({ coded with nbits := 7#3 } : State).nbits ≠ 0#3 := by decide

theorem wit_StreamEmitsThePaddedPayload :
    coded.err = .none ∧ coded.cv = true ∧ coded.mode = .idle ∧ coded.nbits = 0#3 ∧ coded.acc = 0#7 ∧
      ∀ d ∈ [97#8, 97#8, 98#8], (codeAt coded.code d).len ≠ 0#8 := by decide

theorem wit_OpenDecodeStartsAtTheRoot :
    State.reset.err = .none ∧ State.reset.tv = false ∧ decoding.err = .none ∧ decoding.mode ≠ .idle ∧
      pair.err = .none ∧ pair.tv = true ∧ pair.mode = .idle := by decide

theorem wit_DecodeWalksTheTree :
    decoding.Inv ∧ ({ decoding with rem := 0#40 } : State).Inv ∧ decoding.err = .none ∧ decoding.mode = .dec ∧
      (nodeAt decoding.node decoding.root).leaf = false ∧ Walk decoding.node decoding.root decoding.cur [] [] 2#9 :=
  ⟨decoding_inv 4#40, decoding_inv 0#40, rfl, rfl, rfl, .done _⟩

/-- All eight bits 0, the count reached before a 1 bit, and a 1 bit before it. -/
theorem wit_DecodeOfASingleLeafTree :
    coded.err = .none ∧ coded.mode ≠ .dec ∧ lone.err = .none ∧ lone.mode = .dec ∧ lone.root ≠ 511#9 ∧
      (nodeAt lone.node lone.root).leaf = true ∧ 8 = ((byteBits 0x00#8).takeWhile fun b => !b).length ∧
      3 = ((byteBits 0x10#8).takeWhile fun b => !b).length ∧ lone.rem.toNat ≤ 3 ∧
      2 = ((byteBits 0x20#8).takeWhile fun b => !b).length ∧ 2 < lone.rem.toNat := by decide

theorem wit_MissingChildRaisesCorruptStream :
    let s : State := { State.reset with mode := .dec, rem := 1#40, root := 0#9, cur := 510#9 }
    s.err = .none ∧ s.mode = .dec ∧ s.rem ≠ 0#40 ∧ s.root ≠ 511#9 ∧ s.cur ≠ 511#9 ∧
      (nodeAt s.node s.root).leaf = false ∧
      (if (0x80#8 : Byte).getLsbD 7 then (nodeAt s.node s.cur).right else (nodeAt s.node s.cur).left) = 511#9 ∧
      (if (0x7F#8 : Byte).getLsbD 7 then (nodeAt s.node s.cur).right else (nodeAt s.node s.cur).left) = 511#9 := by
  decide

theorem wit_EndDecodeChecksTheCount :
    coded.err = .none ∧ coded.mode ≠ .dec ∧ decoding.err = .none ∧ decoding.mode = .dec ∧ decoding.rem ≠ 0#40 ∧
      ({ decoding with rem := 0#40 } : State).RegInv :=
  ⟨rfl, by decide, rfl, rfl, by decide, done_regInv⟩

theorem wit_PayloadDecodesToItsInput :
    coded.Inv ∧ coded.err = .none ∧ coded.cv = true ∧ coded.mode = .idle ∧
      (∀ d ∈ [97#8, 97#8, 98#8], (codeAt coded.code d).len ≠ 0#8) ∧ (3#40).toNat ≤ [97#8, 97#8, 98#8].length ∧
      (0#40).toNat ≤ [97#8, 97#8, 98#8].length :=
  ⟨coded_inv, rfl, rfl, rfl, by decide, by decide, by decide⟩

theorem wit_CompressThenDecompressIsTheIdentity :
    [97#8, 98#8] ≠ [] ∧ (∀ x : Byte, [97#8, 98#8].count x ≤ 2 ^ 32 - 1) ∧ [97#8, 98#8].length < 2 ^ 40 := by
  refine ⟨by decide, fun x => ?_, by decide⟩
  have := List.count_le_length (l := [97#8, 98#8]) (a := x)
  simp only [List.length_cons, List.length_nil] at this; omega

theorem wit_EveryStepCompletesAndKeepsTheInvariant : coded.Inv ∧ decoding.Inv := ⟨coded_inv, decoding_inv 4#40⟩

theorem wit_RegisterInvariantIsKept : coded.RegInv ∧ ∃ t, step coded = .next t := ⟨coded_regInv, _, rfl⟩

theorem wit_CanonicalTablesAreKept :
    coded.memoryWf = true ∧ ∃ t, step (coded.offerNext 0x4000000000000061#64) = .next t := ⟨by decide, _, rfl⟩

end Sys2Proof.Tests
end

/-! # Proofs of the statements on the state (10_state)

First the theory these proofs stand on: trees as data and the tree check, the codes of a tree, the heap's members,
the build; then one lemma that says all a command can do; then the statements. -/

namespace Sys2Proof.Machine

/-! ## Trees and paths (43_tree R118, 44_codes R131) -/

section trees

variable {nodes nodes' : Table NodeEntry} {i x : NodeIdx} {V : List NodeIdx} {Y : List Sym} {sym : Sym}
  {bits : List Bool}

theorem IsTree.root_ne_null (h : IsTree nodes i V Y) : i ≠ Config.null := by cases h <;> assumption

/-- No node of a tree is NULL. -/
theorem IsTree.ne_null_of_mem (h : IsTree nodes i V Y) (hx : x ∈ V) : x ≠ Config.null := by
  induction h with
  | leaf i hi => rwa [List.mem_singleton.1 hx]
  | node i Vl Vr Yl Yr hi _ _ _ ihl ihr =>
    rcases List.mem_cons.1 hx with rfl | hx
    · exact hi
    · exact (List.mem_append.1 hx).elim ihl ihr

/-- A tree depends on the entries of its own nodes only. -/
theorem IsTree.congr (h : IsTree nodes i V Y) (hn : ∀ x ∈ V, nodeAt nodes' x = nodeAt nodes x) :
    IsTree nodes' i V Y := by
  induction h with
  | leaf i hi hleaf hl hr =>
    have hi' := hn i List.mem_cons_self
    rw [← hi'] at hleaf hl hr ⊢
    exact .leaf i hi hleaf hl hr
  | node i Vl Vr Yl Yr hi hleaf _ _ ihl ihr =>
    have hi' := hn i List.mem_cons_self
    have hl := ihl fun x hx => hn x (by simp [hx])
    have hr := ihr fun x hx => hn x (by simp [hx])
    rw [← hi'] at hleaf hl hr
    exact .node i Vl Vr Yl Yr hi hleaf hl hr

/-- A tree of L leaves has 2L − 1 nodes (43_tree R118). -/
theorem IsTree.length_nodes (h : IsTree nodes i V Y) : V.length + 1 = 2 * Y.length := by
  induction h with
  | leaf => rfl
  | node => simp only [List.length_cons, List.length_append]; omega

theorem IsTree.symbols_pos (h : IsTree nodes i V Y) : 0 < Y.length := by
  have := h.length_nodes; omega

/-- Symbols without repeats are at most 256. -/
theorem length_le_of_nodup_symbols (h : Y.Nodup) : Y.length ≤ 256 := by
  have := (h.map (f := BitVec.toFin) fun _ _ e => BitVec.toFin_inj.1 e).length_le_card
  simpa using this

/-- Node indices other than NULL without repeats are at most 511. -/
theorem length_le_of_nodup_nodes (h : V.Nodup) (hV : ∀ x ∈ V, x ≠ Config.null) : V.length ≤ 511 := by
  have hc : (Config.null :: V).Nodup := List.nodup_cons.2 ⟨fun hm => hV _ hm rfl, h⟩
  have := (hc.map (f := BitVec.toFin) fun _ _ e => BitVec.toFin_inj.1 e).length_le_card
  simp only [List.length_map, List.length_cons, Fintype.card_fin] at this; omega

/-- From a leaf only the empty path leads to a leaf, itself. -/
theorem leafAt_of_leaf (hi : i ≠ Config.null) (hl : (nodeAt nodes i).leaf = true) :
    LeafAt nodes i bits sym ↔ bits = [] ∧ (nodeAt nodes i).sym = sym := by
  cases bits with
  | nil => simp [LeafAt, follow, hi, hl]
  | cons b bs => simp [LeafAt, follow, nodeAt?_of_ne hi, hl]

/-- From an internal node a path to a leaf starts with an edge to a child. -/
theorem leafAt_of_internal (hi : i ≠ Config.null) (hl : (nodeAt nodes i).leaf = false) :
    LeafAt nodes i bits sym ↔ ∃ b bs, bits = b :: bs ∧ LeafAt nodes ((nodeAt nodes i).child b) bs sym := by
  cases bits with
  | nil => simp [LeafAt, follow, hi, hl]
  | cons b bs => simp [LeafAt, follow, nodeAt?_of_ne hi, hl]

/-- The symbols of a tree are those its paths lead to. -/
theorem IsTree.mem_symbols_iff (h : IsTree nodes i V Y) : sym ∈ Y ↔ ∃ bits, LeafAt nodes i bits sym := by
  induction h with
  | leaf i hi hl => simp [leafAt_of_leaf hi hl, eq_comm]
  | node i Vl Vr Yl Yr hi hl _ _ ihl ihr =>
    simp only [List.mem_append, ihl, ihr, leafAt_of_internal hi hl]
    constructor
    · rintro (⟨bits, h⟩ | ⟨bits, h⟩)
      · exact ⟨_, false, bits, rfl, h⟩
      · exact ⟨_, true, bits, rfl, h⟩
    · rintro ⟨_, b, bits, rfl, h⟩
      cases b with
      | false => exact .inl ⟨bits, h⟩
      | true => exact .inr ⟨bits, h⟩

/-- In a tree of L leaves every path to a leaf has fewer than L edges (44_codes R134). -/
theorem IsTree.path_length_lt (h : IsTree nodes i V Y) (hp : LeafAt nodes i bits sym) : bits.length < Y.length := by
  induction h generalizing bits with
  | leaf i hi hl => simp [((leafAt_of_leaf hi hl).1 hp).1]
  | node i Vl Vr Yl Yr hi hl htl htr ihl ihr =>
    obtain ⟨b, bs, rfl, hc⟩ := (leafAt_of_internal hi hl).1 hp
    have := htl.symbols_pos
    have := htr.symbols_pos
    simp only [List.length_cons, List.length_append]
    cases b with
    | false => have := ihl hc; omega
    | true => have := ihr hc; omega

/-- A path may be followed one edge further from an internal node. -/
theorem follow_snoc {r : NodeIdx} {b : Bool} (h : follow nodes r bits = some i) (hl : (nodeAt nodes i).leaf = false)
    (hc : (nodeAt nodes i).child b ≠ Config.null) :
    follow nodes r (bits ++ [b]) = some ((nodeAt nodes i).child b) := by
  induction bits generalizing r with
  | nil =>
    simp only [follow] at h
    split at h
    · cases h
    · rename_i hr
      cases h
      simp [follow, nodeAt?_of_ne hr, hl, hc]
  | cons c bs ih =>
    rw [List.cons_append]
    simp only [follow] at h ⊢
    split at h
    · cases h
    · split at h
      · cases h
      · rename_i hleaf
        rw [if_neg hleaf]
        exact ih h

/-- A path never ends on NULL. -/
theorem follow_ne_null {r : NodeIdx} (h : follow nodes r bits = some i) : i ≠ Config.null := by
  induction bits generalizing r with
  | nil =>
    simp only [follow] at h
    split at h
    · cases h
    · cases h; assumption
  | cons c bs ih =>
    simp only [follow] at h
    split at h
    · cases h
    · split at h
      · cases h
      · exact ih h

end trees

/-! ## The tree check (43_tree R118) -/

section check

variable {nodes : Table NodeEntry}

/-- What two visits in a row add, the second on top of the first. -/
theorem perm_append_append {α : Type} {l l' l'' A B : List α} (ha : l'.Perm (A ++ l)) (hb : l''.Perm (B ++ l')) :
    l''.Perm ((A ++ B) ++ l) :=
  hb.trans ((ha.append_left B).trans (by rw [← List.append_assoc]; exact List.perm_append_comm.append_right l))

/-- What Check accepts is a tree; its nodes and leaf symbols are new, and they are what the visit adds. -/
theorem checkTree_sound {depth : Nat} {i : NodeIdx} {V V' : List NodeIdx} {Y Y' : List Sym}
    (h : checkTree nodes depth i V Y = some (V', Y')) (hi : i ≠ Config.null) (hV : V.Nodup) (hY : Y.Nodup) :
    ∃ Vt Yt, IsTree nodes i Vt Yt ∧ V'.Perm (Vt ++ V) ∧ Y'.Perm (Yt ++ Y) ∧ V'.Nodup ∧ Y'.Nodup := by
  induction depth generalizing i V V' Y Y' with
  | zero => cases h
  | succ depth ih =>
    obtain ⟨d, hd, hiV, ⟨hleaf, hl, hr, hs, rfl, rfl⟩ | ⟨hleaf, hl, hr, Vl, Yl, hcl, hcr⟩⟩ := checkTree_cases h
    · exact ⟨[i], _, .leaf i hi hleaf hl hr, .rfl, .rfl, List.nodup_cons.2 ⟨hiV, hV⟩, List.nodup_cons.2 ⟨hs, hY⟩⟩
    · cases hd
      obtain ⟨Va, Ya, hta, hVa, hYa, hVn, hYn⟩ := ih hcl hl (List.nodup_cons.2 ⟨hiV, hV⟩) hY
      obtain ⟨Vb, Yb, htb, hVb, hYb, hVn', hYn'⟩ := ih hcr hr hVn hYn
      exact ⟨_, _, .node i Va Vb Ya Yb hi hleaf hta htb, (perm_append_append hVa hVb).trans List.perm_middle,
        perm_append_append hYa hYb, hVn', hYn'⟩

/-- Check accepts every tree with new nodes and new leaf symbols, where the levels allowed are at least its nodes. -/
theorem checkTree_complete {i : NodeIdx} {Vt : List NodeIdx} {Yt : List Sym} (h : IsTree nodes i Vt Yt) {depth : Nat}
    {V : List NodeIdx} {Y : List Sym} (hV : (Vt ++ V).Nodup) (hY : (Yt ++ Y).Nodup) (hd : Vt.length ≤ depth) :
    ∃ V' Y', checkTree nodes depth i V Y = some (V', Y') ∧ V'.Perm (Vt ++ V) ∧ Y'.Perm (Yt ++ Y) := by
  induction h generalizing depth V Y with
  | leaf i hi hleaf hl hr =>
    obtain ⟨d, rfl⟩ : ∃ d, depth = d + 1 := ⟨depth - 1, by rw [List.length_cons] at hd; omega⟩
    have hiV : i ∉ V := (List.nodup_cons.1 hV).1
    have hsY : (nodeAt nodes i).sym ∉ Y := (List.nodup_cons.1 hY).1
    exact ⟨i :: V, _ :: Y, by simp [checkTree, hiV, hleaf, hl, hr, hsY], .rfl, .rfl⟩
  | node i Vl Vr Yl Yr hi hleaf htl htr ihl ihr =>
    obtain ⟨d, rfl⟩ : ∃ d, depth = d + 1 := ⟨depth - 1, by rw [List.length_cons] at hd; omega⟩
    simp only [List.length_cons, List.length_append] at hd
    have hiV : i ∉ V := fun hm => (List.nodup_cons.1 hV).1 (by simp [hm])
    have hV' : (Vr ++ (Vl ++ i :: V)).Nodup :=
      ((perm_append_append (.refl (Vl ++ i :: V)) (.refl (Vr ++ (Vl ++ i :: V)))).trans
        List.perm_middle).nodup_iff.2 hV
    have hY' : (Yr ++ (Yl ++ Y)).Nodup :=
      (perm_append_append (.refl (Yl ++ Y)) (.refl (Yr ++ (Yl ++ Y)))).nodup_iff.2 hY
    obtain ⟨Va, Ya, hcl, hVa, hYa⟩ := ihl (List.nodup_append.1 hV').2.1 (List.nodup_append.1 hY').2.1
      (by omega : Vl.length ≤ d)
    obtain ⟨Vb, Yb, hcr, hVb, hYb⟩ := ihr ((hVa.append_left Vr).nodup_iff.2 hV') ((hYa.append_left Yr).nodup_iff.2 hY')
      (by omega : Vr.length ≤ d)
    refine ⟨Vb, Yb, ?_, (perm_append_append hVa hVb).trans List.perm_middle, perm_append_append hYa hYb⟩
    simp [checkTree, hiV, hleaf, htl.root_ne_null, htr.root_ne_null, hcl, hcr]

/-- Proper holds exactly of the trees with no index twice and no symbol on two leaves (43_tree R118). -/
theorem proper_iff {r : NodeIdx} : proper nodes r = true ↔ ∃ V Y, IsTree nodes r V Y ∧ V.Nodup ∧ Y.Nodup := by
  simp only [proper, Bool.and_eq_true, bne_iff_ne, ne_eq, Option.isSome_iff_exists, Prod.exists]
  constructor
  · rintro ⟨hr, V', Y', h⟩
    obtain ⟨V, Y, ht, hV, hY, hVn, hYn⟩ := checkTree_sound h hr List.nodup_nil List.nodup_nil
    rw [List.append_nil] at hV hY
    exact ⟨V, Y, ht, hV.nodup_iff.1 hVn, hY.nodup_iff.1 hYn⟩
  · rintro ⟨V, Y, ht, hV, hY⟩
    have hlen := length_le_of_nodup_nodes hV fun x hx => ht.ne_null_of_mem hx
    obtain ⟨V', Y', h, -⟩ := checkTree_complete (V := []) (Y := []) ht (by simpa using hV) (by simpa using hY)
      (by simp only [Config.maxNodes]; omega : V.length ≤ Config.maxNodes + 1)
    exact ⟨ht.root_ne_null, V', Y', h⟩

end check

/-! ## The codes of a tree (44_codes R130 to R134) -/

section codes

variable {nodes : Table NodeEntry}

/-- Appending a bit to the code of a path gives the code of the longer path (00_scope R6). -/
theorem codeOfBits_append (bits : List Bool) (b : Bool) : (codeOfBits bits).append b = codeOfBits (bits ++ [b]) := by
  simp only [codeOfBits, Code.append, List.length_append, List.foldl_append, Code.mk.injEq]
  constructor
  · apply BitVec.eq_of_toNat_eq; simp
  · apply BitVec.eq_of_toNat_eq
    cases b <;> simp [Nat.add_mod, Nat.mul_mod]

/-- The value of a bit-string of L bits is below 2 to the L (00_scope R6). -/
theorem foldl_bits_lt (bits : List Bool) : bits.foldl (fun v b => 2 * v + b.toNat) 0 < 2 ^ bits.length := by
  induction bits using List.reverseRecOn with
  | nil => simp
  | append_singleton bs b ih =>
    have := b.toNat_le
    simp only [List.foldl_append, List.foldl_cons, List.foldl_nil, List.length_append, List.length_cons,
      List.length_nil, Nat.zero_add, Nat.pow_succ]
    omega

/-- A bit-string that the length field can count fits its value field (10_state R25 item 8). -/
theorem codeOfBits_fits {bits : List Bool} (h : bits.length ≤ Config.maxCodeLen) :
    (codeOfBits bits).len.toNat = bits.length ∧ (codeOfBits bits).val.toNat < 2 ^ bits.length := by
  simp only [Config.maxCodeLen] at h
  have hlen : (codeOfBits bits).len.toNat = bits.length := by
    simp only [codeOfBits, BitVec.toNat_ofNat]; omega
  refine ⟨hlen, ?_⟩
  simp only [codeOfBits, BitVec.toNat_ofNat]
  exact (Nat.mod_le _ _).trans_lt (foldl_bits_lt bits)

/-- Assign on a tree with no symbol twice completes where the levels allowed are at least its leaves: each leaf's
symbol gets the code of its path, every other entry stays (44_codes R130). -/
theorem assign_spec {i : NodeIdx} {V : List NodeIdx} {Y : List Sym} (h : IsTree nodes i V Y) (hY : Y.Nodup)
    {depth : Nat} (hd : Y.length ≤ depth) (path : List Bool) (codes : Table Code) :
    ∃ codes', assign nodes depth i (codeOfBits path) codes = .ok codes' ∧
      (∀ bits sym, LeafAt nodes i bits sym → codeAt codes' sym = codeOfBits (path ++ bits)) ∧
      ∀ sym, sym ∉ Y → codeAt codes' sym = codeAt codes sym := by
  induction h generalizing depth path codes with
  | leaf i hi hl =>
    obtain ⟨d, rfl⟩ : ∃ d, depth = d + 1 := ⟨depth - 1, by rw [List.length_cons] at hd; omega⟩
    refine ⟨setCodeAt codes (nodeAt nodes i).sym (codeOfBits path), by simp [assign, nodeAt?_of_ne hi, hl],
      fun bits sym hp => ?_, fun sym hs => ?_⟩
    · obtain ⟨rfl, rfl⟩ := (leafAt_of_leaf hi hl).1 hp
      simp
    · rw [codeAt_setCodeAt, if_neg (by simpa using hs)]
  | node i Vl Vr Yl Yr hi hl htl htr ihl ihr =>
    have := htl.symbols_pos
    have := htr.symbols_pos
    rw [List.length_append] at hd
    obtain ⟨d, rfl⟩ : ∃ d, depth = d + 1 := ⟨depth - 1, by omega⟩
    obtain ⟨hYl, hYr, hdisj⟩ := List.nodup_append.1 hY
    obtain ⟨codes₁, h₁, hp₁, hs₁⟩ := ihl hYl (by omega : Yl.length ≤ d) (path ++ [false]) codes
    obtain ⟨codes₂, h₂, hp₂, hs₂⟩ := ihr hYr (by omega : Yr.length ≤ d) (path ++ [true]) codes₁
    refine ⟨codes₂, ?_, fun bits sym hp => ?_, fun sym hs => ?_⟩
    · simp only [assign, nodeAt?_of_ne hi, hl, codeOfBits_append, h₁, h₂, Bool.false_eq_true, if_false]
    · obtain ⟨b, bs, rfl, hc⟩ := (leafAt_of_internal hi hl).1 hp
      cases b with
      | false =>
        have hsym : sym ∉ Yr := fun hr => hdisj _ (htl.mem_symbols_iff.2 ⟨bs, hc⟩) _ hr rfl
        rw [hs₂ sym hsym, hp₁ bs sym hc, List.append_assoc, List.singleton_append]
      | true => rw [hp₂ bs sym hc, List.append_assoc, List.singleton_append]
    · rw [List.mem_append, not_or] at hs
      rw [hs₂ sym hs.2, hs₁ sym hs.1]

/-- GEN's table for a proper tree is `Codes(ROOT)` (44_codes R130 to R132). -/
theorem codesOf_spec {r : NodeIdx} (h : proper nodes r = true) :
    ∃ codes, codesOf nodes r = .ok codes ∧ IsCodeTable nodes r codes := by
  obtain ⟨V, Y, ht, -, hY⟩ := proper_iff.1 h
  have hr := ht.root_ne_null
  cases hl : (nodeAt nodes r).leaf with
  | true =>
    refine ⟨setCodeAt [] (nodeAt nodes r).sym ⟨1#8, 0#255⟩, by simp only [codesOf, nodeAt?_of_ne hr, hl, if_true],
      fun sym => ⟨fun bits hp => ?_, fun hs => ?_⟩⟩
    · obtain ⟨rfl, rfl⟩ := (leafAt_of_leaf hr hl).1 hp
      rw [codeAt_setCodeAt, if_pos rfl]; rfl
    · have hne : sym ≠ (nodeAt nodes r).sym := fun e => hs [] ((leafAt_of_leaf hr hl).2 ⟨rfl, e.symm⟩)
      rw [codeAt_setCodeAt, if_neg hne, codeAt_nil]
  | false =>
    have hd : Y.length ≤ Config.maxCodeLen + 1 := length_le_of_nodup_symbols hY
    obtain ⟨codes, h₁, hp₁, hs₁⟩ := assign_spec ht hY hd [] []
    refine ⟨codes, ?_, fun sym => ⟨fun bits hp => ?_, fun hs => ?_⟩⟩
    · simp only [codesOf, nodeAt?_of_ne hr, hl, Bool.false_eq_true, if_false]; exact h₁
    · obtain ⟨b, bs, rfl, -⟩ := (leafAt_of_internal hr hl).1 hp
      rw [hp₁ _ _ hp, leafCode, if_neg (List.cons_ne_nil _ _), List.nil_append]
    · rw [hs₁ sym fun hm => let ⟨bits, hp⟩ := ht.mem_symbols_iff.1 hm; hs bits hp, codeAt_nil]

/-- The codes of a proper tree fit their fields (10_state R25 item 8, 44_codes R134). -/
theorem IsCodeTable.codeFits {r : NodeIdx} {codes : Table Code} (hc : IsCodeTable nodes r codes)
    (h : proper nodes r = true) (sym : Sym) : (codeAt codes sym).val.toNat < 2 ^ (codeAt codes sym).len.toNat := by
  obtain ⟨V, Y, ht, -, hY⟩ := proper_iff.1 h
  by_cases hp : ∃ bits, LeafAt nodes r bits sym
  · obtain ⟨bits, hp⟩ := hp
    have hlen : (leafCode bits).length ≤ Config.maxCodeLen := by
      have := ht.path_length_lt hp
      have := length_le_of_nodup_symbols hY
      unfold leafCode
      simp only [Config.maxCodeLen]
      split
      · simp
      · omega
    obtain ⟨hl, hv⟩ := codeOfBits_fits hlen
    rw [(hc sym).1 bits hp, hl]
    exact hv
  · rw [(hc sym).2 fun bits hb => hp ⟨bits, hb⟩]
    decide

end codes

/-! ## The heap's members (42_heap R102, R103) -/

section heap

variable {h : Table NodeIdx} {lt : NodeIdx → NodeIdx → Bool}

/-- The first `n` slots of a heap array. -/
def slots (h : Table NodeIdx) (n : Nat) : List NodeIdx := (List.range n).map (slotAt h)

theorem State.heapMembers_eq_slots (s : State) : s.heapMembers = slots s.heap s.hsize.toNat := rfl

@[simp] theorem length_slots (n : Nat) : (slots h n).length = n := by simp [slots]

theorem slots_succ (n : Nat) : slots h (n + 1) = slots h n ++ [slotAt h n] := by
  simp [slots, List.range_succ]

theorem slots_congr {h' : Table NodeIdx} {n : Nat} (he : ∀ k < n, slotAt h k = slotAt h' k) : slots h n = slots h' n :=
  List.map_congr_left fun k hk => he k (List.mem_range.1 hk)

theorem swap_lt {n i j k : Nat} (hi : i < n) (hj : j < n) (hk : k < n) : Equiv.swap i j k < n := by
  rw [Equiv.swap_apply_def]
  split
  · exact hj
  · split
    · exact hi
    · exact hk

/-- A swap of two slots keeps the entries. -/
theorem slots_swapSlots_perm {n i j : Nat} (hi : i < n) (hj : j < n) :
    (slots (swapSlots h i j) n).Perm (slots h n) := by
  have hswap : slots (swapSlots h i j) n = ((List.range n).map (Equiv.swap i j)).map (slotAt h) := by
    rw [List.map_map]
    refine List.map_congr_left fun k _ => ?_
    rw [slotAt_swapSlots, Function.comp_apply, Equiv.swap_apply_def]
    by_cases hki : k = i <;> by_cases hkj : k = j <;> simp_all
  have hrange : ((List.range n).map (Equiv.swap i j)).Perm (List.range n) := by
    refine (List.perm_ext_iff_of_nodup (List.nodup_range.map (Equiv.injective _)) List.nodup_range).2 fun k => ?_
    simp only [List.mem_map, List.mem_range]
    constructor
    · rintro ⟨m, hm, rfl⟩
      exact swap_lt hi hj hm
    · exact fun hk => ⟨Equiv.swap i j k, swap_lt hi hj hk, Equiv.swap_apply_self ..⟩
  rw [hswap]
  exact hrange.map _

/-- HINS's loop keeps the entries (42_heap R102). -/
theorem slots_siftUp_perm {n rounds k : Nat} (hk : k < n) : (slots (siftUp lt rounds k h) n).Perm (slots h n) := by
  induction rounds generalizing k h with
  | zero => rfl
  | succ rounds ih =>
    simp only [siftUp]
    split
    · have hp : (k - 1) >>> 1 < n := by rw [Nat.shiftRight_eq_div_pow]; omega
      exact (ih hp).trans (slots_swapSlots_perm hk hp)
    · rfl

/-- HEXT's loop keeps the entries (42_heap R103). -/
theorem slots_siftDown_perm {n rounds k : Nat} (hk : k < n) :
    (slots (siftDown lt n rounds k h) n).Perm (slots h n) := by
  induction rounds generalizing k h with
  | zero => rfl
  | succ rounds ih =>
    simp only [siftDown]
    split
    · rfl
    · have hc : leastSlot lt n k h < n := by rcases leastSlot_cases lt n k h with h | h | h <;> omega
      exact (ih hc).trans (slots_swapSlots_perm hk hc)

/-- HINS adds its operand to the members (42_heap R102). -/
theorem heapMembers_hins_perm {s : State} (x : NodeIdx) (hs : s.hsize.toNat < 511) :
    (hins s x).heapMembers.Perm (x :: s.heapMembers) := by
  have hsize : (hins s x).hsize.toNat = s.hsize.toNat + 1 := by
    simp only [hins_hsize, BitVec.toNat_add, BitVec.toNat_ofNat]; omega
  have hbelow : slots (setSlotAt s.heap s.hsize.toNat x) s.hsize.toNat = slots s.heap s.hsize.toNat :=
    slots_congr fun k hk => by rw [slotAt_setSlotAt, if_neg (by omega)]
  rw [State.heapMembers_eq_slots, hsize, hins_heap]
  refine (slots_siftUp_perm (Nat.lt_succ_self _)).trans ?_
  rw [slots_succ, hbelow, slotAt_setSlotAt, if_pos rfl, State.heapMembers_eq_slots]
  exact List.perm_append_singleton _ _

/-- HEXT on a heap with an entry answers one (42_heap R103). -/
theorem hext_completes {s : State} (h : 0 < s.hsize.toNat) : ∃ m t, hext s = .ok m t := by
  obtain ⟨_, ht⟩ := hext_of_pos (s := s) fun e => by simp [e] at h
  exact ⟨_, _, ht⟩

/-- Moving the last entry to slot 0 drops slot 0's entry (42_heap R103). -/
theorem slots_setSlotAt_zero_perm {n : Nat} (hn : 0 < n) :
    (slots h (n + 1)).Perm (slotAt h 0 :: slots (setSlotAt h 0 (slotAt h n)) n) := by
  obtain ⟨p, rfl⟩ : ∃ p, n = p + 1 := ⟨n - 1, by omega⟩
  have htail : (slotAt (setSlotAt h 0 (slotAt h (p + 1))) ∘ Nat.succ) = slotAt h ∘ Nat.succ := by
    funext k; simp
  rw [slots_succ, slots, slots, List.range_succ_eq_map, List.map_cons, List.map_cons, List.map_map, List.map_map, htail,
    slotAt_setSlotAt, if_pos rfl, List.cons_append]
  exact (List.perm_append_singleton _ _).cons _

/-- HEXT answers a member and removes exactly it; it writes HEAP and HSIZE only (42_heap R103). -/
theorem hext_ok {s t : State} {m : NodeIdx} (h : hext s = .ok m t) :
    t = { s with heap := t.heap, hsize := s.hsize - 1#9 } ∧ t.hsize.toNat + 1 = s.hsize.toNat ∧
      s.heapMembers.Perm (m :: t.heapMembers) := by
  unfold hext at h
  split at h
  · cases h
  rename_i h0
  have hpos : s.hsize.toNat = (s.hsize.toNat - 1) + 1 := by
    have : s.hsize.toNat ≠ 0 := fun e => h0 (BitVec.eq_of_toNat_eq e)
    omega
  have hsize : (s.hsize - 1#9).toNat = s.hsize.toNat - 1 := by bv_omega
  cases h
  refine ⟨rfl, by rw [hsize]; omega, ?_⟩
  simp only [State.heapMembers_eq_slots, hsize]
  generalize hn : s.hsize.toNat - 1 = n at *
  rw [hpos]
  split
  · rename_i hgt
    exact (slots_setSlotAt_zero_perm hgt).trans ((slots_siftDown_perm hgt).symm.cons _)
  · obtain rfl : n = 0 := by omega
    rfl

end heap

/-! ## BLD: a forest that merges into one tree (43_tree R110 to R113) -/

section build

/-- The roots listed carry trees, with the nodes `V` and the leaf symbols `Y` taken together. -/
inductive IsForest (nodes : Table NodeEntry) : List NodeIdx → List NodeIdx → List Sym → Prop where
  | nil : IsForest nodes [] [] []
  | cons {i : NodeIdx} {is V Vs : List NodeIdx} {Y Ys : List Sym} :
      IsTree nodes i V Y → IsForest nodes is Vs Ys → IsForest nodes (i :: is) (V ++ Vs) (Y ++ Ys)

variable {nodes nodes' : Table NodeEntry} {is js V : List NodeIdx} {Y : List Sym}

theorem IsForest.congr (h : IsForest nodes is V Y) (hn : ∀ x ∈ V, nodeAt nodes' x = nodeAt nodes x) :
    IsForest nodes' is V Y := by
  induction h with
  | nil => exact .nil
  | cons ht _ ih =>
    exact .cons (ht.congr fun x hx => hn x (List.mem_append_left _ hx))
      (ih fun x hx => hn x (List.mem_append_right _ hx))

/-- The order of the roots does not matter. -/
theorem IsForest.perm (h : IsForest nodes is V Y) (hp : is.Perm js) :
    ∃ V' Y', IsForest nodes js V' Y' ∧ V'.Perm V ∧ Y'.Perm Y := by
  induction hp generalizing V Y with
  | nil => exact ⟨V, Y, h, .rfl, .rfl⟩
  | cons i _ ih =>
    cases h with
    | cons ht hf =>
      obtain ⟨V', Y', hf', hV, hY⟩ := ih hf
      exact ⟨_, _, .cons ht hf', hV.append_left _, hY.append_left _⟩
  | swap i j is =>
    cases h with
    | cons htj hf =>
      cases hf with
      | cons hti hf =>
        refine ⟨_, _, .cons hti (.cons htj hf), ?_, ?_⟩ <;>
        · rw [← List.append_assoc, ← List.append_assoc]
          exact List.perm_append_comm.append_right _
  | trans _ _ ih₁ ih₂ =>
    obtain ⟨V₁, Y₁, h₁, hV₁, hY₁⟩ := ih₁ h
    obtain ⟨V₂, Y₂, h₂, hV₂, hY₂⟩ := ih₂ h₁
    exact ⟨V₂, Y₂, h₂, hV₂.trans hV₁, hY₂.trans hY₁⟩

/-- Each tree of a forest has a leaf. -/
theorem IsForest.length_roots_le (h : IsForest nodes is V Y) : is.length ≤ Y.length := by
  induction h with
  | nil => rfl
  | cons ht _ ih =>
    have := ht.symbols_pos
    simp only [List.length_cons, List.length_append]; omega

/-- A state without what BLD's loops write. -/
def State.besidesBuild (s : State) : State := { s with node := [], heap := [], hsize := 0#9 }

theorem State.eq_of_besidesBuild {s t : State} (h : t.besidesBuild = s.besidesBuild) :
    t = { s with node := t.node, heap := t.heap, hsize := t.hsize } := by
  cases s; cases t
  simpa [State.besidesBuild] using h

/-- A build that started from `s₀` and has written the nodes below `n` for the symbols `Ys`: the heap's members are
the roots of a forest of those symbols, and nothing but NODE, HEAP and HSIZE has changed. -/
structure Building (s₀ : State) (n : Nat) (Ys : List Sym) (s : State) : Prop where
  frame : s.besidesBuild = s₀.besidesBuild
  forest : ∃ V Y, IsForest s.node s.heapMembers V Y ∧ V.Nodup ∧ (∀ x ∈ V, x.toNat < n) ∧ Y.Perm Ys
  count : n + s.hsize.toNat = 2 * Ys.length
  memory : s₀.memoryWf = true → s.memoryWf = true

variable {s₀ s t u v : State} {n : Nat} {Ys : List Sym}

theorem State.length_heapMembers (s : State) : s.heapMembers.length = s.hsize.toNat := length_slots _

/-- The heap never holds more nodes than there are symbols. -/
theorem Building.hsize_le (h : Building s₀ n Ys s) : s.hsize.toNat ≤ Ys.length := by
  obtain ⟨V, Y, hf, -, -, hY⟩ := h.forest
  rw [← State.length_heapMembers, ← hY.length_eq]
  exact hf.length_roots_le

/-- With a symbol there is a root. -/
theorem Building.hsize_pos (h : Building s₀ n Ys s) (hYs : Ys ≠ []) : 0 < s.hsize.toNat := by
  obtain ⟨V, Y, hf, -, -, hY⟩ := h.forest
  rw [← State.length_heapMembers]
  cases hs : s.heapMembers with
  | nil =>
    rw [hs] at hf
    cases hf
    exact absurd hY.nil_eq.symm hYs
  | cons => simp

/-- HEXT keeps the canonical form of the tables. -/
theorem hext_memoryWf {m : NodeIdx} (he : hext s = .ok m t) (hs : s.hsize.toNat ≤ 256) (h : s.memoryWf = true) :
    t.memoryWf = true := by
  obtain ⟨hfreq, hnode, hcode, hheap⟩ := State.memoryWf_iff.1 h
  have hheap' := hext_wf hs hheap he
  rw [(hext_ok he).1]
  exact State.memoryWf_iff.2 ⟨hfreq, hnode, hcode, hheap'⟩

/-- A node written and inserted keeps the canonical form of the tables. -/
theorem hins_setNode_memoryWf {i : NodeIdx} (e : NodeEntry) (hi : i ≠ Config.null) (hs : s.hsize.toNat < 256)
    (h : s.memoryWf = true) : (hins (s.setNode i e) i).memoryWf = true := by
  obtain ⟨hfreq, hnode, hcode, hheap⟩ := State.memoryWf_iff.1 h
  exact State.memoryWf_iff.2 ⟨hfreq, setNodeAt_wf e hi hnode, hcode, hins_wf i hs hheap⟩

/-- A node written at an unused index and inserted joins the forest with the tree it heads. -/
theorem IsForest.hins_setNode {i : NodeIdx} {e : NodeEntry} {Vt : List NodeIdx} {Yt : List Sym}
    (hf : IsForest s.node s.heapMembers V Y) (hi : i ∉ V) (ht : IsTree (setNodeAt s.node i e) i Vt Yt)
    (hs : s.hsize.toNat < 511) :
    ∃ V' Y', IsForest (hins (s.setNode i e) i).node (hins (s.setNode i e) i).heapMembers V' Y' ∧
      V'.Perm (Vt ++ V) ∧ Y'.Perm (Yt ++ Y) := by
  have hf' : IsForest (setNodeAt s.node i e) s.heapMembers V Y := hf.congr fun x hx => by
    rw [nodeAt_setNodeAt, if_neg fun (hxi : x = i) => hi (hxi ▸ hx)]
  exact (IsForest.cons ht hf').perm (heapMembers_hins_perm (s := s.setNode i e) i hs).symm

/-- HSIZE after HINS (42_heap R102). -/
theorem hins_setNode_hsize {i : NodeIdx} {e : NodeEntry} (hs : s.hsize.toNat < 511) :
    (hins (s.setNode i e) i).hsize.toNat = s.hsize.toNat + 1 := by
  simp only [hins_hsize, State.setNode_hsize, BitVec.toNat_add, BitVec.toNat_ofNat]; omega

/-- The next free node index as a word of 9 bits. -/
theorem toNat_nextFree (hn : n < 511) : (BitVec.ofNat 9 n).toNat = n := by
  rw [BitVec.toNat_ofNat]; omega

theorem nextFree_ne_null (hn : n < 511) : BitVec.ofNat 9 n ≠ Config.null := fun e => by
  have := congrArg BitVec.toNat e
  rw [toNat_nextFree hn] at this
  simp [Config.null] at this; omega

/-- A leaf for one more symbol (43_tree R110 step 1). -/
theorem Building.insertLeaf (h : Building s₀ n Ys s) (hlen : Ys.length < 256) (sym : Sym) (freq : NodeFreq) :
    Building s₀ (n + 1) (Ys ++ [sym])
      (hins (s.setNode (BitVec.ofNat 9 n) ⟨true, sym, freq, Config.null, Config.null⟩) (BitVec.ofNat 9 n)) := by
  obtain ⟨V, Y, hf, hV, hlt, hY⟩ := h.forest
  have hsize := h.hsize_le
  have hcount := h.count
  have hn : n < 511 := by omega
  have hfresh : BitVec.ofNat 9 n ∉ V := fun hm => by have := hlt _ hm; rw [toNat_nextFree hn] at this; omega
  have hleaf : IsTree (setNodeAt s.node (BitVec.ofNat 9 n) ⟨true, sym, freq, Config.null, Config.null⟩)
      (BitVec.ofNat 9 n) [BitVec.ofNat 9 n] [sym] := by
    have ht := IsTree.leaf (nodes := setNodeAt s.node (BitVec.ofNat 9 n) ⟨true, sym, freq, Config.null, Config.null⟩)
      (BitVec.ofNat 9 n) (nextFree_ne_null hn) (by simp) (by simp) (by simp)
    rwa [nodeAt_setNodeAt, if_pos rfl] at ht
  obtain ⟨V', Y', hf', hV', hY'⟩ := hf.hins_setNode hfresh hleaf (by omega)
  refine ⟨h.frame, ⟨V', Y', hf', hV'.nodup_iff.2 (List.nodup_cons.2 ⟨hfresh, hV⟩), fun x hx => ?_, ?_⟩, ?_,
    fun hm => hins_setNode_memoryWf _ (nextFree_ne_null hn) (by omega) (h.memory hm)⟩
  · rcases List.mem_cons.1 (hV'.mem_iff.1 hx) with rfl | hx
    · rw [toNat_nextFree hn]; omega
    · have := hlt x hx; omega
  · exact hY'.trans ((hY.cons sym).trans (List.perm_append_singleton sym Ys).symm)
  · rw [hins_setNode_hsize (by omega), List.length_append, List.length_singleton]; omega

/-- BLD's first step makes a leaf of every symbol that occurs (43_tree R110 step 1). -/
theorem Building.insertLeaves (syms : List Sym) (h : Building s₀ n Ys s)
    (hlen : (Ys ++ syms.filter fun sym => s₀.freqAt sym != 0#32).length ≤ 256) :
    Building s₀ (insertLeaves syms n s).1 (Ys ++ syms.filter fun sym => s₀.freqAt sym != 0#32)
      (insertLeaves syms n s).2 := by
  induction syms generalizing n s Ys with
  | nil => simpa [Machine.insertLeaves] using h
  | cons sym syms ih =>
    have hfreq : s.freqAt sym = s₀.freqAt sym := by
      have : s.freq = s₀.freq := (congrArg State.freq h.frame :)
      simp only [State.freqAt, this]
    simp only [Machine.insertLeaves, hfreq]
    split
    · rename_i h0
      rw [List.filter_cons_of_neg (by simp [h0])] at hlen ⊢
      exact ih h hlen
    · rename_i h0
      rw [List.filter_cons_of_pos (by simp [h0])] at hlen ⊢
      rw [List.append_cons] at hlen ⊢
      refine ih (h.insertLeaf ?_ sym _) hlen
      simp only [List.length_append, List.length_cons, List.length_nil] at hlen; omega

/-- A new internal node over two trees of distinct nodes heads a tree (43_tree R118). -/
theorem IsTree.setNodeAt_parent {i : NodeIdx} {e : NodeEntry} {Vl Vr : List NodeIdx} {Yl Yr : List Sym}
    (hl : IsTree nodes e.left Vl Yl) (hr : IsTree nodes e.right Vr Yr) (hi : i ≠ Config.null) (hnew : i ∉ Vl ++ Vr)
    (he : e.leaf = false) : IsTree (setNodeAt nodes i e) i (i :: (Vl ++ Vr)) (Yl ++ Yr) := by
  have hother : ∀ x ∈ Vl ++ Vr, nodeAt (setNodeAt nodes i e) x = nodeAt nodes x := fun x hx => by
    rw [nodeAt_setNodeAt, if_neg fun (hxi : x = i) => hnew (hxi ▸ hx)]
  have hsame : nodeAt (setNodeAt nodes i e) i = e := by rw [nodeAt_setNodeAt, if_pos rfl]
  refine .node i Vl Vr Yl Yr hi (by rw [hsame, he]) ?_ ?_
  · rw [hsame]; exact hl.congr fun x hx => hother x (List.mem_append_left _ hx)
  · rw [hsame]; exact hr.congr fun x hx => hother x (List.mem_append_right _ hx)

/-- The two roots BLD extracts and the parent it makes of them (43_tree R110 step 2). -/
theorem Building.merge (h : Building s₀ n Ys s) (hlen : Ys.length ≤ 256) (h1 : 1 < s.hsize.toNat) :
    ∃ a u b v, hext s = .ok a u ∧ hext u = .ok b v ∧ ∀ e : NodeEntry, e.leaf = false → e.left = a → e.right = b →
      Building s₀ (n + 1) Ys (hins (v.setNode (BitVec.ofNat 9 n) e) (BitVec.ofNat 9 n)) ∧
      (hins (v.setNode (BitVec.ofNat 9 n) e) (BitVec.ofNat 9 n)).hsize.toNat + 1 = s.hsize.toNat := by
  have hsize := h.hsize_le
  have hcount := h.count
  have hn : n < 511 := by omega
  obtain ⟨a, u, hu⟩ := hext_completes (by omega : 0 < s.hsize.toNat)
  obtain ⟨hus, hu1, hua⟩ := hext_ok hu
  obtain ⟨b, v, hv⟩ := hext_completes (by omega : 0 < u.hsize.toNat)
  obtain ⟨hvu, hv1, hvb⟩ := hext_ok hv
  refine ⟨a, u, b, v, hu, hv, fun e hleaf hleft hright => ?_⟩
  subst hleft hright
  have hnode : v.node = s.node := by rw [hvu, hus]
  have hframe : v.besidesBuild = s₀.besidesBuild := by rw [← h.frame, hvu, hus]; rfl
  have hsize' := hins_setNode_hsize (s := v) (i := BitVec.ofNat 9 n) (e := e) (by omega)
  obtain ⟨V, Y, hf, hV, hlt, hY⟩ := h.forest
  obtain ⟨V₁, Y₁, hf₁, hV₁, hY₁⟩ := hf.perm (hua.trans (hvb.cons e.left))
  rw [← hnode] at hf₁
  have hfresh : BitVec.ofNat 9 n ∉ V₁ := fun hm => by
    have := hlt _ (hV₁.mem_iff.1 hm); rw [toNat_nextFree hn] at this; omega
  obtain _ | @⟨_, _, Va, _, Ya, _, hta, hrest⟩ := hf₁
  obtain _ | @⟨_, _, Vb, Vs, Yb, Ys', htb, hrest⟩ := hrest
  rw [← List.append_assoc] at hV₁ hY₁ hfresh
  have ht := hta.setNodeAt_parent htb (nextFree_ne_null hn) (fun hm => hfresh (List.mem_append_left _ hm)) hleaf
  obtain ⟨V', Y', hf', hV', hY'⟩ := hrest.hins_setNode (fun hm => hfresh (List.mem_append_right _ hm)) ht (by omega)
  refine ⟨⟨hframe, ⟨V', Y', hf', ?_, fun x hx => ?_, hY'.trans (hY₁.trans hY)⟩, by omega, fun hm => ?_⟩, by omega⟩
  · exact hV'.nodup_iff.2 (List.nodup_cons.2 ⟨hfresh, hV₁.nodup_iff.2 hV⟩)
  · rcases List.mem_cons.1 (hV'.mem_iff.1 hx) with rfl | hx
    · rw [toNat_nextFree hn]; omega
    · have := hlt x (hV₁.mem_iff.1 hx); omega
  · exact hins_setNode_memoryWf _ (nextFree_ne_null hn) (by omega)
      (hext_memoryWf hv (by omega) (hext_memoryWf hu (by omega) (h.memory hm)))

/-- BLD's second step merges until one root is left (43_tree R110 step 2, 42_heap R107). -/
theorem Building.mergeLoop {rounds : Nat} (h : Building s₀ n Ys s) (hlen : Ys.length ≤ 256) (hYs : Ys ≠ [])
    (hr : s.hsize.toNat ≤ rounds + 1) :
    ∃ m t, mergeLoop rounds n s = .ok m t ∧ Building s₀ m Ys t ∧ t.hsize.toNat = 1 := by
  have hpos := h.hsize_pos hYs
  induction rounds generalizing n s with
  | zero => exact ⟨n, s, rfl, h, by omega⟩
  | succ rounds ih =>
    simp only [Machine.mergeLoop, hsz, gt_iff_lt]
    by_cases h1 : 1 < s.hsize.toNat
    · obtain ⟨a, u, b, v, hu, hv, hmerge⟩ := h.merge hlen h1
      simp only [if_pos h1, hu, hv, Res.bind]
      obtain ⟨hb, hsize⟩ := hmerge ⟨false, 0#8, (nodeAt v.node a).freq + (nodeAt v.node b).freq, a, b⟩ rfl rfl rfl
      exact ih hb (by omega) (hb.hsize_pos hYs)
    · exact ⟨n, s, if_neg h1, h, by omega⟩

theorem nodup_allSyms : allSyms.Nodup := by
  refine List.nodup_range.map_on fun x hx y hy e => ?_
  have := congrArg BitVec.toNat e
  simp only [List.mem_range, Config.nSym, BitVec.toNat_ofNat] at hx hy this
  omega

/-- The empty build. -/
theorem Building.start (h : s.hsize = 0#9) : Building s 0 [] { s with node := [] } where
  frame := rfl
  forest := ⟨[], [], by rw [State.heapMembers, show ({ s with node := [] } : State).hsize = 0#9 from h]; exact .nil,
    List.nodup_nil, List.forall_mem_nil _, .refl _⟩
  count := by show 0 + s.hsize.toNat = 0; rw [h]; rfl
  memory hm := by
    obtain ⟨hfreq, -, hcode, hheap⟩ := State.memoryWf_iff.1 hm
    exact State.memoryWf_iff.2 ⟨hfreq, Table.wf_nil _ _, hcode, hheap⟩

/-- BLD's body, started with an empty heap and some symbol to build for, completes with a tree of exactly the symbols
that occur; HSIZE is 0 again, and NODE, HEAP, ROOT and TV are all that may have changed (43_tree R110 to R113). -/
theorem buildTree_spec (h0 : s.hsize = 0#9) (hlive : s.liveSyms ≠ []) :
    ∃ node heap root, buildTree s = .ok () { s with node := node, heap := heap, root := root, tv := true } ∧
      (∃ V Y, IsTree node root V Y ∧ V.Nodup ∧ Y.Perm s.liveSyms) ∧
      (s.memoryWf = true → ({ s with node := node, heap := heap } : State).memoryWf = true) := by
  have hlen : s.liveSyms.length ≤ 256 := length_le_of_nodup_symbols (nodup_allSyms.filter _)
  have hleaves : Building s _ s.liveSyms _ := (Building.start h0).insertLeaves allSyms hlen
  obtain ⟨m, t, hm, hb, ht1⟩ := hleaves.mergeLoop hlen hlive (Nat.le_succ _)
  obtain ⟨r, u, hu⟩ := hext_completes (by omega : 0 < t.hsize.toNat)
  obtain ⟨hut, hu0, hur⟩ := hext_ok hu
  have hu_size : u.hsize = 0#9 := BitVec.eq_of_toNat_eq (by simp; omega)
  have hus : u = { s with node := u.node, heap := u.heap } := by
    have := State.eq_of_besidesBuild (s := s) (t := u) (by rw [← hb.frame, hut]; rfl)
    rwa [hu_size, ← h0] at this
  have hnode : u.node = t.node := by rw [hut]
  obtain ⟨V, Y, hf, hV, -, hY⟩ := hb.forest
  obtain ⟨V', Y', hf', hV', hY'⟩ := hf.perm hur
  have hempty : u.heapMembers = [] := List.eq_nil_of_length_eq_zero (by rw [State.length_heapMembers, hu_size]; rfl)
  rw [hempty] at hf'
  obtain _ | @⟨_, _, Vr, _, Yr, _, htree, hrest⟩ := hf'
  cases hrest
  rw [List.append_nil] at hV' hY'
  refine ⟨u.node, u.heap, r, ?_, ⟨Vr, Yr, hnode ▸ htree, hV'.nodup_iff.2 hV, hY'.trans hY⟩, fun hm => ?_⟩
  · simp only [buildTree, hsz, hm, Res.bind, hu]
    exact congrArg (fun x : State => Res.ok () { x with root := r, tv := true }) hus
  · rw [← hus]
    exact hext_memoryWf hu (by omega) (hb.memory hm)

end build

/-! ## All that a command can do (30_encoding R66) -/

section effect

/-- The read commands (20_memory R45). -/
def readOpcodes : List Opcode := [.srd, .drd, .frd, .trn, .trf, .crl, .crw]

/-- The state `t` is `s` with an error raised; where one is latched already, it is `s` (60_exceptions R183, R185). -/
def Rejects (s t : State) : Prop := ∃ e info, e ≠ ErrCode.none ∧ t = s.raise e info

/-- The states a command that has passed its checks and raises nothing at its start can leave. A DEC may have raised
on its way. -/
inductive Effect (s : State) : Instr → State → Prop where
  | nop : Effect s .nop s
  | clr : Effect s .clr s.clear
  | read {i : Instr} (w : Word) (hi : i.opcode ∈ readOpcodes) : Effect s i (s.respond w)
  | cnt (sym : Sym) (hf : s.freqAt sym ≠ Config.freqMax) : Effect s (.cnt sym) (s.setFreq sym (s.freqAt sym + 1#32))
  | fwr (sym : Sym) (val : Freq) : Effect s (.fwr sym val) (s.setFreq sym val)
  | bld (node : Table NodeEntry) (heap : Table NodeIdx) (root : NodeIdx) (h0 : s.hsize = 0#9)
      (ht : ∃ V Y, IsTree node root V Y ∧ V.Nodup ∧ Y.Perm s.liveSyms)
      (hm : s.memoryWf = true → ({ s with node := node, heap := heap } : State).memoryWf = true) :
      Effect s .bld { s with node := node, heap := heap, root := root, tv := true }
  | twn (idx : NodeIdx) (leaf : Bool) (sym : Sym) (left right : NodeIdx) :
      Effect s (.twn idx leaf sym left right) (s.setNode idx ⟨leaf, sym, (nodeAt s.node idx).freq, left, right⟩)
  | twf (idx : NodeIdx) (freq : NodeFreq) :
      Effect s (.twf idx freq) (s.setNode idx { nodeAt s.node idx with freq := freq })
  | tcm (idx : NodeIdx) (hp : proper s.node idx = true) : Effect s (.tcm idx) { s with root := idx, tv := true }
  | gen (codes : Table Code) (hc : codesOf s.node s.root = .ok codes) :
      Effect s .gen { s with code := codes, cv := true }
  | enc (sym : Sym) (hc : (codeAt s.code sym).len ≠ 0#8) :
      Effect s (.enc sym) (appendBits (codeAt s.code sym).bits (s.setMode .enc))
  | flsEmpty (h0 : s.nbits = 0#3) : Effect s .fls (s.setMode .idle)
  | flsPending (h0 : s.nbits ≠ 0#3) :
      Effect s .fls ((s.emit (paddedByte s.acc s.nbits)).dropPending.setMode .idle)
  | dln (count : Count) : Effect s (.dln count) { s with cur := s.root, rem := count, mode := .dec }
  | dec {t : State} (byte : Byte) (h : walkBits (byteBits byte) s = .ok () t ∨ walkBits (byteBits byte) s = .raised t) :
      Effect s (.dec byte) t
  | dnd (h0 : s.rem = 0#40) : Effect s .dnd ((s.moveTo Config.null).setMode .idle)

/-- The fault each command stops with and where; no other command stops (log 5, 6, 7). -/
inductive Stops (s : State) : Instr → Fault → Prop where
  | bld (h0 : s.hsize ≠ 0#9) : Stops s .bld .heapInUse
  | gen {f : Fault} (h : codesOf s.node s.root = .error f) : Stops s .gen f
  | dec {f : Fault} (byte : Byte) (h : walkBits (byteBits byte) s = .fault f) : Stops s (.dec byte) f

/-- What a command's own rule answers once the checks are passed. -/
inductive Performs (i : Instr) (s : State) : Result → Prop where
  | rejects {t : State} (h : Rejects s t) : Performs i s (.next t)
  | effect {t : State} (h : Effect s i t) : Performs i s (.next t)
  | stops {f : Fault} (h : Stops s i f) : Performs i s (.fault f)

/-- The checks of 30_encoding R66 that a command must pass to be performed. -/
structure Passes (i : Instr) (s : State) : Prop where
  wf : i.wf = true
  seqOK : s.seqOK i.opcode = true
  notDropped : s.err = .none ∨ i.opcode.always = true

variable {i : Instr} {s t : State} {perform : State → Result}

/-- A guarded command is performed, or it is rejected (30_encoding R66). -/
theorem guarded_passes_or_rejects : (Passes i s ∧ guarded i s perform = perform s) ∨
    ∃ t, guarded i s perform = .next t ∧ Rejects s t := by
  cases hd : s.drops i.opcode with
  | true =>
    have he := (State.drops_eq_true.1 hd).1
    exact .inr ⟨s, by simp [guarded, hd], .sequence, 0#16, by decide, (State.raise_of_latched _ _ he).symm⟩
  | false =>
    cases hw : i.wf with
    | false => exact .inr ⟨_, by simp [guarded, hd, hw]; rfl, _, _, by decide, rfl⟩
    | true =>
      cases hs : s.seqOK i.opcode with
      | false => exact .inr ⟨_, by simp [guarded, hd, hw, hs]; rfl, _, _, by decide, rfl⟩
      | true =>
        refine .inl ⟨⟨hw, hs, ?_⟩, guarded_perform hd hw hs⟩
        by_contra hn
        rw [not_or, Bool.not_eq_true] at hn
        rw [State.drops_eq_true.2 hn] at hd
        cases hd

/-- All that a command can answer: it is rejected, or it has passed its checks and its own rule answers. -/
def Answers (i : Instr) (s : State) (r : Result) : Prop :=
  (∃ t, r = .next t ∧ Rejects s t) ∨ (Passes i s ∧ Performs i s r)

theorem guarded_answers (hp : Performs i s (perform s)) : Answers i s (guarded i s perform) := by
  obtain ⟨hpass, h⟩ | h := guarded_passes_or_rejects (i := i) (s := s) (perform := perform)
  · exact .inr ⟨hpass, h ▸ hp⟩
  · exact .inl h

/-- A symbol occurs unless every counter is 0 (43_tree R110). -/
theorem State.liveSyms_ne_nil (h : ¬ (allSyms.all fun sym => s.freqAt sym == 0#32) = true) : s.liveSyms ≠ [] := by
  intro hn
  rw [State.liveSyms, List.filter_eq_nil_iff] at hn
  exact h (List.all_eq_true.2 fun x hx => by simpa using hn x hx)

theorem exec_answers (i : Instr) (s : State) : Answers i s (exec i s) := by
  cases i <;>
    simp only [exec, execNop, execClr, execSrd, execDrd, execCnt, execFwr, execFrd, execBld, execTwn, execTwf, execTcm,
      execTrn, execTrf, execGen, execCrl, execCrw, execEnc, execFls, execDln, execDec, execDnd] <;>
    refine guarded_answers ?_
  case nop => exact .effect .nop
  case clr => exact .effect .clr
  case srd | drd | frd | trn | trf | crl | crw => exact .effect (.read _ (by simp [readOpcodes, Instr.opcode]))
  case cnt sym =>
    split
    · exact .rejects ⟨_, _, by decide, rfl⟩
    · exact .effect (.cnt sym ‹_›)
  case fwr sym val => exact .effect (.fwr sym val)
  case bld =>
    split
    · exact .rejects ⟨_, _, by decide, rfl⟩
    · rename_i hlive
      split
      · exact .stops (.bld ‹_›)
      · rename_i h0
        obtain ⟨node, heap, root, hb, ht, hm⟩ := buildTree_spec (not_not.1 h0) (State.liveSyms_ne_nil hlive)
        rw [hb]
        exact .effect (.bld node heap root (not_not.1 h0) ht hm)
  case twn idx leaf sym left right => exact .effect (.twn idx leaf sym left right)
  case twf idx freq => exact .effect (.twf idx freq)
  case tcm idx =>
    split
    · exact .effect (.tcm idx ‹_›)
    · exact .rejects ⟨_, _, by decide, rfl⟩
  case gen =>
    split
    · exact .effect (.gen _ ‹_›)
    · exact .stops (.gen ‹_›)
  case enc sym =>
    split
    · exact .rejects ⟨_, _, by decide, rfl⟩
    · exact .effect (.enc sym ‹_›)
  case fls =>
    split
    · exact .effect (.flsEmpty ‹_›)
    · exact .effect (.flsPending ‹_›)
  case dln count => exact .effect (.dln count)
  case dec byte =>
    cases hw : walkBits (byteBits byte) s with
    | ok _ t => exact .effect (.dec byte (.inl hw))
    | raised t => exact .effect (.dec byte (.inr hw))
    | fault f => exact .stops (.dec byte hw)
  case dnd =>
    split
    · exact .rejects ⟨_, _, by decide, rfl⟩
    · exact .effect (.dnd (not_not.1 ‹_›))

/-- All that a command that answers a next state can have done (30_encoding R66, 60_exceptions R187). -/
theorem exec_cases (h : exec i s = .next t) : Rejects s t ∨ (Passes i s ∧ Effect s i t) := by
  have ha := exec_answers i s
  rw [h] at ha
  obtain ⟨_, ⟨⟩, hr⟩ | ⟨hpass, hp⟩ := ha
  · exact .inl hr
  · cases hp with
    | rejects hr => exact .inl hr
    | effect he => exact .inr ⟨hpass, he⟩

/-- A command that does not stop completes (60_exceptions R187). -/
theorem exec_completes (h : Passes i s → ∀ f, ¬ Stops s i f) : ∃ t, exec i s = .next t := by
  obtain ⟨t, ht, -⟩ | ⟨hpass, hp⟩ := exec_answers i s
  · exact ⟨t, ht⟩
  · generalize exec i s = r at hp
    cases hp with
    | rejects | effect => exact ⟨_, rfl⟩
    | stops hs => exact absurd hs (h hpass _)

/-- What every input, every error and every accepted command keeps, a step keeps (20_memory R43). -/
theorem step_preserves {P : State → Prop} (hinput : ∀ s, P s → P s.takeInput) (hreset : ∀ s, P s → P s.assertReset)
    (hraise : ∀ s e info, e ≠ ErrCode.none → P s → P (s.raise e info))
    (heffect : ∀ i s t, Passes i s → Effect s i t → P s → P t) (hs : P s) (h : step s = .next t) : P t := by
  obtain ⟨-, h⟩ | ⟨_, -, h⟩ | ⟨_, _, i, -, -, h⟩ | ⟨_, _, _, -, -, h⟩ := step_cases h
  · cases h; exact hs
  · cases h; exact hreset _ (hinput _ hs)
  · obtain ⟨e, info, he, rfl⟩ | ⟨hpass, ha⟩ := exec_cases h.symm
    · exact hraise _ _ _ he (hinput _ hs)
    · exact heffect _ _ _ hpass ha (hinput _ hs)
  · cases h; exact hraise _ _ _ (by decide) (hinput _ hs)

end effect

/-- Settles O13: by `exec_cases` an outcome is a raise or one command's effect, and each of these writes only the
registers its constructor names. -/
theorem eachRegisterIsWrittenOnlyByItsCommands : Obligations.EachRegisterIsWrittenOnlyByItsCommands := by
  intro i s t h
  obtain ⟨e, info, -, rfl⟩ | ⟨hpass, heff⟩ := exec_cases h
  · have hlatched : s.err ≠ .none → (s.raise e info).err = s.err ∧ (s.raise e info).einfo = s.einfo := fun he => by
      rw [State.raise_of_latched _ _ he]; exact ⟨rfl, rfl⟩
    simpa using fun _ => hlatched
  · cases heff with
    | read w hi => simp
    | enc sym hc =>
      obtain ⟨acc, nbits, bytes, hb⟩ := appendBits_frame (codeAt s.code sym).bits (s.setMode .enc)
      simp [hb, Instr.opcode]
    | dec byte hw =>
      obtain ⟨syms, ht⟩ := walkBits_frame hw
      have hnone : s.err = .none := hpass.notDropped.resolve_right (by simp [Instr.opcode, Opcode.always])
      rw [ht]
      simp [Instr.opcode, hnone]
    | _ => simp [Instr.opcode]

/-! ## What HEAP's slots hold at or above HSIZE is never read (42_heap R105) -/

section staleSlots

/-- The state with other contents of HEAP. -/
def State.withHeap (s : State) (heap : Table NodeIdx) : State := { s with heap := heap }

@[simp] theorem State.withHeap_node (s : State) (heap : Table NodeIdx) : (s.withHeap heap).node = s.node := rfl
@[simp] theorem State.withHeap_root (s : State) (heap : Table NodeIdx) : (s.withHeap heap).root = s.root := rfl
@[simp] theorem State.withHeap_cur (s : State) (heap : Table NodeIdx) : (s.withHeap heap).cur = s.cur := rfl
@[simp] theorem State.withHeap_rem (s : State) (heap : Table NodeIdx) : (s.withHeap heap).rem = s.rem := rfl
@[simp] theorem State.withHeap_drops (s : State) (heap : Table NodeIdx) (op : Opcode) :
    (s.withHeap heap).drops op = s.drops op := rfl
@[simp] theorem State.withHeap_seqOK (s : State) (heap : Table NodeIdx) (op : Opcode) :
    (s.withHeap heap).seqOK op = s.seqOK op := by cases op <;> rfl

/-- Two heap arrays agree in their first `n` slots. -/
def AgreeBelow (n : Nat) (h h' : Table NodeIdx) : Prop := ∀ k < n, slotAt h k = slotAt h' k

variable {n k : Nat} {h h' heap : Table NodeIdx} {lt : NodeIdx → NodeIdx → Bool} {s s' t : State}

theorem AgreeBelow.mono {m : Nat} (ha : AgreeBelow n h h') (hm : m ≤ n) : AgreeBelow m h h' :=
  fun k hk => ha k (by omega)

theorem AgreeBelow.setSlotAt (ha : AgreeBelow n h h') (i : NodeIdx) :
    AgreeBelow n (setSlotAt h k i) (setSlotAt h' k i) := fun j hj => by
  simp only [slotAt_setSlotAt, ha j hj]

/-- Writing the next slot extends the agreement. -/
theorem AgreeBelow.setSlotAt_succ (ha : AgreeBelow n h h') (i : NodeIdx) :
    AgreeBelow (n + 1) (Machine.setSlotAt h n i) (Machine.setSlotAt h' n i) := fun j hj => by
  simp only [slotAt_setSlotAt]
  split
  · rfl
  · exact ha j (by omega)

theorem AgreeBelow.swapSlots {i j : Nat} (ha : AgreeBelow n h h') (hi : i < n) (hj : j < n) :
    AgreeBelow n (swapSlots h i j) (swapSlots h' i j) := fun k hk => by
  simp only [slotAt_swapSlots, ha i hi, ha j hj, ha k hk]

theorem AgreeBelow.siftUp {rounds : Nat} (ha : AgreeBelow n h h') (hk : k < n) :
    AgreeBelow n (siftUp lt rounds k h) (siftUp lt rounds k h') := by
  induction rounds generalizing k h h' with
  | zero => exact ha
  | succ rounds ih =>
    have hp : (k - 1) >>> 1 < n := by rw [Nat.shiftRight_eq_div_pow]; omega
    simp only [Machine.siftUp, ha k hk, ha _ hp]
    split
    · exact ih (ha.swapSlots hk hp) hp
    · exact ha

/-- The slot HEXT's loop picks depends on the slots below `n` only. -/
theorem AgreeBelow.leastSlot (ha : AgreeBelow n h h') (hk : k < n) : leastSlot lt n k h = leastSlot lt n k h' := by
  have hl : (decide (2 * k + 1 < n) && lt (slotAt h (2 * k + 1)) (slotAt h k)) =
      (decide (2 * k + 1 < n) && lt (slotAt h' (2 * k + 1)) (slotAt h' k)) := by
    by_cases hlt : 2 * k + 1 < n
    · rw [ha _ hlt, ha _ hk]
    · simp [hlt]
  simp only [Machine.leastSlot, hl]
  by_cases hlt : 2 * k + 2 < n
  · have hc : (if (decide (2 * k + 1 < n) && lt (slotAt h' (2 * k + 1)) (slotAt h' k)) = true
        then 2 * k + 1 else k) < n := by
      split <;> omega
    rw [ha _ hlt, ha _ hc]
  · simp [hlt]

theorem AgreeBelow.siftDown {rounds : Nat} (ha : AgreeBelow n h h') (hk : k < n) :
    AgreeBelow n (siftDown lt n rounds k h) (siftDown lt n rounds k h') := by
  induction rounds generalizing k h h' with
  | zero => exact ha
  | succ rounds ih =>
    have hc : Machine.leastSlot lt n k h' < n := by rcases leastSlot_cases lt n k h' with h | h | h <;> omega
    simp only [Machine.siftDown, ha.leastSlot hk]
    split
    · exact ha
    · exact ih (ha.swapSlots hk hc) hc

/-- `s'` is `s` with other contents of HEAP, but not of the slots in use. -/
inductive HeapAgrees (s : State) : State → Prop where
  | withHeap (heap : Table NodeIdx) (ha : AgreeBelow s.hsize.toNat s.heap heap) : HeapAgrees s (s.withHeap heap)

/-- Two pieces of a command's pseudocode went on alike, but for HEAP's slots not in use. -/
inductive Res.Agrees {α : Type} : Res α → Res α → Prop where
  | ok (a : α) {t t' : State} (ht : HeapAgrees t t') : Res.Agrees (.ok a t) (.ok a t')
  | raised {t t' : State} (ht : HeapAgrees t t') : Res.Agrees (.raised t) (.raised t')
  | fault (f : Fault) : Res.Agrees (.fault f) (.fault f)

theorem Res.Agrees.bind {α β : Type} {r r' : Res α} {f : α → State → Res β} (hr : Res.Agrees r r')
    (hf : ∀ a t t', HeapAgrees t t' → Res.Agrees (f a t) (f a t')) : Res.Agrees (r.bind f) (r'.bind f) := by
  cases hr with
  | ok a ht => exact hf a _ _ ht
  | raised ht => exact .raised ht
  | fault f => exact .fault f

theorem HeapAgrees.hins (hs : HeapAgrees s s') (x : NodeIdx) : HeapAgrees (hins s x) (hins s' x) := by
  obtain ⟨heap, ha⟩ := hs
  refine .withHeap (siftUp (less s.node) s.hsize.toNat s.hsize.toNat (setSlotAt heap s.hsize.toNat x)) ?_
  have hsize : (s.hsize + 1#9).toNat ≤ s.hsize.toNat + 1 := by rw [BitVec.toNat_add]; exact Nat.mod_le _ _
  exact ((ha.setSlotAt_succ x).siftUp (Nat.lt_succ_self _)).mono hsize

theorem HeapAgrees.setNode (hs : HeapAgrees s s') (i : NodeIdx) (e : NodeEntry) :
    HeapAgrees (s.setNode i e) (s'.setNode i e) := by
  obtain ⟨heap, ha⟩ := hs
  exact .withHeap heap ha

theorem State.raise_withHeap (e : ErrCode) (info : Info) :
    (s.withHeap heap).raise e info = (s.raise e info).withHeap heap := by
  obtain ⟨hs, h⟩ | ⟨hs, h⟩ := State.raise_cases s e info
  · rw [h, State.raise_of_none _ _ (by exact hs)]; rfl
  · rw [h, State.raise_of_latched _ _ (by exact hs)]

theorem HeapAgrees.raise (hs : HeapAgrees s s') (e : ErrCode) (info : Info) :
    HeapAgrees (s.raise e info) (s'.raise e info) := by
  obtain ⟨heap, ha⟩ := hs
  rw [State.raise_withHeap]
  exact .withHeap heap (by simpa using ha)

theorem HeapAgrees.hext (hs : HeapAgrees s s') : Res.Agrees (hext s) (hext s') := by
  have hraise := hs.raise .emptyQueue 0#16
  obtain ⟨heap, ha⟩ := hs
  by_cases h0 : s.hsize = 0#9
  · rw [show Machine.hext s = _ from if_pos h0, show Machine.hext (s.withHeap heap) = _ from if_pos h0]
    exact .raised hraise
  · have hpos : s.hsize.toNat ≠ 0 := fun e => h0 (BitVec.eq_of_toNat_eq e)
    have hsize : (s.hsize - 1#9).toNat = s.hsize.toNat - 1 := by bv_omega
    have hbelow : AgreeBelow (s.hsize.toNat - 1) s.heap heap := ha.mono (by omega)
    have hheap : AgreeBelow (s.hsize.toNat - 1)
        (if s.hsize.toNat - 1 > 0 then siftDown (less s.node) (s.hsize.toNat - 1) (s.hsize.toNat - 1) 0
          (setSlotAt s.heap 0 (slotAt heap (s.hsize.toNat - 1))) else s.heap)
        (if s.hsize.toNat - 1 > 0 then siftDown (less s.node) (s.hsize.toNat - 1) (s.hsize.toNat - 1) 0
          (setSlotAt heap 0 (slotAt heap (s.hsize.toNat - 1))) else heap) := by
      by_cases hn : s.hsize.toNat - 1 > 0
      · rw [if_pos hn, if_pos hn]
        exact (hbelow.setSlotAt _).siftDown hn
      · rw [if_neg hn, if_neg hn]
        exact hbelow
    rw [show Machine.hext s = _ from if_neg h0, show Machine.hext (s.withHeap heap) = _ from if_neg h0]
    simp only [State.withHeap, ha 0 (by omega), ha (s.hsize.toNat - 1) (by omega)]
    exact .ok _ (.withHeap _ (hheap.mono hsize.le))

theorem HeapAgrees.insertLeaves (hs : HeapAgrees s s') (syms : List Sym) :
    (insertLeaves syms n s).1 = (insertLeaves syms n s').1 ∧
      HeapAgrees (insertLeaves syms n s).2 (insertLeaves syms n s').2 := by
  induction syms generalizing n s s' with
  | nil => exact ⟨rfl, hs⟩
  | cons sym syms ih =>
    have hfreq : s'.freqAt sym = s.freqAt sym := by cases hs; rfl
    simp only [Machine.insertLeaves, hfreq]
    split
    · exact ih hs
    · exact ih ((hs.setNode _ _).hins _)

theorem HeapAgrees.hsz (hs : HeapAgrees s s') : hsz s' = hsz s := by cases hs; rfl

theorem HeapAgrees.node (hs : HeapAgrees s s') : s'.node = s.node := by cases hs; rfl

theorem HeapAgrees.mergeLoop {rounds : Nat} (hs : HeapAgrees s s') :
    Res.Agrees (mergeLoop rounds n s) (mergeLoop rounds n s') := by
  induction rounds generalizing n s s' with
  | zero => exact .ok n hs
  | succ rounds ih =>
    simp only [Machine.mergeLoop, hs.hsz]
    split
    · refine hs.hext.bind fun a t t' ht => ht.hext.bind fun b u u' hu => ih ?_
      rw [hu.node]
      exact (hu.setNode _ _).hins _
    · exact .ok n hs

theorem mergeLeaves_agrees (hs : HeapAgrees s s') (syms : List Sym) :
    Res.Agrees (mergeLoop (hsz (insertLeaves syms n s).2) (insertLeaves syms n s).1 (insertLeaves syms n s).2)
      (mergeLoop (hsz (insertLeaves syms n s').2) (insertLeaves syms n s').1 (insertLeaves syms n s').2) := by
  obtain ⟨hn, hl⟩ := hs.insertLeaves (n := n) syms
  rw [← hn, hl.hsz]
  exact hl.mergeLoop

/-- BLD's body started with an empty heap reads no slot it has not written. -/
theorem buildTree_agrees (h0 : s.hsize = 0#9) (heap : Table NodeIdx) :
    Res.Agrees (buildTree s) (buildTree (s.withHeap heap)) := by
  have hs : HeapAgrees { s with node := [] } (({ s with node := [] } : State).withHeap heap) :=
    .withHeap heap fun k hk => by simp [h0] at hk
  refine (mergeLeaves_agrees hs allSyms).bind fun _ t t' ht => ht.hext.bind fun r u u' hu => ?_
  obtain ⟨heap, ha⟩ := hu
  exact .ok () (.withHeap heap ha)

/-- AppendBit neither reads nor writes HEAP. -/
theorem appendBits_withHeap (bs : List Bool) (s : State) :
    appendBits bs (s.withHeap heap) = (appendBits bs s).withHeap heap := by
  induction bs generalizing s with
  | nil => rfl
  | cons b bs ih =>
    have hb : appendBit (s.withHeap heap) b = (appendBit s b).withHeap heap := by
      by_cases h7 : s.nbits = 7#3
      · rw [appendBit_full h7, appendBit_full (by exact h7)]; rfl
      · rw [appendBit_room h7, appendBit_room (by exact h7)]; rfl
    rw [appendBits, hb, ih, appendBits]

/-- The piece of pseudocode's outcome with other contents of HEAP. -/
def Res.withHeap {α : Type} (heap : Table NodeIdx) : Res α → Res α
  | .ok a s => .ok a (s.withHeap heap)
  | .raised s => .raised (s.withHeap heap)
  | .fault f => .fault f

/-- WalkBit neither reads nor writes HEAP. -/
theorem walkBit_withHeap (s : State) (b : Bool) : walkBit (s.withHeap heap) b = (walkBit s b).withHeap heap := by
  simp only [walkBit, State.withHeap_node, State.withHeap_root, State.withHeap_cur, State.raise_withHeap]
  cases nodeAt? s.node s.root with
  | none => rfl
  | some r =>
    dsimp only
    split
    · split <;> rfl
    · cases nodeAt? s.node s.cur with
      | none => rfl
      | some c =>
        dsimp only
        cases nodeAt? s.node (c.child b) with
        | none => rfl
        | some e => dsimp only; split <;> rfl

theorem walkBits_withHeap (bs : List Bool) (s : State) :
    walkBits bs (s.withHeap heap) = (walkBits bs s).withHeap heap := by
  induction bs generalizing s with
  | nil => rfl
  | cons b bs ih =>
    simp only [walkBits, walkBit_withHeap, State.withHeap_rem]
    split
    · rfl
    · cases walkBit s b with
      | ok _ t => exact ih t
      | raised t => rfl
      | fault f => rfl

/-- Two commands ended alike, but for the contents of HEAP. -/
inductive SameButHeap : Result → Result → Prop where
  | next (t : State) (heap : Table NodeIdx) : SameButHeap (.next t) (.next (t.withHeap heap))
  | fault (f : Fault) : SameButHeap (.fault f) (.fault f)

theorem Res.Agrees.toResult {α : Type} {r r' : Res α} (h : Res.Agrees r r') : SameButHeap r.toResult r'.toResult := by
  obtain ⟨_, ⟨heap, _⟩⟩ | ⟨heap, _⟩ | f := h
  · exact .next _ _
  · exact .next _ _
  · exact .fault f

theorem Res.withHeap_toResult {α : Type} (r : Res α) : SameButHeap r.toResult (r.withHeap heap).toResult := by
  cases r with
  | ok a t => exact .next _ _
  | raised t => exact .next _ _
  | fault f => exact .fault f

theorem sameButHeap_raise (s : State) (heap : Table NodeIdx) (e : ErrCode) (info : Info) :
    SameButHeap (.next (s.raise e info)) (.next ((s.withHeap heap).raise e info)) := by
  rw [State.raise_withHeap]; exact .next _ _

theorem SameButHeap.ite {c : Prop} [Decidable c] {r₁ r₁' r₂ r₂' : Result} (h₁ : c → SameButHeap r₁ r₁')
    (h₂ : ¬ c → SameButHeap r₂ r₂') : SameButHeap (if c then r₁ else r₂) (if c then r₁' else r₂') := by
  split
  · exact h₁ ‹_›
  · exact h₂ ‹_›

/-- The checks before a command do not read HEAP (30_encoding R66). -/
theorem guarded_sameButHeap {i : Instr} {perform : State → Result}
    (hp : SameButHeap (perform s) (perform (s.withHeap heap))) :
    SameButHeap (guarded i s perform) (guarded i (s.withHeap heap) perform) := by
  simp only [guarded, State.withHeap_drops, State.withHeap_seqOK]
  split
  · exact .next _ _
  · split
    · exact sameButHeap_raise ..
    · split
      · exact sameButHeap_raise ..
      · exact hp

/-- No command sees what HEAP's slots hold between commands. -/
theorem exec_sameButHeap (i : Instr) (s : State) (heap : Table NodeIdx) :
    SameButHeap (exec i s) (exec i (s.withHeap heap)) := by
  cases i <;>
    simp only [exec, execNop, execClr, execSrd, execDrd, execCnt, execFwr, execFrd, execBld, execTwn, execTwf, execTcm,
      execTrn, execTrf, execGen, execCrl, execCrw, execEnc, execFls, execDln, execDec, execDnd] <;>
    refine guarded_sameButHeap ?_
  case nop | clr | srd | drd | frd | trn | trf | crl | crw | fwr | twn | twf | dln => exact .next _ heap
  case cnt => exact .ite (fun _ => sameButHeap_raise ..) fun _ => .next _ heap
  case tcm => exact .ite (fun _ => .next _ heap) fun _ => sameButHeap_raise ..
  case bld =>
    exact .ite (fun _ => sameButHeap_raise ..) fun _ =>
      .ite (fun _ => .fault _) fun h0 => (buildTree_agrees (not_not.1 h0) heap).toResult
  case gen =>
    simp only [State.withHeap_node, State.withHeap_root]
    cases codesOf s.node s.root with
    | ok codes => exact .next _ heap
    | error f => exact .fault f
  case enc sym =>
    refine .ite (fun _ => sameButHeap_raise ..) fun _ => ?_
    rw [show (s.withHeap heap).setMode .enc = (s.setMode .enc).withHeap heap from rfl, appendBits_withHeap]
    exact .next _ heap
  case fls => exact .ite (fun _ => .next _ heap) fun _ => .next _ heap
  case dec byte =>
    rw [walkBits_withHeap]
    exact Res.withHeap_toResult _
  case dnd => exact .ite (fun _ => sameButHeap_raise ..) fun _ => .next _ heap

end staleSlots

/-- Settles O30, by `exec_sameButHeap`: BLD, the only command that reads HEAP, starts from an empty heap and reads
slots below HSIZE only. -/
theorem staleHeapSlotsAreNeverSeen : Obligations.StaleHeapSlotsAreNeverSeen := by
  intro i s heap
  have h : SameButHeap (exec i s) (exec i { s with heap := heap }) := exec_sameButHeap i s heap
  refine ⟨fun t ht => ?_, fun f hf => ?_⟩
  · rw [ht] at h
    generalize exec i { s with heap := heap } = r at h
    cases h with
    | next t heap' => exact ⟨heap', rfl⟩
  · rw [hf] at h
    generalize exec i { s with heap := heap } = r at h
    cases h
    rfl

/-! ## Reset and CLR (10_state R29) -/

/-- CLR is performed in every state (40_control R81). -/
theorem exec_clr (s : State) : exec .clr s = .next s.clear :=
  guarded_always (i := .clr) (perform := fun s => .next s.clear) rfl rfl

/-- R29 leaves HEAP's slots, the streams and what the host does next open. -/
theorem atReset_update (heap : Table NodeIdx) (out : List Byte) (rsp : List Word) (inputs : List HostInput) :
    AtReset { State.reset with heap := heap, out := out, rsp := rsp, inputs := inputs } :=
  ⟨fun _ => rfl, fun _ _ => rfl, fun _ => rfl, rfl, rfl, ⟨rfl, rfl⟩, rfl, ⟨rfl, rfl⟩, ⟨rfl, rfl⟩, rfl, rfl⟩

theorem State.atReset_reset : AtReset State.reset := atReset_update [] [] [] []

theorem State.atReset_assertReset (s : State) : AtReset s.assertReset := atReset_update [] [] [] s.inputs

theorem State.atReset_clear (s : State) : AtReset s.clear := atReset_update s.heap s.out s.rsp s.inputs

/-- Settles O8: reset and CLR are the updates `assertReset` and `clear`. -/
theorem resetAndClearGiveTheResetValues : Obligations.ResetAndClearGiveTheResetValues := by
  refine ⟨State.atReset_reset, rfl, rfl, fun s rest hs => ?_, fun s => ?_⟩
  · exact ⟨s.takeInput.assertReset, by rw [step, hs], State.atReset_assertReset _, rfl, rfl, rfl⟩
  · exact ⟨s.clear, exec_clr s, State.atReset_clear s, rfl, rfl⟩

/-! ## The registers' part of the invariant (10_state R25) -/

section registers

/-- The clauses that `State.Inv` and `State.RegInv` share: 10_state R25 as far as it speaks of neither the tree's shape
nor the walker's place in it. -/
structure State.RegCore (s : State) : Prop where
  heapIdle : s.hsize = 0#9
  noTree : s.tv = false → s.root = Config.null ∧ s.cv = false ∧ s.mode = .idle
  noCodes : s.cv = false → ∀ sym, codeAt s.code sym = Code.absent
  encMode : s.mode = .enc → s.cv = true
  decMode : s.mode = .dec → s.tv = true
  packerIdle : s.mode ≠ .enc → s.nbits = 0#3 ∧ s.acc = 0#7
  packerFits : s.acc.toNat < 2 ^ s.nbits.toNat
  walkerIdle : s.mode ≠ .dec → s.cur = Config.null ∧ s.rem = 0#40
  latch : s.err = .none → s.einfo = 0#16

variable {i : Instr} {s t : State}

theorem AtReset.regCore (h : AtReset s) : s.RegCore where
  heapIdle := h.hsize
  noTree _ := ⟨h.root, h.flags.2, h.mode⟩
  noCodes _ := h.code
  encMode hm := by rw [h.mode] at hm; cases hm
  decMode hm := by rw [h.mode] at hm; cases hm
  packerIdle _ := h.packer.symm
  packerFits := by rw [h.packer.1, h.packer.2]; decide
  walkerIdle _ := h.walker
  latch _ := h.latch.2

/-- The sequence check is R189's table of legal commands (60_exceptions R189). -/
theorem State.seqOK_iff_legal : s.seqOK i.opcode = true ↔ Legal s i := by
  cases i <;> simp [State.seqOK, Instr.opcode, Legal]

theorem Passes.legal (hp : Passes i s) : Legal s i := State.seqOK_iff_legal.1 hp.seqOK

/-- AppendBit keeps the pending bits below 2 to their number (45_encode R143). -/
theorem appendBit_fits (h : s.acc.toNat < 2 ^ s.nbits.toNat) (b : Bool) :
    (appendBit s b).acc.toNat < 2 ^ (appendBit s b).nbits.toNat := by
  by_cases h7 : s.nbits = 7#3
  · rw [appendBit_full h7]; exact Nat.one_pos
  · rw [appendBit_room h7]
    have hn : (s.nbits + 1#3).toNat = s.nbits.toNat + 1 := by bv_omega
    have hb : b.toNat < 2 ^ (s.nbits.toNat + 1) :=
      (Bool.toNat_lt b).trans_le (Nat.le_self_pow (Nat.succ_ne_zero _) 2)
    have hacc : s.acc.toNat <<< 1 % 2 ^ 7 < 2 ^ (s.nbits.toNat + 1) := by
      rw [Nat.shiftLeft_eq]
      refine (Nat.mod_le _ _).trans_lt ?_
      rw [pow_succ]; omega
    simp only [hn, BitVec.toNat_or, BitVec.toNat_shiftLeft]
    refine Nat.or_lt_two_pow hacc ?_
    simpa [Nat.mod_eq_of_lt ((Bool.toNat_lt b).trans (by norm_num : 2 < 128))] using hb

theorem appendBits_fits (bs : List Bool) (h : s.acc.toNat < 2 ^ s.nbits.toNat) :
    (appendBits bs s).acc.toNat < 2 ^ (appendBits bs s).nbits.toNat := by
  induction bs generalizing s with
  | nil => exact h
  | cons b bs ih => exact ih (appendBit_fits h b)

/-- What every WalkBit keeps, DEC keeps (46_decode R151). -/
theorem walkBits_preserves {P : State → Prop}
    (hok : ∀ s t b, s.rem ≠ 0#40 → P s → walkBit s b = .ok () t → P t)
    (hraise : ∀ s e info, e ≠ ErrCode.none → P s → P (s.raise e info)) {bs : List Bool} (hs : P s)
    (h : walkBits bs s = .ok () t ∨ walkBits bs s = .raised t) : P t := by
  induction bs generalizing s with
  | nil => obtain ⟨⟨⟩⟩ | ⟨⟨⟩⟩ := h; exact hs
  | cons b bs ih =>
    by_cases h0 : s.rem = 0#40
    · simp only [walkBits, if_pos h0] at h
      obtain ⟨⟨⟩⟩ | ⟨⟨⟩⟩ := h; exact hs
    · simp only [walkBits, if_neg h0] at h
      cases hw : walkBit s b with
      | ok _ u =>
        rw [hw] at h
        exact ih (hok s u b h0 hs hw) h
      | raised u =>
        rw [hw] at h
        obtain ⟨⟨⟩⟩ | ⟨⟨⟩⟩ := h
        obtain ⟨-, ⟨-, -, rfl⟩ | ⟨-, -, -, rfl⟩⟩ := walkBit_raised hw
        · exact hraise s _ _ (by decide) hs
        · exact hraise s _ _ (by decide) hs
      | fault f =>
        rw [hw] at h
        obtain ⟨⟨⟩⟩ | ⟨⟨⟩⟩ := h

theorem State.RegCore.raise (h : s.RegCore) {e : ErrCode} {info : Info} (he : e ≠ .none) :
    (s.raise e info).RegCore := by
  obtain ⟨-, hr⟩ | ⟨-, hr⟩ := State.raise_cases s e info
  · rw [hr]; exact { h with latch := fun hn => absurd hn he }
  · rwa [hr]

/-- A WalkBit on an open decode keeps the registers' clauses. -/
theorem State.RegCore.walkBit {b : Bool} (h : s.RegCore) (hm : s.mode = .dec) (hw : walkBit s b = .ok () t) :
    t.RegCore := by
  obtain ⟨syms, ht⟩ := walkBit_frame hw
  rw [ht]
  exact { h with walkerIdle := fun hn => absurd hm hn }

/-- Every command keeps the registers' clauses. -/
theorem State.RegCore.effect (h : s.RegCore) (hp : Passes i s) (he : Effect s i t) : t.RegCore := by
  cases he with
  | nop => exact h
  | clr => exact (State.atReset_clear s).regCore
  | read | cnt | fwr | twn | twf => exact { h with }
  | bld | tcm => exact { h with noTree := nofun, decMode := fun _ => rfl }
  | gen =>
    obtain ⟨htv, hm⟩ := hp.legal
    exact { h with
      noTree := fun hf => absurd (htv.symm.trans hf) nofun
      noCodes := nofun
      encMode := fun _ => rfl }
  | enc sym =>
    obtain ⟨hcv, hm⟩ := hp.legal
    have hfits := appendBits_fits (s := s.setMode .enc) (codeAt s.code sym).bits h.packerFits
    obtain ⟨acc, nbits, bytes, hb⟩ := appendBits_frame (codeAt s.code sym).bits (s.setMode .enc)
    rw [hb] at hfits ⊢
    exact { h with
      noTree := fun hf => absurd (hcv.symm.trans (h.noTree hf).2.1) nofun
      encMode := fun _ => hcv
      decMode := nofun
      packerIdle := fun hf => absurd rfl hf
      packerFits := hfits
      walkerIdle := fun _ => h.walkerIdle (by rcases hm with hm | hm <;> rw [hm] <;> decide) }
  | flsEmpty h0 =>
    have hm : s.mode ≠ .dec := by rcases hp.legal.2 with hm | hm <;> rw [hm] <;> decide
    have hacc : s.acc = 0#7 := by
      have := h.packerFits
      rw [h0] at this
      exact BitVec.eq_of_toNat_eq (Nat.lt_one_iff.1 this)
    exact { h with
      noTree := fun hf => ⟨(h.noTree hf).1, (h.noTree hf).2.1, rfl⟩
      encMode := nofun
      decMode := nofun
      packerIdle := fun _ => ⟨h0, hacc⟩
      walkerIdle := fun _ => h.walkerIdle hm }
  | flsPending =>
    have hm : s.mode ≠ .dec := by rcases hp.legal.2 with hm | hm <;> rw [hm] <;> decide
    exact { h with
      noTree := fun hf => ⟨(h.noTree hf).1, (h.noTree hf).2.1, rfl⟩
      encMode := nofun
      decMode := nofun
      packerIdle := fun _ => ⟨rfl, rfl⟩
      packerFits := Nat.one_pos
      walkerIdle := fun _ => h.walkerIdle hm }
  | dln =>
    obtain ⟨htv, hm⟩ := hp.legal
    exact { h with
      noTree := fun hf => absurd (htv.symm.trans hf) nofun
      encMode := nofun
      decMode := fun _ => htv
      packerIdle := fun _ => h.packerIdle (by rw [hm]; decide)
      walkerIdle := fun hf => absurd rfl hf }
  | dec byte hw =>
    have hm : s.mode = .dec := hp.legal
    refine (walkBits_preserves (P := fun s => s.RegCore ∧ s.mode = .dec) ?_ ?_ ⟨h, hm⟩ hw).1
    · exact fun s t b _ ⟨h, hm⟩ hw => ⟨h.walkBit hm hw, by obtain ⟨_, ht⟩ := walkBit_frame hw; rw [ht]; exact hm⟩
    · exact fun s e info he ⟨h, hm⟩ => ⟨h.raise he, by rwa [State.raise_mode]⟩
  | dnd h0 =>
    have hm : s.mode ≠ .enc := by rw [show s.mode = .dec from hp.legal]; decide
    exact { h with
      noTree := fun hf => ⟨(h.noTree hf).1, (h.noTree hf).2.1, rfl⟩
      encMode := nofun
      decMode := nofun
      packerIdle := fun _ => h.packerIdle hm
      walkerIdle := fun _ => ⟨rfl, h0⟩ }

/-- What is said of the walker's place while MODE = DEC is kept by every command if it holds at the root and WalkBit
keeps it (10_state R13, 46_decode R150 to R153). -/
theorem Effect.walker {P : State → Prop}
    (hcongr : ∀ {s t : State}, t.node = s.node → t.root = s.root → t.cur = s.cur → t.rem = s.rem → P s → P t)
    (hroot : ∀ {s : State}, s.cur = s.root → P s)
    (hbit : ∀ {s t : State} {b : Bool}, s.rem ≠ 0#40 → P s → Machine.walkBit s b = .ok () t → P t)
    (hp : Passes i s) (hreg : s.RegCore) (h : s.mode = .dec → P s) (he : Effect s i t) (hm : t.mode = .dec) : P t := by
  cases he with
  | nop => exact h hm
  | read | cnt | fwr | gen => exact hcongr (s := s) rfl rfl rfl rfl (h hm)
  | clr | flsEmpty | flsPending | dnd => cases hm
  | bld | twn | twf | tcm =>
    have htv : s.tv = false := hp.legal
    exact absurd ((hreg.noTree htv).2.2.symm.trans hm) nofun
  | enc sym =>
    obtain ⟨acc, nbits, bytes, hb⟩ := appendBits_frame (codeAt s.code sym).bits (s.setMode .enc)
    rw [hb] at hm
    cases hm
  | dln => exact hroot rfl
  | dec byte hw =>
    exact walkBits_preserves (fun _ _ _ hrem h hw => hbit hrem h hw)
      (fun s e info _ h => hcongr (by simp) (by simp) (by simp) (by simp) h) (h hp.legal) hw

end registers

/-! ## The statements on the register invariant -/

section regInv

variable {i : Instr} {s t : State}

theorem State.RegInv.core (h : s.RegInv) : s.RegCore := { h with }

/-- R153's "when REM = 0, CUR = ROOT always", with the single-leaf tree, on which CUR never moves. -/
def State.AtRootWhenDone (s : State) : Prop := s.rem = 0#40 ∨ (nodeAt s.node s.root).leaf = true → s.cur = s.root

theorem State.RegCore.regInv (h : s.RegCore) (hw : s.mode = .dec → s.AtRootWhenDone) : s.RegInv :=
  { h with walkerAtRoot := hw }

/-- A WalkBit leaves CUR at ROOT where it emits, and REM as it is where it moves (46_decode R152, R153). -/
theorem State.AtRootWhenDone.walkBit {b : Bool} (h : s.AtRootWhenDone) (hrem : s.rem ≠ 0#40)
    (hw : walkBit s b = .ok () t) : t.AtRootWhenDone := by
  obtain ⟨-, ⟨hl, -, rfl⟩ | ⟨hl, -, -, ⟨-, rfl⟩ | ⟨-, rfl⟩⟩⟩ := walkBit_ok hw
  · exact fun _ => h (.inr hl)
  · exact fun _ => rfl
  · rintro (h0 | h1)
    · exact absurd h0 hrem
    · exact absurd (hl.symm.trans h1) nofun

theorem State.RegInv.raise (h : s.RegInv) {e : ErrCode} {info : Info} (he : e ≠ .none) : (s.raise e info).RegInv :=
  (h.core.raise he).regInv fun hm => by
    simp only [State.AtRootWhenDone, State.raise_rem, State.raise_node, State.raise_root, State.raise_cur]
    exact h.walkerAtRoot (by simpa using hm)

theorem State.RegInv.effect (h : s.RegInv) (hp : Passes i s) (he : Effect s i t) : t.RegInv :=
  (h.core.effect hp he).regInv <| he.walker
    (fun hn hr hc hrem h => by simpa only [State.AtRootWhenDone, hn, hr, hc, hrem] using h) (fun hc _ => hc)
    (fun hrem h hw => h.walkBit hrem hw) hp h.core h.walkerAtRoot

end regInv

/-- Settles O59, by `step_preserves`. -/
theorem registerInvariantIsKept : Obligations.RegisterInvariantIsKept := fun _ _ =>
  step_preserves (fun _ h => { h with }) (fun s _ => (State.atReset_assertReset s).regCore.regInv nofun)
    (fun _ _ _ he h => h.raise he) fun _ _ _ hp he h => h.effect hp he

/-! ## The invariant (10_state R25) -/

section inv

variable {i : Instr} {s t : State}

theorem State.Inv.core (h : s.Inv) : s.RegCore := { h with }

/-- Item 6 with MODE = DEC: the walker stands at the root or on an internal node a path leads to. -/
def State.OnPath (s : State) : Prop :=
  s.cur = s.root ∨ ((nodeAt s.node s.cur).leaf = false ∧ ∃ bits, follow s.node s.root bits = some s.cur)

/-- The clauses of `State.Inv` that speak of the tree and its codes (10_state R25 items 2, 3 and 8). -/
structure State.TreeCore (s : State) : Prop where
  tree : s.tv = true → proper s.node s.root = true
  codes : s.cv = true → s.tv = true ∧ IsCodeTable s.node s.root s.code
  codeFits : ∀ sym, (codeAt s.code sym).val.toNat < 2 ^ (codeAt s.code sym).len.toNat

theorem State.Inv.treeCore (h : s.Inv) : s.TreeCore := { h with }

theorem State.Inv.of_parts (hreg : s.RegCore) (htree : s.TreeCore) (hwalk : s.mode = .dec → s.OnPath)
    (hmem : s.memoryWf = true) : s.Inv :=
  { hreg, htree with walkerOpen := hwalk, memory := hmem }

/-- With the tables of NODE and CODE at their reset values, and no tree, the clauses on the tree hold. -/
theorem AtReset.treeCore (h : AtReset s) : s.TreeCore where
  tree ht := absurd (h.flags.1.symm.trans ht) nofun
  codes hc := absurd (h.flags.2.symm.trans hc) nofun
  codeFits sym := by rw [h.code sym]; decide

theorem AtReset.inv (h : AtReset s) (hmem : s.memoryWf = true) : s.Inv :=
  .of_parts h.regCore h.treeCore (fun hm => absurd (h.mode.symm.trans hm) nofun) hmem

theorem State.memoryWf_clear (h : s.memoryWf = true) : s.clear.memoryWf = true :=
  State.memoryWf_iff.2 ⟨rfl, rfl, rfl, (State.memoryWf_iff.1 h).2.2.2⟩

theorem State.Inv.raise (h : s.Inv) {e : ErrCode} {info : Info} (he : e ≠ .none) : (s.raise e info).Inv := by
  obtain ⟨-, hr⟩ | ⟨-, hr⟩ := State.raise_cases s e info
  · rw [hr]; exact { h with latch := fun hn => absurd hn he }
  · rwa [hr]

/-- Every command keeps the tables' canonical form (log 10). -/
theorem Effect.memoryWf (he : Effect s i t) (hw : i.wf = true) (h : s.memoryWf = true) : t.memoryWf = true := by
  obtain ⟨hfreq, hnode, hcode, hheap⟩ := State.memoryWf_iff.1 h
  cases he with
  | nop | read | tcm | flsEmpty | flsPending | dln | dnd => exact h
  | clr => exact State.memoryWf_clear h
  | cnt sym | fwr sym => exact State.memoryWf_iff.2 ⟨State.setFreq_wf sym _ hfreq, hnode, hcode, hheap⟩
  | bld _ _ _ _ _ hm => exact hm h
  | twn idx | twf idx =>
    have hidx : idx ≠ Config.null := by simpa [Instr.wf] using hw
    exact State.memoryWf_iff.2 ⟨hfreq, setNodeAt_wf _ hidx hnode, hcode, hheap⟩
  | gen codes hc => exact State.memoryWf_iff.2 ⟨hfreq, hnode, codesOf_wf hc, hheap⟩
  | enc sym =>
    obtain ⟨acc, nbits, bytes, hb⟩ := appendBits_frame (codeAt s.code sym).bits (s.setMode .enc)
    rw [hb]; exact h
  | dec byte hw =>
    obtain ⟨syms, ht⟩ := walkBits_frame hw
    rw [ht]; exact h

/-- Every command keeps the clauses on the tree and its codes. -/
theorem State.TreeCore.effect (h : s.TreeCore) (hreg : s.RegCore) (hp : Passes i s) (he : Effect s i t) :
    t.TreeCore := by
  cases he with
  | nop | read | cnt | fwr | flsEmpty | flsPending | dln | dnd => exact { h with }
  | clr => exact (State.atReset_clear s).treeCore
  | bld node heap root _ ht =>
    have htv : s.tv = false := hp.legal
    obtain ⟨V, Y, ht, hV, hY⟩ := ht
    have hYn : Y.Nodup := hY.nodup_iff.2 (nodup_allSyms.filter _)
    exact { h with
      tree := fun _ => proper_iff.2 ⟨V, Y, ht, hV, hYn⟩
      codes := fun hc => absurd ((hreg.noTree htv).2.1.symm.trans hc) nofun }
  | twn | twf =>
    have htv : s.tv = false := hp.legal
    exact { h with
      tree := fun ht => absurd (htv.symm.trans ht) nofun
      codes := fun hc => absurd ((hreg.noTree htv).2.1.symm.trans hc) nofun }
  | tcm idx hproper =>
    have htv : s.tv = false := hp.legal
    exact { h with
      tree := fun _ => hproper
      codes := fun hc => absurd ((hreg.noTree htv).2.1.symm.trans hc) nofun }
  | gen codes hc =>
    have htv : s.tv = true := hp.legal.1
    obtain ⟨codes', hc', htable⟩ := codesOf_spec (h.tree htv)
    obtain rfl : codes' = codes := Except.ok.inj (hc'.symm.trans hc)
    exact { h with codes := fun _ => ⟨htv, htable⟩, codeFits := htable.codeFits (h.tree htv) }
  | enc sym =>
    obtain ⟨acc, nbits, bytes, hb⟩ := appendBits_frame (codeAt s.code sym).bits (s.setMode .enc)
    rw [hb]; exact { h with }
  | dec byte hw =>
    obtain ⟨syms, ht⟩ := walkBits_frame hw
    rw [ht]; exact { h with }

/-- A WalkBit leaves the walker on a path from the root (46_decode R152). -/
theorem State.OnPath.walkBit {b : Bool} (h : s.OnPath) (hw : walkBit s b = .ok () t) : t.OnPath := by
  obtain ⟨hroot, ⟨hl, -, rfl⟩ | ⟨hl, hcur, hchild, ⟨-, rfl⟩ | ⟨hl', rfl⟩⟩⟩ := walkBit_ok hw
  · exact h
  · exact .inl rfl
  · have hpath : (nodeAt s.node s.cur).leaf = false ∧ ∃ bits, follow s.node s.root bits = some s.cur := by
      rcases h with h | h
      · rw [h]; exact ⟨hl, [], if_neg hroot⟩
      · exact h
    obtain ⟨hleaf, bits, hf⟩ := hpath
    exact .inr ⟨hl', bits ++ [b], follow_snoc hf hleaf hchild⟩

/-- A walker on a path from a root that is a node never reads NODE[511] (log 5). -/
theorem State.OnPath.walkBit_ne_fault (h : s.OnPath) (hroot : s.root ≠ Config.null) (b : Bool) (f : Fault) :
    Machine.walkBit s b ≠ .fault f := by
  have hcur : s.cur ≠ Config.null := by
    obtain hc | ⟨-, bits, hf⟩ := h
    · rw [hc]; exact hroot
    · exact follow_ne_null hf
  simp only [Machine.walkBit, nodeAt?_of_ne hroot, nodeAt?_of_ne hcur]
  split
  · split <;> nofun
  · split
    · nofun
    · split <;> nofun

theorem State.Inv.effect (h : s.Inv) (hp : Passes i s) (he : Effect s i t) : t.Inv :=
  .of_parts (h.core.effect hp he) (h.treeCore.effect h.core hp he)
    (he.walker (fun hn hr hc _ h => by simpa only [State.OnPath, hn, hr, hc] using h) .inl (fun _ h hw => h.walkBit hw)
      hp h.core h.walkerOpen)
    (he.memoryWf hp.wf h.memory)

/-- DEC stops in no state that meets the invariant (log 5). -/
theorem walkBits_ne_fault (bs : List Bool) (h : s.OnPath) (hroot : s.root ≠ Config.null) (f : Fault) :
    walkBits bs s ≠ .fault f := by
  induction bs generalizing s with
  | nil => nofun
  | cons b bs ih =>
    simp only [walkBits]
    split
    · nofun
    · rw [Ne, Res.bind_eq_fault, not_or]
      refine ⟨h.walkBit_ne_fault hroot b f, fun ⟨_, u, hw, hf⟩ => ih (h.walkBit hw) ?_ hf⟩
      obtain ⟨_, hu⟩ := walkBit_frame hw
      rw [hu]; exact hroot

/-- No command stops in a state that meets the invariant (log 5, 6, 7). -/
theorem State.Inv.not_stops (h : s.Inv) (hp : Passes i s) (f : Fault) : ¬ Stops s i f := by
  intro hs
  cases hs with
  | bld h0 => exact h0 h.heapIdle
  | gen hf =>
    obtain ⟨codes, hc, -⟩ := codesOf_spec (h.tree hp.legal.1)
    rw [hc] at hf; cases hf
  | dec byte hf =>
    have hm : s.mode = .dec := hp.legal
    obtain ⟨V, Y, ht, -⟩ := proper_iff.1 (h.tree (h.decMode hm))
    exact walkBits_ne_fault _ (h.walkerOpen hm) ht.root_ne_null f hf

/-- A step completes where the command executed in it does. -/
theorem step_completes (h : ∀ i, ∃ t, exec i s.takeInput = .next t) : ∃ t, step s = .next t := by
  obtain ⟨-, h⟩ | ⟨_, -, h⟩ | ⟨_, _, i, -, -, hi⟩ | ⟨_, _, _, -, -, h⟩ := step_cases (s := s) rfl
  · exact ⟨_, h⟩
  · exact ⟨_, h⟩
  · obtain ⟨t, ht⟩ := h i
    exact ⟨t, hi.trans ht⟩
  · exact ⟨_, h⟩

theorem State.Inv.takeInput (h : s.Inv) : s.takeInput.Inv := { h with }

/-- A step keeps the invariant. -/
theorem State.Inv.step (h : s.Inv) (hs : step s = .next t) : t.Inv :=
  step_preserves (fun _ h => h.takeInput) (fun s _ => (State.atReset_assertReset s).inv rfl)
    (fun _ _ _ he h => h.raise he) (fun _ _ _ hp he h => h.effect hp he) h hs

end inv

/-- Settles O57: the reset state has all its registers and tables at the values of R29. -/
theorem resetStateSatisfiesTheInvariant : Obligations.ResetStateSatisfiesTheInvariant :=
  ⟨State.atReset_reset.inv State.reset_memoryWf, State.atReset_reset.regCore.regInv nofun⟩

/-- Settles O58: no command stops in a state that meets the invariant, and every effect keeps it. BLD's tree is proper
by `buildTree_spec`, GEN's table is the tree's by `codesOf_spec`, DEC stays on a path by `State.OnPath.walkBit`. -/
theorem everyStepCompletesAndKeepsTheInvariant : Obligations.EveryStepCompletesAndKeepsTheInvariant := by
  intro s h
  obtain ⟨t, ht⟩ := step_completes (s := s) fun i => exec_completes fun hp f => h.takeInput.not_stops hp f
  exact ⟨t, ht, h.step ht⟩

end Sys2Proof.Machine

/-! # Proofs of the statements on steps, streams and memories (20_memory)

First what a step answers to an offered word, then the frames of the two output streams and of the tables in use, then
the bits the packer emits. -/

namespace Sys2Proof.Machine

/-! ## A step executes the next command (20_memory R43) -/

section nextCommand

variable {s : State} {w : Word} {rest : List HostInput}

theorem State.takeInput_of_inputs {x : HostInput} (h : s.inputs = x :: rest) :
    s.takeInput = { s with inputs := rest } := by
  rw [State.takeInput, h, List.tail_cons]

/-- A word the decoder accepts is executed on the state without it (30_encoding R66). -/
theorem step_of_ok {i : Instr} (hs : s.inputs = .command w :: rest) (hd : decode w = .ok i) :
    step s = exec i { s with inputs := rest } := by
  rw [← State.takeInput_of_inputs hs]
  simp only [step, hs, hd]

/-- A word the decoder refuses raises IllegalCommandError on the state without it (30_encoding R67). -/
theorem step_of_error {e : DecodeError} (hs : s.inputs = .command w :: rest) (hd : decode w = .error e) :
    step s = .next (State.raise { s with inputs := rest } .illegalCommand (infoOfOpcode (opcodeByte w))) := by
  rw [← State.takeInput_of_inputs hs, ← executeIllFormed_eq]
  simp only [step, hs, hd]

theorem tableWord_toNat (w : Word) : tableWord 64 w.toNat = w := by
  rw [tableWord, Nat.mod_eq_of_lt w.isLt, BitVec.ofNat_toNat, BitVec.setWidth_eq]

theorem step_withFetchWord (s : State) {i : Instr} (hd : decode w = .ok i) :
    step (s.withFetchWord 64 w.toNat) = exec i s := by
  rw [State.withFetchWord, tableWord_toNat, step_offerNext, hd]

/-- NOP changes nothing (40_control R80). -/
theorem exec_nop (s : State) : exec .nop s = .next s :=
  guarded_always (i := .nop) (perform := .next) rfl rfl

end nextCommand

/-- Settles O7: each clause is an equation of `step` for one head of `inputs`. -/
theorem stepExecutesTheNextCommand : Obligations.StepExecutesTheNextCommand := by
  refine ⟨fun s w rest i => step_of_ok, fun s w rest e hs hd => ?_, fun s hs => ?_, fun s rest hs => ?_,
    fun s w i => step_withFetchWord s, fun s => ?_⟩
  · rw [step_of_error hs hd, State.raise]
    split <;> rfl
  · simp only [step, hs]
  · simp only [step, hs, State.takeInput_of_inputs hs]
    rfl
  · exact (step_withFetchWord (w := 0#64) s rfl).trans (exec_nop s)

/-! ## The tables' canonical form (log 10) -/

/-- Settles O60, by `step_preserves`. -/
theorem canonicalTablesAreKept : Obligations.CanonicalTablesAreKept :=
  ⟨State.reset_memoryWf, fun _ _ => step_preserves (fun _ h => h) (fun _ _ => State.reset_memoryWf)
    (fun s e info _ h => by simpa [State.memoryWf] using h) fun _ _ _ hp he h => he.memoryWf hp.wf h⟩

/-! ## The two output streams (20_memory R44, R45) -/

section streams

variable {i : Instr} {s t : State}

/-- A well-formed read command is performed in every state, and its effect is its response (20_memory R45). -/
theorem exec_read (hw : i.wf = true) (hi : i.opcode ∈ readOpcodes) : ∃ w, exec i s = .next (s.respond w) := by
  cases i with
  | srd | drd | frd | trn | trf | crl | crw =>
    simp only [exec, execSrd, execDrd, execFrd, execTrn, execTrf, execCrl, execCrw]
    rw [guarded_always rfl hw]
    exact ⟨_, rfl⟩
  | _ => simp [readOpcodes, Instr.opcode] at hi

/-- Only a read command that passes decode responds (20_memory R45). -/
theorem exec_rsp (h : exec i s = .next t) (hi : i.opcode ∉ readOpcodes ∨ i.wf = false) : t.rsp = s.rsp := by
  obtain ⟨e, info, -, rfl⟩ | ⟨hpass, heff⟩ := exec_cases h
  · exact State.raise_rsp ..
  · cases heff with
    | read w hr =>
      rcases hi with hi | hi
      · exact absurd hr hi
      · exact absurd (hi.symm.trans hpass.wf) nofun
    | enc sym =>
      obtain ⟨acc, nbits, bytes, hb⟩ := appendBits_frame (codeAt s.code sym).bits (s.setMode .enc)
      rw [hb]; rfl
    | dec byte hw =>
      obtain ⟨syms, ht⟩ := walkBits_frame hw
      rw [ht]
    | _ => rfl

/-- `out` only grows, and only the packer and the walker append to it (20_memory R44). -/
theorem exec_out (h : exec i s = .next t) :
    t.out = s.out ∨ i.opcode ∈ [.enc, .fls, .dec] ∧ ∃ bytes, t.out = s.out ++ bytes := by
  obtain ⟨e, info, -, rfl⟩ | ⟨-, heff⟩ := exec_cases h
  · exact .inl (State.raise_out ..)
  · cases heff with
    | enc sym =>
      obtain ⟨acc, nbits, bytes, hb⟩ := appendBits_frame (codeAt s.code sym).bits (s.setMode .enc)
      exact .inr ⟨by simp [Instr.opcode], bytes, by rw [hb]; rfl⟩
    | flsPending => exact .inr ⟨by simp [Instr.opcode], _, rfl⟩
    | dec byte hw =>
      obtain ⟨syms, ht⟩ := walkBits_frame hw
      exact .inr ⟨by simp [Instr.opcode], syms, by rw [ht]⟩
    | _ => exact .inl rfl

end streams

/-- Settles O14, by `exec_read` and `exec_rsp`. -/
theorem eachReadCommandAppendsExactlyOneWord : Obligations.EachReadCommandAppendsExactlyOneWord :=
  fun _ _ => ⟨exec_read, fun hi _ h => exec_rsp h hi⟩

/-- Settles O15, by `exec_out`. -/
theorem onlyPackerAndWalkerAppendBytes : Obligations.OnlyPackerAndWalkerAppendBytes := by
  intro i s t h
  obtain ho | ⟨hi, hb⟩ := exec_out h
  · exact ⟨⟨[], by rw [ho, List.append_nil]⟩, fun _ => ho⟩
  · exact ⟨hb, fun hn => absurd hi hn⟩

/-! ## A tree in use (20_memory R53) -/

section inUse

variable {i : Instr} {s t : State}

/-- CLR's word is the only one that decodes to CLR (40_control R81). -/
theorem eq_clrWord_of_decode {w : Word} (h : decode w = .ok .clr) : w = clrWord := by
  have hop : opcodeByte w = Opcode.clr.code := Opcode.ofCode_eq_some.1 (decode_opcode h)
  obtain ⟨op, hop', hzero, -, -⟩ := decode_eq_ok h
  obtain rfl : Opcode.clr = op := Option.some.inj ((decode_opcode h).symm.trans hop')
  have hfield : operandField w = 0#56 := by simpa [Opcode.format, Format.usedBits] using hzero
  rw [← opcodeByte_append_operandField w, hop, hfield]
  rfl

/-- `t` has the tree of `s`, and also its codes where MODE of `s` is not IDLE (20_memory R53). -/
structure KeepsTree (s t : State) : Prop where
  freq : t.freq = s.freq
  node : t.node = s.node
  root : t.root = s.root
  tv : t.tv = s.tv
  codes : s.mode ≠ .idle → t.code = s.code ∧ t.cv = s.cv

theorem keepsTree_raise (s : State) (e : ErrCode) (info : Info) : KeepsTree s (s.raise e info) := by
  constructor <;> simp

/-- With a tree, no accepted command but CLR writes it, and GEN is accepted in MODE IDLE only
(60_exceptions R189). -/
theorem Effect.keepsTree (he : Effect s i t) (hp : Passes i s) (htv : s.tv = true) (hi : i ≠ .clr) :
    KeepsTree s t := by
  cases he with
  | clr => exact absurd rfl hi
  | cnt | fwr | bld | twn | twf | tcm => exact absurd (htv.symm.trans hp.legal) nofun
  | gen => exact ⟨rfl, rfl, rfl, rfl, fun hm => absurd hp.legal.2 hm⟩
  | nop | read | flsEmpty | flsPending | dln | dnd => exact ⟨rfl, rfl, rfl, rfl, fun _ => ⟨rfl, rfl⟩⟩
  | enc sym =>
    obtain ⟨acc, nbits, bytes, hb⟩ := appendBits_frame (codeAt s.code sym).bits (s.setMode .enc)
    rw [hb]; exact ⟨rfl, rfl, rfl, rfl, fun _ => ⟨rfl, rfl⟩⟩
  | dec byte hw =>
    obtain ⟨syms, ht⟩ := walkBits_frame hw
    rw [ht]; exact ⟨rfl, rfl, rfl, rfl, fun _ => ⟨rfl, rfl⟩⟩

theorem exec_keepsTree (h : exec i s = .next t) (htv : s.tv = true) (hi : i ≠ .clr) : KeepsTree s t := by
  obtain ⟨e, info, -, rfl⟩ | ⟨hpass, heff⟩ := exec_cases h
  · exact keepsTree_raise s e info
  · exact heff.keepsTree hpass htv hi

theorem step_keepsTree {w : Word} (h : step (s.offerNext w) = .next t) (htv : s.tv = true) (hw : w ≠ clrWord) :
    KeepsTree s t := by
  rw [step_offerNext] at h
  cases hd : decode w with
  | ok i =>
    rw [hd] at h
    exact exec_keepsTree h htv fun hi => hw (eq_clrWord_of_decode (hi ▸ hd))
  | error e =>
    rw [hd, executeIllFormed_eq] at h
    cases h
    exact keepsTree_raise ..

end inUse

/-- Settles O16, by `step_keepsTree`. -/
theorem treeAndCodesAreImmutableInUse : Obligations.TreeAndCodesAreImmutableInUse := by
  intro s t w htv hw h
  obtain ⟨hfreq, hnode, hroot, ht, hcodes⟩ := step_keepsTree h htv hw
  exact ⟨hfreq, hnode, hroot, ht.trans htv, hcodes⟩

/-! ## The bits of a stream (20_memory R47, R48) -/

section bits

variable {w w' : Nat}

theorem bitsDown_congr {v : BitVec w} {v' : BitVec w'} {n : Nat} (h : ∀ k < n, v.getLsbD k = v'.getLsbD k) :
    bitsDown v n = bitsDown v' n := by
  induction n with
  | zero => rfl
  | succ n ih => rw [bitsDown, bitsDown, h n n.lt_succ_self, ih fun k hk => h k (hk.trans n.lt_succ_self)]

/-- The low `n + m` bits are the `n` bits above the low `m`, then the low `m`. -/
theorem bitsDown_add (v : BitVec w) (n m : Nat) : bitsDown v (n + m) = bitsDown (v >>> m) n ++ bitsDown v m := by
  induction n with
  | zero => rw [Nat.zero_add]; rfl
  | succ n ih =>
    rw [Nat.add_right_comm, bitsDown, bitsDown, ih, BitVec.getLsbD_ushiftRight, Nat.add_comm m n, List.cons_append]

/-- A byte's bits (20_memory R47). -/
theorem byteBits_eq_bitsDown (b : Byte) : byteBits b = bitsDown b 8 := rfl

theorem getLsbD_append_ofBool_zero (v : BitVec w) (b : Bool) : (v ++ BitVec.ofBool b).getLsbD 0 = b := by
  rw [BitVec.getLsbD_append, if_pos Nat.one_pos, BitVec.getLsbD_ofBool]
  simp

theorem getLsbD_append_ofBool_succ (v : BitVec w) (b : Bool) (k : Nat) :
    (v ++ BitVec.ofBool b).getLsbD (k + 1) = v.getLsbD k := by
  rw [BitVec.getLsbD_append, if_neg (by omega), Nat.add_sub_cancel]

/-- A bit below a value joins its bits at the end. -/
theorem bitsDown_append_ofBool (v : BitVec w) (b : Bool) (n : Nat) :
    bitsDown (v ++ BitVec.ofBool b) (n + 1) = bitsDown v n ++ [b] := by
  rw [bitsDown_add, bitsDown, getLsbD_append_ofBool_zero]
  congr 1
  refine bitsDown_congr fun k _ => ?_
  rw [BitVec.getLsbD_ushiftRight, Nat.add_comm 1 k, getLsbD_append_ofBool_succ]

theorem bitsDown_zero (n : Nat) : bitsDown (0#w) n = List.replicate n false := by
  induction n with
  | zero => rfl
  | succ n ih => rw [bitsDown, ih, BitVec.getLsbD_zero, List.replicate_succ]

/-- A value shifted up has zeros below its bits. -/
theorem bitsDown_shiftLeft (v : BitVec w) {n m : Nat} (h : n + m ≤ w) :
    bitsDown (v <<< m) (n + m) = bitsDown v n ++ List.replicate m false := by
  rw [bitsDown_add, ← bitsDown_zero (w := w)]
  congr 1
  · refine bitsDown_congr fun k hk => ?_
    rw [BitVec.getLsbD_ushiftRight, BitVec.getLsbD_shiftLeft, decide_eq_true (by omega : m + k < w),
      decide_eq_false (by omega : ¬ m + k < m), Nat.add_sub_cancel_left]
    rfl
  · refine bitsDown_congr fun k hk => ?_
    simp [hk]

theorem bitsDown_setWidth (v : BitVec w) {n : Nat} (h : n ≤ w') : bitsDown (v.setWidth w') n = bitsDown v n :=
  bitsDown_congr fun k hk => by simp [show k < w' by omega]

theorem length_flatMap_byteBits (bytes : List Byte) : (bytes.flatMap byteBits).length = 8 * bytes.length := by
  simp [List.length_flatMap, Nat.mul_comm 8]

end bits

/-! ## The bit-packer (45_encode) -/

section packer

variable {s t u : State}

/-- The packer has taken these bits in: `t` is `s` but for the mode, the pending bits and the bytes appended, and the
bytes' bits with the bits now pending are the bits pending before with those taken in. -/
def Packs (s : State) (bits : List Bool) (t : State) : Prop :=
  ∃ mode acc nbits bytes,
    t = { s with mode := mode, acc := acc, nbits := nbits, out := s.out ++ bytes } ∧
    bytes.flatMap byteBits ++ t.pending = s.pending ++ bits

theorem packs_setMode (s : State) (m : Mode) : Packs s [] (s.setMode m) :=
  ⟨m, s.acc, s.nbits, [], by rw [List.append_nil]; rfl, (List.append_nil _).symm⟩

theorem Packs.trans {bits bits' : List Bool} (h : Packs s bits t) (h' : Packs t bits' u) :
    Packs s (bits ++ bits') u := by
  obtain ⟨_, _, _, bytes, ht, hb⟩ := h
  obtain ⟨mode, acc, nbits, bytes', hu, hb'⟩ := h'
  refine ⟨mode, acc, nbits, bytes ++ bytes', by rw [hu, ht, ← List.append_assoc], ?_⟩
  rw [List.flatMap_append, List.append_assoc, hb', ← List.append_assoc, hb, List.append_assoc]

theorem Packs.code {bits : List Bool} (h : Packs s bits t) : t.code = s.code := by
  obtain ⟨_, _, _, _, ht, -⟩ := h
  rw [ht]

/-- AppendBit takes one bit in: a full accumulator leaves as a byte with the bit as its lowest (45_encode R143). -/
theorem packs_appendBit (s : State) (b : Bool) : Packs s [b] (appendBit s b) := by
  by_cases h7 : s.nbits = 7#3
  · refine ⟨s.mode, 0#7, 0#3, [s.acc ++ BitVec.ofBool b], appendBit_full h7 b, ?_⟩
    rw [appendBit_full h7, List.flatMap_singleton, byteBits_eq_bitsDown, bitsDown_append_ofBool s.acc b 7,
      State.pending, State.pending, h7]
    exact List.append_nil _
  · have hn : (s.nbits + 1#3).toNat = s.nbits.toNat + 1 := by bv_omega
    refine ⟨s.mode, _, _, [], by rw [appendBit_room h7, List.append_nil], ?_⟩
    rw [appendBit_room h7, State.pending, State.pending, hn, List.flatMap_nil, List.nil_append,
      ← bitsDown_append_ofBool]
    refine bitsDown_congr fun k hk => ?_
    have hk7 : k < 7 := by have := s.nbits.isLt; bv_omega
    cases k with
    | zero => rw [getLsbD_append_ofBool_zero]; simp
    | succ k => rw [getLsbD_append_ofBool_succ]; simp [hk7, Nat.lt_of_succ_lt hk7]

theorem packs_appendBits (bits : List Bool) (s : State) : Packs s bits (appendBits bits s) := by
  induction bits generalizing s with
  | nil => exact packs_setMode s s.mode
  | cons b bits ih => exact (packs_appendBit s b).trans (ih _)

/-- The final byte holds the pending bits, then zeros (45_encode R142). -/
theorem byteBits_paddedByte (acc : BitVec 7) (nbits : BitVec 3) :
    byteBits (paddedByte acc nbits) = bitsDown acc nbits.toNat ++ List.replicate (8 - nbits.toNat) false := by
  have hn := nbits.isLt
  have h8 : nbits.toNat + (8 - nbits.toNat) = 8 := by omega
  calc byteBits (paddedByte acc nbits)
    _ = bitsDown (acc.setWidth 8 <<< (8 - nbits.toNat)) (nbits.toNat + (8 - nbits.toNat)) := by rw [h8]; rfl
    _ = _ := by rw [bitsDown_shiftLeft _ h8.le, bitsDown_setWidth _ (by omega)]

/-- A stream may be written to: what ENC and FLS check, and the packer's clause of the invariant (60_exceptions R189,
10_state R25 item 5). -/
structure State.PackerOpen (s : State) : Prop where
  noError : s.err = .none
  codes : s.cv = true
  mode : s.mode = .idle ∨ s.mode = .enc
  fits : s.acc.toNat < 2 ^ s.nbits.toNat

theorem State.PackerOpen.exec_enc {d : Sym} (h : s.PackerOpen) (hd : (codeAt s.code d).len ≠ 0#8) :
    exec (.enc d) s = .next (appendBits (codeAt s.code d).bits (s.setMode .enc)) := by
  rw [exec, execEnc, guarded_working h.noError rfl (State.seqOK_iff_legal (i := .enc d).2 ⟨h.codes, h.mode⟩),
    if_neg hd]

theorem State.PackerOpen.enc (h : s.PackerOpen) (bits : List Bool) : (appendBits bits (s.setMode .enc)).PackerOpen := by
  have hfits := appendBits_fits (s := s.setMode .enc) bits h.fits
  obtain ⟨acc, nbits, bytes, hb⟩ := appendBits_frame bits (s.setMode .enc)
  rw [hb] at hfits ⊢
  exact ⟨h.noError, h.codes, .inr rfl, hfits⟩

/-- ENC of symbols that all have codes takes their codes in, in order (45_encode R144). -/
theorem State.PackerOpen.execAll_encs (h : s.PackerOpen) {ds : List Sym}
    (hds : ∀ d ∈ ds, (codeAt s.code d).len ≠ 0#8) :
    ∃ t, execAll (encs ds) s = .next t ∧ t.PackerOpen ∧ Packs s (ds.flatMap fun d => (codeAt s.code d).bits) t := by
  induction ds generalizing s with
  | nil => exact ⟨s, rfl, h, packs_setMode s s.mode⟩
  | cons d ds ih =>
    have hp : Packs s (codeAt s.code d).bits (appendBits (codeAt s.code d).bits (s.setMode .enc)) :=
      (packs_setMode s .enc).trans (packs_appendBits _ _)
    obtain ⟨t, ht, ho, hp'⟩ := ih (h.enc (codeAt s.code d).bits) fun d' hd' => by
      rw [hp.code]; exact hds d' (List.mem_cons_of_mem _ hd')
    rw [hp.code] at hp'
    refine ⟨t, ?_, ho, hp.trans hp'⟩
    rw [encs, List.map_cons, execAll, h.exec_enc (hds d List.mem_cons_self)]
    exact ht

/-- FLS ends the stream: the pending bits leave, padded with zeros to a whole byte (45_encode R142). -/
theorem State.PackerOpen.exec_fls (h : s.PackerOpen) : ∃ bytes,
    exec .fls s = .next { s with mode := .idle, acc := 0#7, nbits := 0#3, out := s.out ++ bytes } ∧
    bytes.length = (s.nbits.toNat + 7) / 8 ∧
    bytes.flatMap byteBits = s.pending ++ List.replicate (8 * bytes.length - s.nbits.toNat) false := by
  rw [exec, execFls, guarded_working h.noError rfl (State.seqOK_iff_legal (i := .fls).2 ⟨h.codes, h.mode⟩)]
  by_cases h0 : s.nbits = 0#3
  · have hacc : s.acc = 0#7 := by
      have := h.fits
      rw [h0] at this
      exact BitVec.eq_of_toNat_eq (Nat.lt_one_iff.1 this)
    refine ⟨[], ?_, by rw [h0]; rfl, by rw [State.pending, h0]; rfl⟩
    rw [if_pos h0, List.append_nil, ← hacc, ← h0]; rfl
  · have hpos : s.nbits.toNat ≠ 0 := fun e => h0 (BitVec.eq_of_toNat_eq e)
    have hlt := s.nbits.isLt
    refine ⟨[paddedByte s.acc s.nbits], by rw [if_neg h0]; rfl, ?_, ?_⟩
    · rw [List.length_singleton]; omega
    · rw [List.flatMap_singleton, byteBits_paddedByte]; rfl

end packer

/-! ## The length of a stream (20_memory R48) -/

theorem mem_allSyms (sym : Sym) : sym ∈ allSyms :=
  List.mem_map.2 ⟨sym.toNat, List.mem_range.2 sym.isLt, by rw [BitVec.ofNat_toNat, BitVec.setWidth_eq]⟩

/-- A sum over a list of symbols, taken symbol by symbol. -/
theorem sum_map_eq_totalBits (ds : List Sym) (len : Sym → Nat) :
    (ds.map len).sum = totalBits allSyms (fun sym => ds.count sym) len := by
  have hsub : ds.toFinset ⊆ allSyms.toFinset := fun sym _ => List.mem_toFinset.2 (mem_allSyms sym)
  calc (ds.map len).sum
    _ = ∑ sym ∈ ds.toFinset, ds.count sym * len sym := Finset.sum_list_map_count ds len
    _ = ∑ sym ∈ allSyms.toFinset, ds.count sym * len sym :=
      Finset.sum_subset hsub fun sym _ hs => by
        rw [List.count_eq_zero.2 fun hm => hs (List.mem_toFinset.2 hm), Nat.zero_mul]
    _ = totalBits allSyms (fun sym => ds.count sym) len := List.sum_toFinset _ nodup_allSyms

/-- Settles O49: ENC takes the codes in by `execAll_encs`, FLS emits what is pending by `exec_fls`. -/
theorem streamEmitsThePaddedPayload : Obligations.StreamEmitsThePaddedPayload := by
  intro s ds herr hcv hmode hnbits hacc hds
  have hopen : s.PackerOpen := ⟨herr, hcv, .inl hmode, by rw [hacc, hnbits]; decide⟩
  obtain ⟨t, ht, htopen, mode, acc, nbits, first, hframe, hfirst⟩ := hopen.execAll_encs hds
  obtain ⟨last, hfls, hlen, hlast⟩ := htopen.exec_fls
  have hpending : s.pending = [] := by rw [State.pending, hnbits]; rfl
  rw [hpending, List.nil_append] at hfirst
  have hbits : 8 * first.length + t.nbits.toNat = (ds.map fun d => (codeAt s.code d).len.toNat).sum := by
    have := congrArg List.length hfirst
    rwa [List.length_append, length_flatMap_byteBits, State.pending, bitsDown_length, List.length_flatMap,
      funext fun d => Code.bits_length (codeAt s.code d)] at this
  have hlt := t.nbits.isLt
  refine ⟨t, _, first, first ++ last, _, ht, hfls, rfl, sum_map_eq_totalBits ds _, ?_⟩
  rw [← hbits]
  refine ⟨by rw [hframe], by omega, by omega, ?_, ?_, ?_⟩
  · rw [hframe, ← List.append_assoc, ← hmode, ← hacc, ← hnbits]
  · rw [List.length_append]; omega
  · rw [List.flatMap_append, hlast, ← List.append_assoc, hfirst, List.length_append]
    congr 2
    omega

end Sys2Proof.Machine

/-! # Proofs of the statements on the command word (30_encoding)

First the fields of a word and of an encoded instruction, then `decode_eq_ok_iff`, which says once what the decoder
accepts; then the statements. -/

namespace Sys2Proof

/-! ## The fields of a word (30_encoding R60 to R62) -/

section fields

variable {op : Opcode} {w : Word} {i : Instr}

@[simp] theorem fieldsOf_opcode (op : Opcode) (w : Word) : (fieldsOf op w).opcode = op := by cases op <;> rfl

/-- The fields make an instruction that is well formed exactly when the word passes the decoder's index check
(30_encoding R67 (c)). -/
theorem fieldsOf_wf :
    (fieldsOf op w).wf = true ↔ ¬ (op.format.hasIdx = true ∧ w.extractLsb' 0 9 = Config.null) := by
  cases op <;> simp [fieldsOf, Instr.wf, Opcode.format, Format.hasIdx]

/-- A bit as a field one bit wide. -/
theorem ofBool_getLsbD (w : Word) (k : Nat) : BitVec.ofBool (w.getLsbD k) = w.extractLsb' k 1 := by
  ext j hj
  obtain rfl : j = 0 := by omega
  simp

theorem ofBool_beq_one (b : Bool) : (BitVec.ofBool b == 1#1) = b := by cases b <;> rfl

/-- The "zero" bits of a format as a field of the word. -/
theorem extractLsb'_reserved {n : Nat} (h : operandField w >>> n = 0#56) : w.extractLsb' n (56 - n) = 0#(56 - n) := by
  ext k hk
  have := congrArg (·.getLsbD k) h
  simpa [operandField, show n + k < 56 by omega] using this

/-- Where its "zero" bits are 0, a word's operand field is its fields laid out again: they are adjacent, and the
"zero" bits stand above them (30_encoding R61). -/
theorem operands_fieldsOf (h : operandField w >>> op.format.usedBits = 0#56) :
    (fieldsOf op w).operands = operandField w := by
  have hz := extractLsb'_reserved h
  cases op with
  | nop | clr | srd | drd | bld | gen | fls | dnd => exact hz.symm
  | cnt | frd | crl | enc | dec | fwr | crw | tcm | trn | trf | twn | twf | dln =>
    simp only [Opcode.format, Format.usedBits, Nat.reduceSub] at hz
    simp only [fieldsOf, Instr.operands, ← hz, ofBool_getLsbD, BitVec.extractLsb'_append_extractLsb'_eq_extractLsb']
    rfl

/-- The fields of an encoded instruction are its operands: each lies wholly above or wholly below every seam of the
word (30_encoding R61). -/
theorem fieldsOf_encode (i : Instr) : fieldsOf i.opcode (encode i) = i := by
  cases i with
  | nop | clr | srd | drd | bld | gen | fls | dnd => rfl
  | cnt | frd | crl | enc | dec | fwr | crw | tcm | trn | trf | twn | twf | dln =>
    simp (disch := omega) only [fieldsOf, Instr.opcode, encode, Instr.operands, BitVec.getLsbD_eq_extractLsb',
      BitVec.extractLsb'_append_eq_of_add_le, BitVec.extractLsb'_append_eq_of_le, Nat.reduceSub,
      BitVec.extractLsb'_eq_self, ofBool_beq_one]

/-- An encoded instruction has the "zero" bits of its format 0 (30_encoding R61). -/
theorem encodedFields (i : Instr) : Laws.EncodedFields.Statement i := by
  cases i with
  | nop => exact Laws.EncodedFields.nop
  | clr => exact Laws.EncodedFields.clr
  | srd => exact Laws.EncodedFields.srd
  | drd => exact Laws.EncodedFields.drd
  | cnt => exact Laws.EncodedFields.cnt ..
  | fwr => exact Laws.EncodedFields.fwr ..
  | frd => exact Laws.EncodedFields.frd ..
  | bld => exact Laws.EncodedFields.bld
  | twn => exact Laws.EncodedFields.twn ..
  | twf => exact Laws.EncodedFields.twf ..
  | tcm => exact Laws.EncodedFields.tcm ..
  | trn => exact Laws.EncodedFields.trn ..
  | trf => exact Laws.EncodedFields.trf ..
  | gen => exact Laws.EncodedFields.gen
  | crl => exact Laws.EncodedFields.crl ..
  | crw => exact Laws.EncodedFields.crw ..
  | enc => exact Laws.EncodedFields.enc ..
  | fls => exact Laws.EncodedFields.fls
  | dln => exact Laws.EncodedFields.dln ..
  | dec => exact Laws.EncodedFields.dec ..
  | dnd => exact Laws.EncodedFields.dnd

/-! ## What the decoder accepts (30_encoding R67) -/

theorem Opcode.mem_all (op : Opcode) : op ∈ Opcode.all := by cases op <;> decide

/-- The decoder accepts a word by R67's three checks, and answers its fields. -/
theorem decode_eq_ok_iff : decode w = .ok i ↔ ∃ op, op.code = opcodeByte w ∧
    operandField w >>> op.format.usedBits = 0#56 ∧ (fieldsOf op w).wf = true ∧ fieldsOf op w = i := by
  constructor
  · intro h
    obtain ⟨op, hop, hzero, hidx, rfl⟩ := decode_eq_ok h
    exact ⟨op, Opcode.code_of_ofCode hop, hzero, fieldsOf_wf.2 hidx, rfl⟩
  · rintro ⟨op, hop, hzero, hwf, rfl⟩
    simp [decode, ← hop, hzero, fieldsOf_wf.1 hwf]

theorem decode_encode (h : i.wf = true) : decode (encode i) = .ok i := by
  obtain ⟨hop, hfield, hzero⟩ := encodedFields i
  exact decode_eq_ok_iff.2
    ⟨i.opcode, hop.symm, by rw [hfield, hzero], by rw [fieldsOf_encode, h], fieldsOf_encode i⟩

theorem encode_of_decode (h : decode w = .ok i) : encode i = w := by
  obtain ⟨op, hop, hzero, -, rfl⟩ := decode_eq_ok_iff.1 h
  rw [encode, fieldsOf_opcode, hop, operands_fieldsOf hzero, opcodeByte_append_operandField]

theorem wf_of_decode (h : decode w = .ok i) : i.wf = true := by
  obtain ⟨op, -, -, hwf, rfl⟩ := decode_eq_ok_iff.1 h
  exact hwf

end fields

end Sys2Proof

namespace Sys2Proof.Machine

/-- Settles O1, by `decode_encode`. -/
theorem decodeOfEncodeIsTheInstruction : Obligations.DecodeOfEncodeIsTheInstruction := fun _ => decode_encode

/-- Settles O2, by `encode_of_decode`. -/
theorem encodeOfDecodeIsTheWord : Obligations.EncodeOfDecodeIsTheWord :=
  fun _ _ h => ⟨encode_of_decode h, wf_of_decode h⟩

/-! ## The word as a number (30_encoding R61, R67) -/

section number

variable {op : Opcode} {w : Word}

theorem toNat_extractLsb' (w : Word) (lo n : Nat) : (w.extractLsb' lo n).toNat = wordField w lo n := by
  rw [BitVec.extractLsb'_toNat, Nat.shiftRight_eq_div_pow, wordField]

theorem toNat_getLsbD (w : Word) (k : Nat) : (w.getLsbD k).toNat = wordField w k 1 := by
  rw [← toNat_extractLsb', ← ofBool_getLsbD, BitVec.toNat_ofBool]

/-- The fields of a word are the numbers R61 and R62 say they are. -/
theorem fieldsIn_fieldsOf (h : op.code = opcodeByte w) : FieldsIn w (fieldsOf op w) := by
  have hop : wordField w 56 8 = op.code.toNat := by rw [h, opcodeByte, toNat_extractLsb']
  cases op <;>
    simp only [FieldsIn, fieldsOf, hop, Opcode.code, BitVec.toNat_ofNat, Nat.reducePow, Nat.reduceMod,
      toNat_extractLsb', toNat_getLsbD, and_self]

theorem toNat_opcodeByte (w : Word) : (opcodeByte w).toNat = w.toNat / 2 ^ 56 := by
  have := w.isLt
  rw [opcodeByte, toNat_extractLsb', wordField]
  omega

theorem toNat_operandField (w : Word) : (operandField w).toNat = w.toNat % 2 ^ 56 := by
  rw [operandField, toNat_extractLsb', wordField, Nat.pow_zero, Nat.div_one]

/-- R63's map, written out in numbers, is the decoder's table. -/
theorem opcodeMap_eq :
    opcodeMap = Opcode.all.map fun op => (op.code.toNat, op.format.usedBits, op.format.hasIdx) := rfl

/-- WellFormed(w) in the decoder's terms: R67's conditions on the number are its checks on the bits. -/
theorem wellFormedWord_iff : WellFormedWord w ↔ ∃ op : Opcode, op.code = opcodeByte w ∧
    operandField w >>> op.format.usedBits = 0#56 ∧ (fieldsOf op w).wf = true := by
  simp only [WellFormedWord, opcodeMap_eq, List.mem_map, Opcode.mem_all, true_and, exists_exists_eq_and, fieldsOf_wf,
    ← BitVec.toNat_inj, toNat_opcodeByte, BitVec.toNat_ushiftRight, toNat_operandField, toNat_extractLsb', wordField,
    Nat.shiftRight_eq_div_pow, Nat.pow_zero, Nat.div_one, not_and]
  exact exists_congr fun op => and_congr_left fun _ => eq_comm

theorem exists_decode_iff : (∃ i, decode w = .ok i) ↔ WellFormedWord w := by
  simp only [decode_eq_ok_iff, wellFormedWord_iff]
  constructor
  · rintro ⟨_, op, hop, hzero, hwf, -⟩
    exact ⟨op, hop, hzero, hwf⟩
  · rintro ⟨op, hop, hzero, hwf⟩
    exact ⟨_, op, hop, hzero, hwf, rfl⟩

end number

/-- Settles O3, by `exists_decode_iff`. -/
theorem decoderAcceptsExactlyTheWellFormedWords : Obligations.DecoderAcceptsExactlyTheWellFormedWords :=
  fun _ => exists_decode_iff

/-- Settles O4, by `fieldsIn_fieldsOf`. -/
theorem operandsAreTheirFieldsBits : Obligations.OperandsAreTheirFieldsBits := by
  intro w i h
  obtain ⟨op, hop, -, -, rfl⟩ := decode_eq_ok_iff.1 h
  exact fieldsIn_fieldsOf hop

/-! ## Which words do nothing (30_encoding R68) -/

section idle

variable {i : Instr} {w : Word}

/-- A command that leaves a state without an error as it is has passed its checks. -/
theorem passes_of_exec_eq {s : State} (he : s.err = .none) (h : exec i s = .next s) : Passes i s := by
  obtain ⟨e, info, hne, hs⟩ | ⟨hpass, -⟩ := exec_cases h
  · rw [State.raise_of_none _ _ he] at hs
    exact absurd ((congrArg State.err hs).symm.trans he) hne
  · exact hpass

/-- The reset state but with a tree: no working command is legal both here and after reset (60_exceptions R189). -/
def treeAtReset : State := { State.reset with tv := true }

/-- Every command but NOP changes some state: a working command is refused after reset or with a tree, a read command
responds, CLR drops the tree. -/
theorem eq_nop_of_exec_eq (h : ∀ s, exec i s = .next s) : i = .nop := by
  have hreset : Passes i State.reset := passes_of_exec_eq rfl (h _)
  have htree : Passes i treeAtReset := passes_of_exec_eq rfl (h _)
  cases i with
  | nop => rfl
  | clr => exact nomatch (exec_clr treeAtReset).symm.trans (h _)
  | srd | drd | frd | trn | trf | crl | crw =>
    obtain ⟨w, hw⟩ := exec_read (s := State.reset) hreset.wf (by simp [readOpcodes, Instr.opcode])
    exact nomatch hw.symm.trans (h _)
  | cnt | fwr | bld | twn | twf | tcm => exact nomatch htree.seqOK
  | gen | enc | fls | dln | dec | dnd => exact nomatch hreset.seqOK

/-- NOP's word is the only one that does nothing in every state (30_encoding R68). -/
theorem step_eq_self_iff : (∀ s : State, step (s.offerNext w) = .next s) ↔ w = 0#64 := by
  constructor
  · intro h
    cases hd : decode w with
    | error e => exact nomatch (raisesIllegal_of_error hd State.reset).symm.trans (h _)
    | ok i =>
      simp only [step_offerNext, hd] at h
      rw [← encode_of_decode hd, eq_nop_of_exec_eq h]
      rfl
  · rintro rfl s
    exact exec_nop s

end idle

/-- The opcode bytes that R63's map leaves out, in R68's ranges. -/
theorem reservedOpcodes_eq : ((List.range 256).filter fun c => !opcodeMap.any fun row => row.1 == c) =
    List.range' 0x04 12 ++ List.range' 0x13 13 ++ List.range' 0x26 10 ++ List.range' 0x33 13 ++
      List.range' 0x42 14 ++ List.range' 0x53 173 := by decide +kernel

/-- Settles O5: a word the decoder refuses raises by `raisesIllegal_of_error`, and the idle word is NOP's by
`step_eq_self_iff`. -/
theorem illegalWordsRaiseAndOnlyNopIsIdle : Obligations.IllegalWordsRaiseAndOnlyNopIsIdle := by
  have hraises (w : Word) : RaisesIllegal w ∨ ∃ i, decode w = .ok i := by
    cases hd : decode w with
    | error e => exact .inl (raisesIllegal_of_error hd)
    | ok i => exact .inr ⟨i, rfl⟩
  refine ⟨reservedOpcodes_eq, rfl, fun w hw => (hraises w).resolve_right (mt exists_decode_iff.1 hw),
    fun w => step_eq_self_iff, fun w => (hraises w).imp_right ?_⟩
  rintro ⟨i, hd⟩
  exact ⟨i, hd, fun s => by rw [step_offerNext, hd]⟩

/-! ## Responses replayed as commands (30_encoding R64) -/

section replay

variable {i : Instr} {w : Word}

/-- FRD's response is FWR's operand field below an opcode byte of 0: both are the same fields under zeros
(30_encoding R64). -/
theorem freqWord_eq (sym : Sym) (f : Freq) : freqWord sym f = 0#8 ++ (Instr.fwr sym f).operands := by
  refine BitVec.eq_of_toNat_eq ?_
  simp only [freqWord, Instr.operands, BitVec.toNat_append, BitVec.toNat_zero, Nat.zero_shiftLeft, Nat.zero_or]

/-- TRN's response is TWN's operand field below an opcode byte of 0 (30_encoding R64). -/
theorem nodeWord_eq (idx : NodeIdx) (e : NodeEntry) :
    nodeWord idx e = 0#8 ++ (Instr.twn idx e.leaf e.sym e.left e.right).operands := by
  refine BitVec.eq_of_toNat_eq ?_
  simp only [nodeWord, Instr.operands, BitVec.toNat_append, BitVec.toNat_zero, Nat.zero_shiftLeft, Nat.zero_or]

/-- TRF's response is TWF's operand field below an opcode byte of 0 (30_encoding R64). -/
theorem nodeFreqWord_eq (idx : NodeIdx) (e : NodeEntry) :
    nodeFreqWord idx e = 0#8 ++ (Instr.twf idx e.freq).operands := by
  refine BitVec.eq_of_toNat_eq ?_
  simp only [nodeFreqWord, Instr.operands, BitVec.toNat_append, BitVec.toNat_zero, Nat.zero_shiftLeft, Nat.zero_or]

/-- A response in the operand layout of `i` has opcode byte 0 and, replayed with the opcode of `i`, decodes to it
(30_encoding R64). -/
theorem replay_response (hi : i.wf = true) (hw : w = 0#8 ++ i.operands) :
    w.toNat / 2 ^ 56 = 0 ∧ decode (replayAs i.opcode w) = .ok i := by
  subst hw
  refine ⟨?_, ?_⟩
  · rw [← toNat_opcodeByte, opcodeByte_append]
    rfl
  · rw [replayAs, operandField_append]
    exact decode_encode hi

/-- FRD is performed in every state (41_frequency R92). -/
theorem exec_frd (sym : Sym) (s : State) : exec (.frd sym) s = .next (s.respond (freqWord sym (s.freqAt sym))) := by
  rw [exec, execFrd, guarded_always rfl rfl]

/-- TRN of an index other than NULL is performed in every state (43_tree R120). -/
theorem exec_trn {idx : NodeIdx} (h : idx ≠ Config.null) (s : State) :
    exec (.trn idx) s = .next (s.respond (nodeWord idx (nodeAt s.node idx))) := by
  rw [exec, execTrn, guarded_always (i := .trn idx) rfl (bne_iff_ne.2 h)]

/-- TRF of an index other than NULL is performed in every state (43_tree R121). -/
theorem exec_trf {idx : NodeIdx} (h : idx ≠ Config.null) (s : State) :
    exec (.trf idx) s = .next (s.respond (nodeFreqWord idx (nodeAt s.node idx))) := by
  rw [exec, execTrf, guarded_always (i := .trf idx) rfl (bne_iff_ne.2 h)]

end replay

/-- Settles O41, by `replay_response`: each response is laid out as the operands of the write. -/
theorem responsesReplayAsWrites : Obligations.ResponsesReplayAsWrites := by
  intro s sym idx hidx
  have hwf : (idx != Config.null) = true := bne_iff_ne.2 hidx
  exact ⟨⟨_, exec_frd sym s, replay_response (i := .fwr ..) rfl (freqWord_eq _ _)⟩,
    ⟨_, exec_trn hidx s, replay_response (i := .twn ..) hwf (nodeWord_eq _ _)⟩,
    ⟨_, exec_trf hidx s, replay_response (i := .twf ..) hwf (nodeFreqWord_eq _ _)⟩⟩

end Sys2Proof.Machine

/-! # Proofs of the statements on control (40_control)

First what SRD and DRD answer and how their words are read; then the statements. -/

namespace Sys2Proof.Machine

/-! ## The control commands' answers (40_control R82, R83) -/

section control

variable (s : State)

/-- SRD is performed in every state (40_control R82). -/
theorem exec_srd : exec .srd s = .next (s.respond s.status) := by
  rw [exec, execSrd, guarded_always rfl rfl]

/-- DRD is performed in every state (40_control R83). -/
theorem exec_drd : exec .drd s = .next (s.respond (decoderWord s.cur s.rem)) := by
  rw [exec, execDrd, guarded_always rfl rfl]

theorem State.dn_eq_true : s.dn = true ↔ s.mode = .dec ∧ s.rem = 0#40 := by
  simp only [State.dn, Bool.and_eq_true, beq_iff_eq]

/-- Concatenation as arithmetic (00_scope R6). -/
theorem toNat_append_eq_add {n m : Nat} (x : BitVec n) (y : BitVec m) :
    (x ++ y).toNat = y.toNat + 2 ^ m * x.toNat := by
  rw [BitVec.toNat_append, ← Nat.shiftLeft_add_eq_or_of_lt y.isLt, Nat.shiftLeft_eq, Nat.mul_comm, Nat.add_comm]

theorem toNat_decoderWord (cur : NodeIdx) (rem : Count) :
    (decoderWord cur rem).toNat = rem.toNat + 2 ^ 40 * cur.toNat := by
  rw [decoderWord, toNat_append_eq_add, toNat_append_eq_add, BitVec.toNat_zero, Nat.mul_zero, Nat.add_zero]

/-- With the walker idle DRD's word is the spec's constant (40_control R83). -/
theorem decoderWord_idle : decoderWord Config.null 0#40 = 0x0001FF0000000000#64 := rfl

end control

/-! ## The statements -/

/-- Settles O17, by `exec_nop`. -/
theorem nopChangesNothing : Obligations.NopChangesNothing :=
  ⟨rfl, exec_nop, illegalWords_opcode .nop⟩

/-- Settles O18: CLR is the update `clear`, which changes nothing in the reset state. -/
theorem clearStartsANewRun : Obligations.ClearStartsANewRun :=
  ⟨rfl, illegalWords_opcode .clr, fun s => ⟨s.clear, exec_clr s, s.atReset_clear, rfl, rfl, rfl, rfl⟩,
    exec_clr State.reset⟩

/-- Settles O19: each field of R20 lies wholly above or wholly below every seam of the word that `State.status`
concatenates. -/
theorem statusReadReturnsEveryField : Obligations.StatusReadReturnsEveryField := by
  refine ⟨rfl, illegalWords_opcode .srd, fun s => ⟨s.status, exec_srd s, ?_⟩⟩
  rw [← State.dn_eq_true]
  simp (disch := omega) only [State.status, BitVec.getLsbD_eq_extractLsb', BitVec.extractLsb'_append_eq_of_add_le,
    BitVec.extractLsb'_append_eq_of_le, Nat.reduceSub, BitVec.extractLsb'_eq_self, ofBool_beq_one, and_self]

/-- Settles O20, by `exec_drd`; outside MODE DEC the register invariant gives CUR and REM. -/
theorem decoderReadReturnsRemAndCur : Obligations.DecoderReadReturnsRemAndCur := by
  refine ⟨rfl, illegalWords_opcode .drd, fun s => ⟨_, exec_drd s, toNat_decoderWord _ _, fun hs hmode => ?_⟩⟩
  obtain ⟨hcur, hrem⟩ := hs.walkerIdle hmode
  rw [hcur, hrem, decoderWord_idle]

end Sys2Proof.Machine

/-! # Proofs of the statements on the frequency counter (41_frequency)

First the words as numbers, and what a rejected command does; then what CNT, FWR and an empty BLD answer, and the
counters after a sequence of CNTs; then the statements. -/

namespace Sys2Proof.Machine

/-! ## The words as numbers (00_scope R6, 30_encoding R60) -/

section words

/-- Zeros above a field leave its number (00_scope R6). -/
theorem toNat_zero_append {n m : Nat} (x : BitVec n) : (0#m ++ x).toNat = x.toNat := by
  rw [toNat_append_eq_add, BitVec.toNat_zero, Nat.mul_zero, Nat.add_zero]

/-- A command word as a number (30_encoding R60). -/
theorem toNat_encode (i : Instr) : (encode i).toNat = 2 ^ 56 * i.opcode.code.toNat + i.operands.toNat := by
  rw [encode, toNat_append_eq_add, Nat.add_comm]

/-- FRD's response as a number (41_frequency R92). -/
theorem toNat_freqWord (sym : Sym) (f : Freq) : (freqWord sym f).toNat = sym.toNat + 2 ^ 8 * f.toNat := by
  rw [freqWord, toNat_append_eq_add, toNat_zero_append]

end words

/-! ## Rejected commands (60_exceptions R185, R189) -/

section rejected

variable {i : Instr} {s : State}

/-- Every command passes the checks of 30_encoding R66 before its own rule. -/
theorem exec_eq_guarded (i : Instr) (s : State) : ∃ perform, exec i s = guarded i s perform := by
  cases i <;>
    simp only [exec, execNop, execClr, execSrd, execDrd, execCnt, execFwr, execFrd, execBld, execTwn, execTwf, execTcm,
      execTrn, execTrf, execGen, execCrl, execCrw, execEnc, execFls, execDln, execDec, execDnd] <;>
    exact ⟨_, rfl⟩

/-- A well-formed command that is not legal, with no error latched, raises SequenceError (60_exceptions R189). -/
theorem raisesSequence_of_not_legal (he : s.err = .none) (hw : i.wf = true) (hl : ¬ Legal s i) :
    RaisesSequence i s := by
  obtain ⟨perform, hp⟩ := exec_eq_guarded i s
  exact hp.trans (guarded_sequence he hw (Bool.eq_false_iff.2 (mt State.seqOK_iff_legal.1 hl)))

/-- While an error is latched a working command is dropped (60_exceptions R185). -/
theorem exec_latched (he : s.err ≠ .none) (ha : i.opcode.always = false) : exec i s = .next s := by
  obtain ⟨perform, hp⟩ := exec_eq_guarded i s
  exact hp.trans (if_pos (State.drops_eq_true.2 ⟨he, ha⟩))

end rejected

/-! ## The frequency commands' answers (41_frequency R90 to R92) -/

section answers

variable {s : State}

/-- With a tree CNT is not legal (41_frequency R90). -/
theorem raisesSequence_cnt (sym : Sym) (he : s.err = .none) (htv : s.tv = true) : RaisesSequence (.cnt sym) s :=
  raisesSequence_of_not_legal he rfl fun hl => nomatch htv.symm.trans hl

/-- With a tree FWR is not legal (41_frequency R91). -/
theorem raisesSequence_fwr (sym : Sym) (val : Freq) (he : s.err = .none) (htv : s.tv = true) :
    RaisesSequence (.fwr sym val) s :=
  raisesSequence_of_not_legal he rfl fun hl => nomatch htv.symm.trans hl

/-- At 2^32 − 1 the counter stays and CNT raises (41_frequency R90). -/
theorem exec_cnt_overflow {sym : Sym} (he : s.err = .none) (htv : s.tv = false)
    (hmax : s.freqAt sym = Config.freqMax) :
    exec (.cnt sym) s = .next { s with err := .countOverflow, einfo := infoOfSym sym } := by
  rw [exec, execCnt, guarded_working (i := .cnt sym) he rfl (State.seqOK_iff_legal.2 htv), if_pos hmax,
    State.raise_of_none _ _ he]

/-- Below 2^32 − 1 CNT adds one (41_frequency R90). -/
theorem exec_cnt {sym : Sym} (he : s.err = .none) (htv : s.tv = false) (hmax : s.freqAt sym ≠ Config.freqMax) :
    exec (.cnt sym) s = .next (s.setFreq sym (s.freqAt sym + 1#32)) := by
  rw [exec, execCnt, guarded_working (i := .cnt sym) he rfl (State.seqOK_iff_legal.2 htv), if_neg hmax]

/-- FWR stores its value (41_frequency R91). -/
theorem exec_fwr (sym : Sym) (val : Freq) (he : s.err = .none) (htv : s.tv = false) :
    exec (.fwr sym val) s = .next (s.setFreq sym val) := by
  rw [exec, execFwr, guarded_working (i := .fwr sym val) he rfl (State.seqOK_iff_legal.2 htv)]

/-- BLD of an empty table raises EmptyInputError and does nothing else (43_tree R110). -/
theorem exec_bld_empty (he : s.err = .none) (htv : s.tv = false) (hempty : ∀ x, s.freqAt x = 0#32) :
    exec .bld s = .next { s with err := .emptyInput, einfo := 0#16 } := by
  have hall : (allSyms.all fun x => s.freqAt x == 0#32) = true := List.all_eq_true.2 fun x _ => beq_iff_eq.2 (hempty x)
  rw [exec, execBld, guarded_working (i := .bld) he rfl (State.seqOK_iff_legal.2 htv), if_pos hall,
    State.raise_of_none _ _ he]

end answers

/-! ## Counting a sequence (41_frequency R93) -/

section counting

variable {s : State}

/-- A CNT that does not overflow counts one occurrence. -/
theorem toNat_freqAt_count {sym : Sym} (hmax : s.freqAt sym ≠ Config.freqMax) (x : Sym) :
    ((s.setFreq sym (s.freqAt sym + 1#32)).freqAt x).toNat = (s.freqAt x).toNat + [sym].count x := by
  rw [State.freqAt_setFreq]
  split
  next hx =>
    subst hx
    rw [List.count_singleton_self]
    bv_omega
  next hx => rw [List.count_eq_zero_of_not_mem (List.mem_singleton.not.2 hx), Nat.add_zero]

/-- The CNTs of a sequence add the numbers of its occurrences, where these fit, and write FREQ only. -/
theorem execAll_cnts (bs : List Byte) (he : s.err = .none) (htv : s.tv = false)
    (hfit : ∀ x, (s.freqAt x).toNat + bs.count x ≤ 2 ^ 32 - 1) :
    ∃ freq, execAll (cnts bs) s = .next { s with freq := freq } ∧
      ∀ x, (({ s with freq := freq } : State).freqAt x).toNat = (s.freqAt x).toNat + bs.count x := by
  induction bs generalizing s with
  | nil => exact ⟨s.freq, rfl, fun _ => rfl⟩
  | cons b bs ih =>
    have hmax : s.freqAt b ≠ Config.freqMax := fun hb => by
      have := hfit b
      rw [hb, List.count_cons_self, BitVec.toNat_ofNat] at this
      omega
    have hsum (x : Sym) : ((s.setFreq b (s.freqAt b + 1#32)).freqAt x).toNat + bs.count x =
        (s.freqAt x).toNat + (b :: bs).count x := by
      rw [toNat_freqAt_count hmax, Nat.add_assoc, ← List.count_append, List.singleton_append]
    obtain ⟨freq, hexec, hfreq⟩ := ih (s := s.setFreq b (s.freqAt b + 1#32)) he htv fun x => by
      rw [hsum]; exact hfit x
    refine ⟨freq, ?_, fun x => (hfreq x).trans (hsum x)⟩
    rw [cnts, List.map_cons, execAll, exec_cnt he htv hmax]
    exact hexec

end counting

/-! ## The statements -/

/-- Settles O24, by `execAll_cnts`; at the reset values the counters start at 0. -/
theorem countingGivesTheFrequencyFunction : Obligations.CountingGivesTheFrequencyFunction := by
  refine ⟨fun bs s => execAll_cnts bs, fun bs s hs hfit => ?_⟩
  have hzero (x : Sym) : (s.freqAt x).toNat + bs.count x = bs.count x := by
    rw [hs.freq, BitVec.toNat_zero, Nat.zero_add]
  obtain ⟨freq, hexec, hfreq⟩ := execAll_cnts bs hs.latch.1 hs.flags.1 fun x => (hzero x).trans_le (hfit x)
  exact ⟨_, hexec, fun x => (hfreq x).trans (hzero x)⟩

/-- Settles O25: with a tree by `step_keepsTree` and the sequence check; an empty BLD raises, and its error makes CNT
and FWR be dropped. -/
theorem frequencyTableIsFrozenWithATree : Obligations.FrequencyTableIsFrozenWithATree := by
  refine ⟨fun s t w htv hw h => ?_, fun s sym val htv he => ?_, fun s sym val htv he hempty => ?_⟩
  · have hkeep := step_keepsTree h htv hw
    exact ⟨hkeep.tv.trans htv, fun x => by rw [State.freqAt, hkeep.freq, State.freqAt]⟩
  · exact ⟨raisesSequence_cnt sym he htv, raisesSequence_fwr sym val he htv⟩
  · exact ⟨_, exec_bld_empty he htv hempty, htv, nofun, exec_latched nofun rfl, exec_latched nofun rfl⟩

/-- Settles O21: `raisesSequence_cnt`, `exec_cnt_overflow` and `exec_cnt` are its three cases. -/
theorem countAddsOneOrOverflows : Obligations.CountAddsOneOrOverflows := by
  refine ⟨illegalWords_opcode .cnt, fun sym s => ⟨?_, raisesSequence_cnt sym, exec_cnt_overflow,
    fun he htv hmax => ⟨_, exec_cnt he htv hmax, fun x => State.freqAt_setFreq ..⟩⟩⟩
  rw [toNat_encode, Instr.operands, toNat_zero_append]
  rfl

/-- Settles O22: `raisesSequence_fwr` and `exec_fwr` are its two cases. -/
theorem frequencyWriteStoresTheValue : Obligations.FrequencyWriteStoresTheValue := by
  refine ⟨illegalWords_opcode .fwr, fun sym val s => ⟨?_, raisesSequence_fwr sym val,
    fun he htv => ⟨_, exec_fwr sym val he htv, fun x => State.freqAt_setFreq ..⟩⟩⟩
  rw [toNat_encode, Instr.operands, toNat_append_eq_add, toNat_zero_append, ← Nat.add_assoc]
  rfl

/-- Settles O23, by `exec_frd`. -/
theorem frequencyReadReturnsTheCount : Obligations.FrequencyReadReturnsTheCount := by
  refine ⟨illegalWords_opcode .frd, fun sym s => ⟨?_, _, exec_frd sym s, toNat_freqWord sym _⟩⟩
  rw [toNat_encode, Instr.operands, toNat_zero_append]
  rfl

end Sys2Proof.Machine

/-! # Proofs of the statements on the heap (42_heap)

First what each loop of the heap has put in order when it comes to a slot, and that one round of it carries this on to
the next slot; then HINS and HEXT; then the errors a command can leave; then the statements. -/

namespace Sys2Proof.Machine

/-! ## The heap property of an array (42_heap R101) -/

section order

variable {nodes : Table NodeEntry} {h : Table NodeIdx} {n k rounds : Nat}

theorem less_asymm {i j : NodeIdx} (hij : less nodes i j = true) : less nodes j i = false := by
  rw [Bool.eq_false_iff]
  exact fun hji => absurd ((less_trans hij hji).symm.trans less_irrefl) nofun

theorem parentSlot_eq (k : Nat) : (k - 1) >>> 1 = (k - 1) / 2 := Nat.shiftRight_eq_div_pow ..

/-- The first slot of a swap reads the second's entry (42_heap R102). -/
theorem slotAt_swapSlots_left (i j : Nat) : slotAt (swapSlots h i j) i = slotAt h j := by
  rw [slotAt_swapSlots, if_pos rfl]
  split
  · rename_i hij
    rw [hij]
  · rfl

theorem slotAt_swapSlots_right (i j : Nat) : slotAt (swapSlots h i j) j = slotAt h i := by
  rw [slotAt_swapSlots, if_pos rfl]

theorem slotAt_swapSlots_of_ne {i j : Nat} (hi : k ≠ i) (hj : k ≠ j) : slotAt (swapSlots h i j) k = slotAt h k := by
  rw [slotAt_swapSlots, if_neg hj, if_neg hi]

/-- The first `n` slots of an array have the heap property. -/
def OrderedSlots (nodes : Table NodeEntry) (h : Table NodeIdx) (n : Nat) : Prop :=
  ∀ j, 0 < j → j < n → less nodes (slotAt h j) (slotAt h ((j - 1) / 2)) = false

theorem State.heapOrdered_iff (s : State) : s.HeapOrdered ↔ OrderedSlots s.node s.heap s.hsize.toNat := by
  simp only [State.HeapOrdered, OrderedSlots, parentSlot_eq]

/-- Slot 0 of an ordered heap is its minimum (42_heap R101). -/
theorem OrderedSlots.root_least (ho : OrderedSlots nodes h n) (hk : k < n) :
    less nodes (slotAt h k) (slotAt h 0) = false := by
  induction k using Nat.strong_induction_on with
  | _ k ih =>
    obtain rfl | hpos := Nat.eq_zero_or_pos k
    · exact less_irrefl
    · exact not_less_trans (ih ((k - 1) / 2) (by omega) (by omega)) (ho k hpos hk)

theorem State.HeapOrdered.root_least {s : State} (ho : s.HeapOrdered) {x : NodeIdx} (hx : x ∈ s.heapMembers) :
    less s.node x (slotAt s.heap 0) = false := by
  obtain ⟨k, hk, rfl⟩ := List.mem_map.1 hx
  exact (s.heapOrdered_iff.1 ho).root_least (List.mem_range.1 hk)

/-- The children of slot `k` come after its parent, so that `k` can change places with either. -/
def ChildrenAfterParent (nodes : Table NodeEntry) (h : Table NodeIdx) (n k : Nat) : Prop :=
  ∀ j, 0 < j → j < n → (j - 1) / 2 = k → 0 < k → less nodes (slotAt h j) (slotAt h ((k - 1) / 2)) = false

/-! ## HINS's loop (42_heap R102) -/

/-- What HINS's loop has established when it comes to slot `k`: only `k` may be less than its parent. -/
structure OrderedButUp (nodes : Table NodeEntry) (h : Table NodeIdx) (n k : Nat) : Prop where
  elsewhere : ∀ j, 0 < j → j < n → j ≠ k → less nodes (slotAt h j) (slotAt h ((j - 1) / 2)) = false
  around : ChildrenAfterParent nodes h n k

/-- A swap of slot `k` with its greater parent leaves only the parent's slot open. -/
theorem OrderedButUp.swap {p : Nat} (ho : OrderedButUp nodes h n k) (hp : (k - 1) / 2 = p) (hk : 0 < k)
    (hlt : less nodes (slotAt h k) (slotAt h p) = true) : OrderedButUp nodes (swapSlots h k p) n p := by
  refine ⟨fun j hj hjn hjp => ?_, fun j hj hjn hjp hp0 => ?_⟩
  · by_cases hjk : j = k
    · rw [hjk, hp, slotAt_swapSlots_left, slotAt_swapSlots_right]
      exact less_asymm hlt
    rw [slotAt_swapSlots_of_ne hjk hjp]
    have hpair := ho.elsewhere j hj hjn hjk
    by_cases hpk : (j - 1) / 2 = k
    · rw [hpk, slotAt_swapSlots_left, ← hp]
      exact ho.around j hj hjn hpk hk
    by_cases hpp : (j - 1) / 2 = p
    · rw [hpp] at hpair ⊢
      rw [slotAt_swapSlots_right]
      exact not_less_trans (less_asymm hlt) hpair
    · rwa [slotAt_swapSlots_of_ne hpk hpp]
  · have hparent := ho.elsewhere p hp0 (by omega) (by omega)
    rw [slotAt_swapSlots_of_ne (k := (p - 1) / 2) (by omega) (by omega)]
    by_cases hjk : j = k
    · rwa [hjk, slotAt_swapSlots_left]
    · have hsibling := ho.elsewhere j hj hjn hjk
      rw [hjp] at hsibling
      rw [slotAt_swapSlots_of_ne hjk (by omega)]
      exact not_less_trans hparent hsibling

/-- HINS's loop restores the heap property; `k` rounds are enough from slot `k` (42_heap R102, log 8). -/
theorem OrderedButUp.siftUp (ho : OrderedButUp nodes h n k) (hkn : k < n) (hr : k ≤ rounds) :
    OrderedSlots nodes (siftUp (less nodes) rounds k h) n := by
  induction rounds generalizing k h with
  | zero => exact fun j hj hjn => ho.elsewhere j hj hjn (by omega)
  | succ rounds ih =>
    simp only [Machine.siftUp, parentSlot_eq]
    split
    · rename_i hc
      obtain ⟨hk, hlt⟩ : 0 < k ∧ less nodes (slotAt h k) (slotAt h ((k - 1) / 2)) = true := by simpa using hc
      exact ih (ho.swap rfl hk hlt) (by omega) (by omega)
    · rename_i hc
      intro j hj hjn
      by_cases hjk : j = k
      · subst hjk; simpa [hj] using hc
      · exact ho.elsewhere j hj hjn hjk

/-- A new last entry leaves only its own slot open (42_heap R102). -/
theorem OrderedSlots.append (ho : OrderedSlots nodes h n) (x : NodeIdx) :
    OrderedButUp nodes (setSlotAt h n x) (n + 1) n := by
  refine ⟨fun j hj hjn hne => ?_, fun j hj hjn hp => by omega⟩
  rw [slotAt_setSlotAt, if_neg hne, slotAt_setSlotAt, if_neg (by omega)]
  exact ho j hj (by omega)

/-! ## HEXT's loop (42_heap R103) -/

/-- What HEXT's loop has established when it comes to slot `k`: only the children of `k` may be less than it. -/
structure OrderedButDown (nodes : Table NodeEntry) (h : Table NodeIdx) (n k : Nat) : Prop where
  elsewhere : ∀ j, 0 < j → j < n → (j - 1) / 2 ≠ k → less nodes (slotAt h j) (slotAt h ((j - 1) / 2)) = false
  around : ChildrenAfterParent nodes h n k

/-- One comparison of HEXT's loop: slot `b`, if it is in the heap and less than slot `a`, else `a` (42_heap R103). -/
def lesserSlot (nodes : Table NodeEntry) (h : Table NodeIdx) (n a b : Nat) : Nat :=
  if decide (b < n) && less nodes (slotAt h b) (slotAt h a) then b else a

theorem leastSlot_eq_lesserSlot : leastSlot (less nodes) n k h =
    lesserSlot nodes h n (lesserSlot nodes h n k (2 * k + 1)) (2 * k + 2) := rfl

theorem lesserSlot_le_left (a b : Nat) : less nodes (slotAt h a) (slotAt h (lesserSlot nodes h n a b)) = false := by
  unfold lesserSlot
  split
  · rename_i hb
    exact less_asymm (Bool.and_eq_true_iff.1 hb).2
  · exact less_irrefl

theorem lesserSlot_le_right (a : Nat) {b : Nat} (hb : b < n) :
    less nodes (slotAt h b) (slotAt h (lesserSlot nodes h n a b)) = false := by
  unfold lesserSlot
  split
  · exact less_irrefl
  · rename_i hnot
    simpa [hb] using hnot

/-- The slot HEXT's loop picks is the least of slot `k` and its children (42_heap R103). -/
theorem leastSlot_least {j : Nat} (hj : j = k ∨ 0 < j ∧ j < n ∧ (j - 1) / 2 = k) :
    less nodes (slotAt h j) (slotAt h (leastSlot (less nodes) n k h)) = false := by
  have hplace : j = k ∨ (j = 2 * k + 1 ∧ 2 * k + 1 < n) ∨ (j = 2 * k + 2 ∧ 2 * k + 2 < n) := by omega
  rw [leastSlot_eq_lesserSlot]
  obtain rfl | ⟨rfl, hjn⟩ | ⟨rfl, hjn⟩ := hplace
  · exact not_less_trans (lesserSlot_le_left ..) (lesserSlot_le_left ..)
  · exact not_less_trans (lesserSlot_le_left ..) (lesserSlot_le_right _ hjn)
  · exact lesserSlot_le_right _ hjn

/-- The slot HEXT's loop picks, where it is not slot `k`, is a child of it in the heap (42_heap R103). -/
theorem leastSlot_child {c : Nat} (hc : leastSlot (less nodes) n k h = c) (hne : c ≠ k) :
    (c - 1) / 2 = k ∧ k < c ∧ c < n := by
  have := leastSlot_cases (less nodes) n k h
  omega

/-- A swap of slot `k` with its least child leaves only that child's slot open. -/
theorem OrderedButDown.swap {c : Nat} (ho : OrderedButDown nodes h n k) (hc : leastSlot (less nodes) n k h = c)
    (hne : c ≠ k) : OrderedButDown nodes (swapSlots h k c) n c := by
  have hleast {j : Nat} (hj : j = k ∨ 0 < j ∧ j < n ∧ (j - 1) / 2 = k) :
      less nodes (slotAt h j) (slotAt h c) = false := hc ▸ leastSlot_least hj
  obtain ⟨hck, hkc, hcn⟩ := leastSlot_child hc hne
  refine ⟨fun j hj hjn hpc => ?_, fun j hj hjn hpc _ => ?_⟩
  · by_cases hpk : (j - 1) / 2 = k
    · rw [hpk, slotAt_swapSlots_left]
      by_cases hjc : j = c
      · rw [hjc, slotAt_swapSlots_right]
        exact hleast (.inl rfl)
      · rw [slotAt_swapSlots_of_ne (by omega) hjc]
        exact hleast (.inr ⟨hj, hjn, hpk⟩)
    rw [slotAt_swapSlots_of_ne hpk hpc]
    by_cases hjk : j = k
    · rw [hjk, slotAt_swapSlots_left]
      exact ho.around c (by omega) hcn hck (by omega)
    · rw [slotAt_swapSlots_of_ne hjk (by omega)]
      exact ho.elsewhere j hj hjn hpk
  · rw [hck, slotAt_swapSlots_left, slotAt_swapSlots_of_ne (by omega) (by omega), ← hpc]
    exact ho.elsewhere j hj hjn (by omega)

/-- HEXT's loop restores the heap property; `n` rounds are enough (42_heap R103, log 8). -/
theorem OrderedButDown.siftDown (ho : OrderedButDown nodes h n k) (hr : n ≤ k + rounds) :
    OrderedSlots nodes (siftDown (less nodes) n rounds k h) n := by
  induction rounds generalizing k h with
  | zero => exact fun j hj hjn => ho.elsewhere j hj hjn (by omega)
  | succ rounds ih =>
    simp only [Machine.siftDown]
    split
    · rename_i hc
      intro j hj hjn
      by_cases hpk : (j - 1) / 2 = k
      · have hleast := leastSlot_least (nodes := nodes) (h := h) (.inr ⟨hj, hjn, hpk⟩)
        rwa [hc, ← hpk] at hleast
      · exact ho.elsewhere j hj hjn hpk
    · rename_i hne
      obtain ⟨-, hkc, -⟩ := leastSlot_child rfl hne
      exact ih (ho.swap rfl hne) (by omega)

/-- A new entry in slot 0 leaves only slot 0 open (42_heap R103). -/
theorem OrderedSlots.replaceRoot (ho : OrderedSlots nodes h (n + 1)) (x : NodeIdx) :
    OrderedButDown nodes (setSlotAt h 0 x) n 0 := by
  refine ⟨fun j hj hjn hp => ?_, fun _ _ _ _ h0 => absurd h0 (Nat.lt_irrefl 0)⟩
  rw [slotAt_setSlotAt, if_neg (by omega), slotAt_setSlotAt, if_neg hp]
  exact ho j hj (by omega)

end order

/-! ## HINS and HEXT keep the heap property (42_heap R105) -/

section operations

variable {s t : State} {m : NodeIdx}

theorem State.HeapOrdered.hins (ho : s.HeapOrdered) (x : NodeIdx) (hs : s.hsize.toNat < 511) :
    (hins s x).HeapOrdered := by
  have hsize : (Machine.hins s x).hsize.toNat = s.hsize.toNat + 1 := by
    rw [hins_hsize, BitVec.toNat_add, BitVec.toNat_ofNat]; omega
  rw [State.heapOrdered_iff, hsize, hins_heap, hins_node]
  exact ((s.heapOrdered_iff.1 ho).append x).siftUp (Nat.lt_succ_self _) le_rfl

/-- The array HEXT leaves where an entry is left (42_heap R103). -/
theorem hext_heap (h : hext s = .ok m t) (hpos : 0 < t.hsize.toNat) :
    t.heap = siftDown (less s.node) t.hsize.toNat t.hsize.toNat 0
      (setSlotAt s.heap 0 (slotAt s.heap t.hsize.toNat)) := by
  obtain ⟨-, hsize, -⟩ := hext_ok h
  rw [show t.hsize.toNat = s.hsize.toNat - 1 by omega] at hpos ⊢
  unfold hext at h
  split at h
  · cases h
  · cases h; exact if_pos hpos

theorem State.HeapOrdered.hext (ho : s.HeapOrdered) (h : hext s = .ok m t) : t.HeapOrdered := by
  obtain ⟨ht, hsize, -⟩ := hext_ok h
  have hnode : t.node = s.node := by rw [ht]
  rw [State.heapOrdered_iff] at ho ⊢
  obtain h0 | hpos := Nat.eq_zero_or_pos t.hsize.toNat
  · rw [h0]; exact fun j _ hj => absurd hj (Nat.not_lt_zero j)
  · rw [← hsize] at ho
    rw [hnode, hext_heap h hpos]
    exact (ho.replaceRoot _).siftDown (Nat.le_add_left ..)

end operations

/-! ## No command raises EmptyQueueError (42_heap R107) -/

section errors

variable {s t : State}

/-- The outcome's state, where there is one, has not latched EmptyQueueError. -/
def NoEmptyQueue (r : Result) : Prop := ∀ t, r = .next t → t.err ≠ .emptyQueue

theorem noEmptyQueue_next (h : t.err ≠ .emptyQueue) : NoEmptyQueue (.next t) := by rintro _ ⟨⟩; exact h

theorem noEmptyQueue_fault (f : Fault) : NoEmptyQueue (.fault f) := nofun

theorem State.raise_err_ne_emptyQueue {e : ErrCode} (hs : s.err ≠ .emptyQueue) (he : e ≠ .emptyQueue)
    (info : Info) : (s.raise e info).err ≠ .emptyQueue := by
  rw [State.raise_err]; split <;> assumption

theorem noEmptyQueue_raise {e : ErrCode} (hs : s.err ≠ .emptyQueue) (he : e ≠ .emptyQueue) (info : Info) :
    NoEmptyQueue (.next (s.raise e info)) :=
  noEmptyQueue_next (State.raise_err_ne_emptyQueue hs he info)

/-- The checks before a command raise IllegalCommandError and SequenceError only (30_encoding R66). -/
theorem guarded_noEmptyQueue {i : Instr} {perform : State → Result} (hs : s.err ≠ .emptyQueue)
    (hp : NoEmptyQueue (perform s)) : NoEmptyQueue (guarded i s perform) := by
  intro t h
  obtain ⟨-, -, rfl⟩ | ⟨-, rfl⟩ | ⟨-, -, -, rfl⟩ | ⟨-, -, -, h⟩ := guarded_cases h
  · exact hs
  · exact State.raise_err_ne_emptyQueue hs (by decide) _
  · exact nofun
  · exact hp t h

/-- DEC's loop raises CorruptStreamError only (46_decode R151, R152). -/
theorem walkBits_err {bs : List Bool} (h : walkBits bs s = .ok () t ∨ walkBits bs s = .raised t) :
    t.err = s.err ∨ t.err = .corruptStream := by
  induction bs generalizing s with
  | nil => obtain ⟨⟨⟩⟩ | ⟨⟨⟩⟩ := h; exact .inl rfl
  | cons b bs ih =>
    simp only [walkBits] at h
    split at h
    · obtain ⟨⟨⟩⟩ | ⟨⟨⟩⟩ := h; exact .inl rfl
    · cases hw : walkBit s b with
      | ok _ u =>
        rw [hw] at h
        obtain ⟨syms, hu⟩ := walkBit_frame hw
        have huerr : u.err = s.err := by rw [hu]
        exact huerr ▸ ih h
      | raised u =>
        rw [hw] at h
        obtain ⟨⟨⟩⟩ | ⟨⟨⟩⟩ := h
        have herr (info : Info) : (s.raise .corruptStream info).err = s.err ∨
            (s.raise .corruptStream info).err = .corruptStream := by
          rw [State.raise_err]; split <;> simp
        obtain ⟨-, ⟨-, -, rfl⟩ | ⟨-, -, -, rfl⟩⟩ := walkBit_raised hw <;> exact herr _
      | fault f =>
        rw [hw] at h
        obtain ⟨⟨⟩⟩ | ⟨⟨⟩⟩ := h

theorem exec_noEmptyQueue (i : Instr) (hs : s.err ≠ .emptyQueue) : NoEmptyQueue (exec i s) := by
  cases i <;>
    simp only [exec, execNop, execClr, execSrd, execDrd, execCnt, execFwr, execFrd, execBld, execTwn, execTwf, execTcm,
      execTrn, execTrf, execGen, execCrl, execCrw, execEnc, execFls, execDln, execDec, execDnd] <;>
    refine guarded_noEmptyQueue hs ?_
  case nop | srd | drd | fwr | frd | twn | twf | trn | trf | crl | crw | dln => exact noEmptyQueue_next hs
  case clr => exact noEmptyQueue_next nofun
  case cnt | dnd =>
    split
    · exact noEmptyQueue_raise hs (by decide) _
    · exact noEmptyQueue_next hs
  case tcm =>
    split
    · exact noEmptyQueue_next hs
    · exact noEmptyQueue_raise hs (by decide) _
  case bld =>
    split
    · exact noEmptyQueue_raise hs (by decide) _
    · rename_i hlive
      split
      · exact noEmptyQueue_fault _
      · rename_i h0
        obtain ⟨node, heap, root, hb, -, -⟩ := buildTree_spec (not_not.1 h0) (State.liveSyms_ne_nil hlive)
        rw [hb]
        exact noEmptyQueue_next hs
  case gen =>
    split
    · exact noEmptyQueue_next hs
    · exact noEmptyQueue_fault _
  case enc sym =>
    split
    · exact noEmptyQueue_raise hs (by decide) _
    · obtain ⟨acc, nbits, bytes, hb⟩ := appendBits_frame (codeAt s.code sym).bits (s.setMode .enc)
      rw [hb]
      exact noEmptyQueue_next hs
  case fls => split <;> exact noEmptyQueue_next hs
  case dec byte =>
    intro t ht
    obtain he | he := walkBits_err ((Res.toResult_eq_next.1 ht).imp_left fun ⟨_, h⟩ => h)
    · rwa [he]
    · rw [he]; decide

end errors

/-! ## The statements -/

/-- Settles O26: HINS's loop restores the heap property by `OrderedButUp.siftUp` and permutes the entries by
`heapMembers_hins_perm`. -/
theorem heapInsertKeepsTheHeapProperty : Obligations.HeapInsertKeepsTheHeapProperty := by
  intro s x ho hs
  obtain ⟨heap, hheap⟩ := hins_frame s x
  exact ⟨heap, hheap, ho.hins x (by omega), heapMembers_hins_perm x (by omega)⟩

/-- Settles O27: HEXT answers slot 0, the least entry by `State.HeapOrdered.root_least`, removes exactly it by
`hext_ok`, and its loop restores the heap property by `OrderedButDown.siftDown`. -/
theorem heapExtractRemovesTheLeast : Obligations.HeapExtractRemovesTheLeast := by
  refine ⟨fun s ho h0 _ => ?_, fun s h0 he => ?_⟩
  · obtain ⟨heap, h⟩ := hext_of_pos h0
    exact ⟨_, heap, h, ho.hext h, (hext_ok h).2.2, fun x hx => ho.root_least hx⟩
  · obtain ⟨-, h⟩ | ⟨hne, -⟩ := hext_cases s
    · rw [h, State.raise_of_none _ _ he]
    · exact absurd h0 hne

/-- Settles O28: the order is one of numbers by `less_iff`; slot 0 is the minimum by induction along the parents. -/
theorem heapOrderIsStrictAndTotal : Obligations.HeapOrderIsStrictAndTotal := by
  refine ⟨fun nodes i j => ?_, fun nodes i j k => less_trans, fun nodes i j => ⟨?_, less_total⟩,
    fun s ho x hx => ho.root_least hx⟩
  · rw [less_iff, BitVec.toNat_inj]
  · rintro hless rfl
    rw [less_irrefl, or_self] at hless
    cases hless

/-- Settles O29: a step is a command's, a reset, or the decoder's IllegalCommandError; of the commands only BLD takes
from the heap, and it completes by `buildTree_spec`. -/
theorem emptyQueueErrorIsNeverRaised : Obligations.EmptyQueueErrorIsNeverRaised := by
  intro s t hs h
  obtain ⟨-, h⟩ | ⟨_, -, h⟩ | ⟨_, _, i, -, -, h⟩ | ⟨_, _, _, -, -, h⟩ := step_cases h
  · cases h; exact hs
  · cases h; exact nofun
  · exact exec_noEmptyQueue i (s := s.takeInput) hs t h.symm
  · cases h; exact State.raise_err_ne_emptyQueue (s := s.takeInput) hs (by decide) _

end Sys2Proof.Machine

/-! # Proofs of the statements on the tree (43_tree)

First the words and answers of the tree commands and two facts on trees; then the merge of the two least nodes, the
heap while BLD runs, and what BLD has built at each step and in the end; then Kraft's inequality and Huffman's step, from
which the built codes are the best; then the statements. -/

namespace Sys2Proof.Machine

/-! ## The tree port's words as numbers (43_tree R116, R117, R120, R121) -/

section words

/-- TWN's operand field as a number (43_tree R116). -/
theorem toNat_operands_twn (idx : NodeIdx) (leaf : Bool) (sym : Sym) (left right : NodeIdx) :
    (Instr.twn idx leaf sym left right).operands.toNat =
      idx.toNat + 2 ^ 9 * leaf.toNat + 2 ^ 10 * sym.toNat + 2 ^ 18 * left.toNat + 2 ^ 27 * right.toNat := by
  simp only [Instr.operands, toNat_append_eq_add, BitVec.toNat_zero, BitVec.toNat_ofBool]
  omega

/-- TWF's operand field as a number (43_tree R117). -/
theorem toNat_operands_twf (idx : NodeIdx) (freq : NodeFreq) :
    (Instr.twf idx freq).operands.toNat = idx.toNat + 2 ^ 9 * freq.toNat := by
  rw [Instr.operands, toNat_append_eq_add, toNat_zero_append]

end words

/-! ## The commands' answers (43_tree R110, R116 to R119, 44_codes R130) -/

section answers

variable {s : State} {idx : NodeIdx}

/-- A command that is legal without a tree only raises SequenceError with one (60_exceptions R189). -/
theorem raisesSequence_of_tree {i : Instr} (hw : i.wf = true) (hl : Legal s i → s.tv = false) (he : s.err = .none)
    (htv : s.tv = true) : RaisesSequence i s :=
  raisesSequence_of_not_legal he hw fun h => nomatch htv.symm.trans (hl h)

/-- TWN stores the structure fields (43_tree R116). -/
theorem exec_twn (hidx : idx ≠ Config.null) (leaf : Bool) (sym : Sym) (left right : NodeIdx) (he : s.err = .none)
    (htv : s.tv = false) : exec (.twn idx leaf sym left right) s =
      .next (s.setNode idx ⟨leaf, sym, (nodeAt s.node idx).freq, left, right⟩) := by
  rw [exec, execTwn, guarded_working (i := .twn ..) he (bne_iff_ne.2 hidx) (State.seqOK_iff_legal.2 htv)]

/-- TWF stores the frequency (43_tree R117). -/
theorem exec_twf (hidx : idx ≠ Config.null) (freq : NodeFreq) (he : s.err = .none) (htv : s.tv = false) :
    exec (.twf idx freq) s = .next (s.setNode idx { nodeAt s.node idx with freq := freq }) := by
  rw [exec, execTwf, guarded_working (i := .twf ..) he (bne_iff_ne.2 hidx) (State.seqOK_iff_legal.2 htv)]

/-- TCM adopts a proper tree (43_tree R119). -/
theorem exec_tcm_proper (hidx : idx ≠ Config.null) (he : s.err = .none) (htv : s.tv = false)
    (hp : proper s.node idx = true) : exec (.tcm idx) s = .next { s with root := idx, tv := true } := by
  rw [exec, execTcm, guarded_working (i := .tcm _) he (bne_iff_ne.2 hidx) (State.seqOK_iff_legal.2 htv), if_pos hp]

/-- TCM refuses any other (43_tree R119). -/
theorem exec_tcm_not_proper (hidx : idx ≠ Config.null) (he : s.err = .none) (htv : s.tv = false)
    (hp : proper s.node idx = false) :
    exec (.tcm idx) s = .next { s with err := .headerFormat, einfo := infoOfIdx idx } := by
  rw [exec, execTcm, guarded_working (i := .tcm _) he (bne_iff_ne.2 hidx) (State.seqOK_iff_legal.2 htv),
    if_neg (Bool.eq_false_iff.1 hp), State.raise_of_none _ _ he]

/-- BLD where there is something to build runs its body (43_tree R110). -/
theorem State.Buildable.exec_bld (hs : s.Buildable) : exec .bld s = (buildTree s).toResult := by
  have hlive : ¬ (allSyms.all fun sym => s.freqAt sym == 0#32) = true := fun hall => hs.live <| by
    rw [State.liveSyms, List.filter_eq_nil_iff]
    exact fun x hx => by simpa using List.all_eq_true.1 hall x hx
  rw [exec, execBld, guarded_working (i := .bld) hs.noError rfl (State.seqOK_iff_legal.2 hs.noTree), if_neg hlive,
    if_neg (not_not.2 hs.heapIdle)]

/-- GEN, where it is legal and the root heads a tree, stores the codes of the tree (44_codes R130 to R132). -/
theorem exec_gen (he : s.err = .none) (htv : s.tv = true) (hmode : s.mode = .idle)
    (hp : proper s.node s.root = true) :
    ∃ codes, exec .gen s = .next { s with code := codes, cv := true } ∧ IsCodeTable s.node s.root codes := by
  obtain ⟨codes, hcodes, htable⟩ := codesOf_spec hp
  refine ⟨codes, ?_, htable⟩
  rw [exec, execGen, guarded_working (i := .gen) he rfl (State.seqOK_iff_legal.2 ⟨htv, hmode⟩), hcodes]

end answers

/-! ## Trees (43_tree R118) -/

section trees

variable {nodes : Table NodeEntry} {r x : NodeIdx} {V : List NodeIdx} {Y : List Sym}

/-- The entries a path meets are nodes of the tree, and a tree of L leaves has no path of L edges (43_tree R118). -/
theorem IsTree.mem_of_follow {bits : List Bool} (ht : IsTree nodes r V Y) (h : follow nodes r bits = some x) :
    x ∈ V ∧ bits.length < Y.length := by
  induction ht generalizing bits with
  | leaf i hi hleaf =>
    cases bits with
    | nil => simp_all [follow]
    | cons b bs => simp [follow, nodeAt?_of_ne hi, hleaf] at h
  | node i Vl Vr Yl Yr hi hleaf hl hr ihl ihr =>
    have := hl.symbols_pos
    have := hr.symbols_pos
    cases bits with
    | nil =>
      simp only [follow, if_neg hi, Option.some.injEq] at h
      exact ⟨h ▸ List.mem_cons_self, by simp; omega⟩
    | cons b bs =>
      have hchild : follow nodes ((nodeAt nodes i).child b) bs = some x := by
        simpa [follow, nodeAt?_of_ne hi, hleaf] using h
      rw [List.mem_cons, List.mem_append, List.length_cons, List.length_append]
      cases b with
      | false => have := ihl hchild; exact ⟨.inr (.inl this.1), by omega⟩
      | true => have := ihr hchild; exact ⟨.inr (.inr this.1), by omega⟩

/-- An EMPTY entry heads no tree: it is no leaf, and its children are NULL (43_tree R118). -/
theorem IsTree.ne_empty (ht : IsTree nodes r V Y) : nodeAt nodes r ≠ NodeEntry.empty := by
  intro he
  cases ht with
  | leaf _ _ hleaf => rw [he] at hleaf; cases hleaf
  | node _ _ _ _ _ _ _ hl => rw [he] at hl; exact hl.root_ne_null rfl

end trees

/-! ## Merging the two least nodes (43_tree R112) -/

section merging

variable {nodes nodes' : Table NodeEntry} {L n : Nat} {i j k a b : NodeIdx} {e : NodeEntry}

/-- The order of two nodes depends on their own entries only. -/
theorem less_congr (hi : nodeAt nodes' i = nodeAt nodes i) (hj : nodeAt nodes' j = nodeAt nodes j) :
    less nodes' i j = less nodes i j := by
  simp only [less, hi, hj]

theorem ne_of_less (h : less nodes i j = true) : i ≠ j := by
  rintro rfl
  rw [less_irrefl] at h; cases h

/-- The least member of a set is determined. -/
theorem least_unique {P : NodeIdx → Prop} (ha : P a) (hmin : ∀ i, P i → i = a ∨ less nodes a i = true) (hb : P b)
    (hmin' : ∀ i, P i → i = b ∨ less nodes b i = true) : b = a := by
  obtain h | hab := hmin b hb
  · exact h
  · obtain h | hba := hmin' a ha
    · exact h.symm
    · rw [less_asymm hab] at hba; cases hba

/-- The least and the next member of a set are determined. -/
theorem leastTwo_unique {P : NodeIdx → Prop} {a' b' : NodeIdx} (ha : P a) (hb : P b) (hab : less nodes a b = true)
    (hmin : ∀ i, P i → i = a ∨ i = b ∨ less nodes b i = true) (ha' : P a') (hb' : P b')
    (hab' : less nodes a' b' = true) (hmin' : ∀ i, P i → i = a' ∨ i = b' ∨ less nodes b' i = true) :
    a' = a ∧ b' = b := by
  have hfirst {x y i : NodeIdx} (hxy : less nodes x y = true) (h : i = x ∨ i = y ∨ less nodes y i = true) :
      i = x ∨ less nodes x i = true := h.imp_right (Or.rec (fun hi => hi ▸ hxy) (less_trans hxy))
  obtain rfl := least_unique ha (fun i hi => hfirst hab (hmin i hi)) ha' fun i hi => hfirst hab' (hmin' i hi)
  exact ⟨rfl, least_unique (P := fun i => P i ∧ i ≠ a') ⟨hb, (ne_of_less hab).symm⟩
    (fun i hi => (hmin i hi.1).resolve_left hi.2) ⟨hb', (ne_of_less hab').symm⟩
    fun i hi => (hmin' i hi.1).resolve_left hi.2⟩

theorem nodeAt_setNodeAt_self (nodes : Table NodeEntry) (k : NodeIdx) (e : NodeEntry) :
    nodeAt (setNodeAt nodes k e) k = e := by
  rw [nodeAt_setNodeAt, if_pos rfl]

theorem nodeAt_setNodeAt_of_toNat_ne (e : NodeEntry) (h : j.toNat ≠ k.toNat) :
    nodeAt (setNodeAt nodes k e) j = nodeAt nodes j := by
  rw [nodeAt_setNodeAt, if_neg fun (hjk : j = k) => h (hjk ▸ rfl)]

/-- A node's frequency as a weight. -/
def weightAt (nodes : Table NodeEntry) (k : NodeIdx) : Nat := (nodeAt nodes k).freq.toNat

theorem weightAt_le_of_less (h : less nodes i j = true) : weightAt nodes i ≤ weightAt nodes j := by
  rw [less_iff] at h
  rw [weightAt, weightAt]; omega

theorem unmerged_congr (h : ∀ j : NodeIdx, j.toNat < n → nodeAt nodes' j = nodeAt nodes j) :
    Unmerged nodes' L n i ↔ Unmerged nodes L n i :=
  and_congr_right fun _ => forall_congr' fun j => imp_congr_right fun _ => forall_congr' fun hj => by rw [h j hj]

/-- The entry is the one BLD makes as node `n`: the parent of the two least unmerged nodes (43_tree R110, R112). -/
structure LeastParent (nodes : Table NodeEntry) (L n : Nat) (e : NodeEntry) : Prop where
  leaf : e.leaf = false
  sym : e.sym = 0#8
  weight : e.freq.toNat = weightAt nodes e.left + weightAt nodes e.right
  left : Unmerged nodes L n e.left
  right : Unmerged nodes L n e.right
  less : less nodes e.left e.right = true
  least : ∀ i, Unmerged nodes L n i → i = e.left ∨ i = e.right ∨ Machine.less nodes e.right i = true

theorem mergesLeast_iff : MergesLeast nodes L k ↔ LeastParent nodes L k.toNat (nodeAt nodes k) :=
  ⟨fun ⟨hleaf, hsym, hweight, hleft, hright, hless, hleast⟩ => ⟨hleaf, hsym, hweight, hleft, hright, hless, hleast⟩,
    fun h => ⟨h.leaf, h.sym, h.weight, h.left, h.right, h.less, h.least⟩⟩

/-- Which entry a merge makes depends on the entries below it only. -/
theorem LeastParent.congr (h : LeastParent nodes L n e)
    (hn : ∀ j : NodeIdx, j.toNat < n → nodeAt nodes' j = nodeAt nodes j) : LeastParent nodes' L n e where
  leaf := h.leaf
  sym := h.sym
  weight := by rw [h.weight, weightAt, weightAt, weightAt, weightAt, hn _ h.left.1, hn _ h.right.1]
  left := (unmerged_congr hn).2 h.left
  right := (unmerged_congr hn).2 h.right
  less := (less_congr (hn _ h.left.1) (hn _ h.right.1)).trans h.less
  least i hi := by
    rw [unmerged_congr hn] at hi
    rw [less_congr (hn _ h.right.1) (hn _ hi.1)]
    exact h.least i hi

/-- There is only one such entry (43_tree R113). -/
theorem LeastParent.unique {e' : NodeEntry} (h : LeastParent nodes L n e) (h' : LeastParent nodes L n e') : e' = e := by
  obtain ⟨hleft, hright⟩ := leastTwo_unique h.left h.right h.less h.least h'.left h'.right h'.less h'.least
  have hfreq : e'.freq = e.freq := BitVec.eq_of_toNat_eq (by rw [h'.weight, h.weight, hleft, hright])
  have hleaf := h'.leaf.trans h.leaf.symm
  have hsym := h'.sym.trans h.sym.symm
  cases e; cases e'
  simp_all only

theorem MergesLeast.children_lt (h : MergesLeast nodes L k) :
    (nodeAt nodes k).left.toNat < k.toNat ∧ (nodeAt nodes k).right.toNat < k.toNat :=
  have hp := mergesLeast_iff.1 h
  ⟨hp.left.1, hp.right.1⟩

/-- Which merge made node `k` depends on the entries up to `k` only. -/
theorem MergesLeast.congr (h : MergesLeast nodes L k)
    (hn : ∀ j : NodeIdx, j.toNat ≤ k.toNat → nodeAt nodes' j = nodeAt nodes j) : MergesLeast nodes' L k := by
  rw [mergesLeast_iff, hn k le_rfl]
  exact (mergesLeast_iff.1 h).congr fun j hj => hn j hj.le

/-- The entries below `k` determine the node a merge makes (43_tree R113). -/
theorem MergesLeast.entry_unique (h : MergesLeast nodes L k) (h' : MergesLeast nodes' L k)
    (hn : ∀ j : NodeIdx, j.toNat < k.toNat → nodeAt nodes' j = nodeAt nodes j) : nodeAt nodes' k = nodeAt nodes k :=
  ((mergesLeast_iff.1 h).congr hn).unique (mergesLeast_iff.1 h')

/-- Every node from `L` on and below `n` is the parent of the two least nodes of its time. -/
def Merged (nodes : Table NodeEntry) (L n : Nat) : Prop :=
  ∀ k : NodeIdx, L ≤ k.toNat → k.toNat < n → MergesLeast nodes L k

/-- Children have lower indices, so no node's child is a node made later, or itself. -/
theorem Merged.not_child (h : Merged nodes L n) (hk : L ≤ k.toNat) (hkn : k.toNat < n) (hi : k.toNat ≤ i.toNat) :
    (nodeAt nodes k).left ≠ i ∧ (nodeAt nodes k).right ≠ i := by
  obtain ⟨hl, hr⟩ := (h k hk hkn).children_lt
  constructor <;> rintro rfl <;> omega

/-- The node made last is no node's child (43_tree R110 step 3). -/
theorem Merged.unmerged_last (h : Merged nodes L n) (hi : i.toNat + 1 = n) : Unmerged nodes L n i :=
  ⟨by omega, fun j hL hj => h.not_child hL hj (by omega)⟩

/-- Making a node takes its two children out of the unmerged ones and puts it in. -/
theorem Merged.unmerged_succ (h : Merged nodes L (k.toNat + 1)) (hL : L ≤ k.toNat) :
    Unmerged nodes L (k.toNat + 1) i ↔
      i = k ∨ (Unmerged nodes L k.toNat i ∧ i ≠ (nodeAt nodes k).left ∧ i ≠ (nodeAt nodes k).right) := by
  constructor
  · rintro ⟨hi, hchild⟩
    by_cases hik : i = k
    · exact .inl hik
    · have hne : i.toNat ≠ k.toNat := mt BitVec.eq_of_toNat_eq hik
      obtain ⟨hl, hr⟩ := hchild k hL (Nat.lt_succ_self _)
      exact .inr ⟨⟨by omega, fun j hLj hj => hchild j hLj (by omega)⟩, hl.symm, hr.symm⟩
  · rintro (rfl | ⟨⟨hi, hchild⟩, hl, hr⟩)
    · exact h.unmerged_last rfl
    · refine ⟨by omega, fun j hLj hj => ?_⟩
      by_cases hjk : j = k
      · rw [hjk]; exact ⟨hl.symm, hr.symm⟩
      · have hne : j.toNat ≠ k.toNat := mt BitVec.eq_of_toNat_eq hjk
        exact hchild j hLj (by omega)

/-- Node `k` written as the parent of the two least unmerged nodes. -/
theorem LeastParent.mergesLeast_setNodeAt (h : LeastParent nodes L k.toNat e) :
    MergesLeast (setNodeAt nodes k e) L k := by
  rw [mergesLeast_iff, nodeAt_setNodeAt_self]
  exact h.congr fun j hj => nodeAt_setNodeAt_of_toNat_ne e hj.ne

/-- One more node made of the two least unmerged nodes. -/
theorem Merged.setNodeAt (h : Merged nodes L k.toNat) (hk : LeastParent nodes L k.toNat e) :
    Merged (Machine.setNodeAt nodes k e) L (k.toNat + 1) := by
  intro j hL hj
  by_cases hjk : j.toNat = k.toNat
  · rw [BitVec.eq_of_toNat_eq hjk]
    exact hk.mergesLeast_setNodeAt
  · exact (h j hL (by omega)).congr fun i hi => nodeAt_setNodeAt_of_toNat_ne e (by omega)

end merging

/-! ## The heap during a build (42_heap R101 to R103) -/

section heap

variable {s t u : State} {m i : NodeIdx} {e : NodeEntry}

theorem State.heapMembers_eq_nil (h : s.hsize = 0#9) : s.heapMembers = [] := by
  rw [State.heapMembers, h]; rfl

theorem slotAt_mem_heapMembers {k : Nat} (hk : k < s.hsize.toNat) : slotAt s.heap k ∈ s.heapMembers :=
  List.mem_map.2 ⟨k, List.mem_range.2 hk, rfl⟩

/-- HEXT answers a least member (42_heap R103). -/
theorem State.HeapOrdered.hext_least (ho : s.HeapOrdered) (h : Machine.hext s = .ok m t) {x : NodeIdx}
    (hx : x ∈ s.heapMembers) : less s.node x m = false := by
  obtain ⟨-, h'⟩ | ⟨-, heap, h'⟩ := hext_cases s <;> rw [h'] at h <;> cases h
  exact ho.root_least hx

/-- Two extractions in a row answer the least member and the next (42_heap R103). -/
theorem State.HeapOrdered.hext_twice {a b : NodeIdx} (ho : s.HeapOrdered) (hnd : s.heapMembers.Nodup)
    (ha : Machine.hext s = .ok a t) (hb : Machine.hext t = .ok b u) :
    u.node = s.node ∧ u.HeapOrdered ∧ s.heapMembers.Perm (a :: b :: u.heapMembers) ∧ less s.node a b = true ∧
      ∀ i ∈ u.heapMembers, less s.node b i = true := by
  obtain ⟨hts, -, hpa⟩ := hext_ok ha
  obtain ⟨hut, -, hpb⟩ := hext_ok hb
  have htn : t.node = s.node := by rw [hts]
  have hun : u.node = s.node := by rw [hut, htn]
  have hp := hpa.trans (hpb.cons a)
  obtain ⟨hab, hbu⟩ := List.nodup_cons.1 (hp.nodup_iff.1 hnd)
  have hbn := (List.nodup_cons.1 hbu).1
  have hot := ho.hext ha
  refine ⟨hun, hot.hext hb, hp, ?_, fun i hi => ?_⟩
  · have hle := ho.hext_least ha (hp.mem_iff.2 (List.mem_cons_of_mem a List.mem_cons_self))
    refine (less_total fun (h : a = b) => hab (h ▸ List.mem_cons_self)).resolve_right fun h => ?_
    rw [hle] at h; cases h
  · have hle := hot.hext_least hb (hpb.mem_iff.2 (List.mem_cons_of_mem b hi))
    rw [htn] at hle
    refine (less_total fun (h : b = i) => hbn (h ▸ hi)).resolve_right fun h => ?_
    rw [hle] at h; cases h

/-- The sum of the frequencies of the heap's members. -/
def State.memberTotal (s : State) : Nat := (s.heapMembers.map (weightAt s.node)).sum

/-- A write of a node that is not in the heap is not seen by it. -/
theorem nodeAt_setNode_of_mem (hi : i ∉ s.heapMembers) {x : NodeIdx} (hx : x ∈ s.heapMembers) :
    nodeAt (s.setNode i e).node x = nodeAt s.node x := by
  rw [State.setNode_node, nodeAt_setNodeAt, if_neg fun (hxi : x = i) => hi (hxi ▸ hx)]

theorem mem_heapMembers_hins_setNode {x : NodeIdx} (hs : s.hsize.toNat < 511) :
    x ∈ (hins (s.setNode i e) i).heapMembers ↔ x = i ∨ x ∈ s.heapMembers :=
  (heapMembers_hins_perm (s := s.setNode i e) i hs).mem_iff.trans List.mem_cons

/-- A new node written and inserted keeps the heap property (43_tree R110). -/
theorem State.HeapOrdered.hins_setNode (ho : s.HeapOrdered) (hi : i ∉ s.heapMembers) (hs : s.hsize.toNat < 511) :
    (Machine.hins (s.setNode i e) i).HeapOrdered := by
  refine State.HeapOrdered.hins (s := s.setNode i e) (fun k hk hks => ?_) i hs
  have hslot (j : Nat) (hj : j < s.hsize.toNat) := nodeAt_setNode_of_mem (e := e) hi (slotAt_mem_heapMembers hj)
  exact (less_congr (hslot k hks) (hslot _ (by rw [parentSlot_eq]; simp at hks; omega))).trans (ho k hk hks)

/-- A new node written and inserted adds its frequency. -/
theorem memberTotal_hins_setNode (hi : i ∉ s.heapMembers) (hs : s.hsize.toNat < 511) :
    (hins (s.setNode i e) i).memberTotal = e.freq.toNat + s.memberTotal := by
  have hold : s.heapMembers.map (weightAt (s.setNode i e).node) = s.heapMembers.map (weightAt s.node) :=
    List.map_congr_left fun x hx => by rw [weightAt, nodeAt_setNode_of_mem hi hx, weightAt]
  have hself : weightAt (s.setNode i e).node i = e.freq.toNat := by
    rw [weightAt, State.setNode_node, nodeAt_setNodeAt_self]
  rw [State.memberTotal, ((heapMembers_hins_perm (s := s.setNode i e) i hs).map _).sum_eq, hins_node, List.map_cons,
    List.sum_cons, hself]
  exact congrArg (e.freq.toNat + List.sum ·) hold

/-- The roots of a forest are among its nodes. -/
theorem IsForest.roots_sublist {nodes : Table NodeEntry} {is V : List NodeIdx} {Y : List Sym}
    (h : IsForest nodes is V Y) : is.Sublist V := by
  induction h with
  | nil => exact .slnil
  | cons ht _ ih =>
    cases ht with
    | leaf => exact ih.cons_cons _
    | node => exact (ih.trans (List.sublist_append_right _ _)).cons_cons _

end heap

/-! ## What BLD has built at each of its steps (43_tree R110 to R113) -/

section numbering

/-- The leaf BLD makes for a symbol (43_tree R110 step 1). -/
def State.leafOf (s : State) (sym : Sym) : NodeEntry :=
  ⟨true, sym, (s.freqAt sym).setWidth 40, Config.null, Config.null⟩

/-- The sum of the counters of some symbols. -/
def State.countTotal (s : State) (syms : List Sym) : Nat := (syms.map fun x => (s.freqAt x).toNat).sum

/-- A build that has made the leaves of `Ys` and the internal nodes below `n`: the leaves stand in order, each
internal node merges the two least nodes of its time, the heap holds the nodes not yet merged, and no frequency is
lost. -/
structure Numbered (s₀ : State) (n : Nat) (Ys : List Sym) (s : State) : Prop extends Building s₀ n Ys s where
  ordered : s.HeapOrdered
  leaves : ∀ (k : NodeIdx) (sym : Sym), Ys[k.toNat]? = some sym → nodeAt s.node k = s₀.leafOf sym
  merged : Merged s.node Ys.length n
  unused : ∀ k : NodeIdx, n ≤ k.toNat → nodeAt s.node k = NodeEntry.empty
  members : ∀ i, i ∈ s.heapMembers ↔ Unmerged s.node Ys.length n i
  total : s.memberTotal = s₀.countTotal Ys

variable {s₀ s t : State} {n : Nat} {Ys : List Sym}

theorem Numbered.nodup (h : Numbered s₀ n Ys s) : s.heapMembers.Nodup := by
  obtain ⟨V, Y, hf, hV, -, -⟩ := h.forest
  exact hf.roots_sublist.nodup hV

/-- The next free index is not in the heap. -/
theorem Numbered.not_mem (h : Numbered s₀ n Ys s) {k : NodeIdx} (hk : n ≤ k.toNat) : k ∉ s.heapMembers := fun hm => by
  have := ((h.members k).1 hm).1; omega

theorem Numbered.length_le (h : Numbered s₀ n Ys s) : Ys.length ≤ n := by
  have := h.hsize_le
  have := h.count
  omega

/-- The empty build. -/
theorem Numbered.start (h : s.hsize = 0#9) : Numbered s 0 [] { s with node := [] } where
  toBuilding := .start h
  ordered k _ hk := by
    rw [show ({ s with node := [] } : State).hsize = 0#9 from h] at hk
    exact absurd hk (Nat.not_lt_zero k)
  leaves _ _ hsym := by cases hsym
  merged _ _ hk := absurd hk (Nat.not_lt_zero _)
  unused k _ := nodeAt_nil k
  members i := by
    rw [State.heapMembers_eq_nil (s := { s with node := [] }) h]
    exact ⟨nofun, fun hi => absurd hi.1 (Nat.not_lt_zero _)⟩
  total := by
    rw [State.memberTotal, State.heapMembers_eq_nil (s := { s with node := [] }) h]
    rfl

theorem toNat_freq_leafOf (s : State) (sym : Sym) : (s.leafOf sym).freq.toNat = (s.freqAt sym).toNat := by
  have := (s.freqAt sym).isLt
  rw [State.leafOf, BitVec.toNat_setWidth]; omega

/-- A leaf for one more symbol (43_tree R110 step 1, R111). -/
theorem Numbered.insertLeaf (h : Numbered s₀ n Ys s) (hn : n = Ys.length) (hlen : Ys.length < 256) (sym : Sym) :
    Numbered s₀ (n + 1) (Ys ++ [sym])
      (hins (s.setNode (BitVec.ofNat 9 n) (s₀.leafOf sym)) (BitVec.ofNat 9 n)) := by
  have hb := h.toBuilding.insertLeaf hlen sym ((s₀.freqAt sym).setWidth 40)
  have hsize := h.hsize_le
  have hlen' : (Ys ++ [sym]).length = n + 1 := by rw [List.length_append, hn]; rfl
  obtain ⟨k, hkn, rfl⟩ : ∃ k, BitVec.ofNat 9 n = k ∧ k.toNat = n := ⟨_, rfl, toNat_nextFree (by omega)⟩
  rw [hkn] at hb ⊢
  have hnew : k ∉ s.heapMembers := h.not_mem le_rfl
  refine ⟨hb, h.ordered.hins_setNode hnew (by omega), fun j x hx => ?_, fun j hL hj => by omega,
    fun j hj => ?_, fun i => ?_, ?_⟩
  · rw [hins_node, State.setNode_node]
    by_cases hjk : j.toNat = k.toNat
    · rw [hjk, hn, List.getElem?_concat_length, Option.some.injEq] at hx
      rw [BitVec.eq_of_toNat_eq hjk, nodeAt_setNodeAt_self, hx]
    · have := (List.getElem?_eq_some_iff.1 hx).1
      rw [List.getElem?_append_left (by omega)] at hx
      rw [nodeAt_setNodeAt_of_toNat_ne _ hjk]
      exact h.leaves j x hx
  · rw [hins_node, State.setNode_node, nodeAt_setNodeAt_of_toNat_ne _ (by omega)]
    exact h.unused j (by omega)
  · rw [mem_heapMembers_hins_setNode (by omega), h.members, hlen', ← hn, ← BitVec.toNat_inj]
    refine ⟨fun hi => ⟨?_, fun j hL hj => by omega⟩, fun ⟨hi, _⟩ => ?_⟩
    · obtain hi | ⟨hi, -⟩ := hi <;> omega
    · by_cases hik : i.toNat = k.toNat
      · exact .inl hik
      · exact .inr ⟨by omega, fun j hL hj => by omega⟩
  · rw [memberTotal_hins_setNode hnew (by omega), h.total, toNat_freq_leafOf, State.countTotal, State.countTotal,
      List.map_append, List.sum_append, Nat.add_comm, List.map_singleton, List.sum_singleton]

/-- All counters together fit a node's frequency (43_tree R110). -/
theorem State.countTotal_lt (s : State) (hlen : Ys.length ≤ 256) : s.countTotal Ys < 2 ^ 40 := by
  have hle : s.countTotal Ys ≤ (Ys.map fun x => (s.freqAt x).toNat).length • (2 ^ 32 - 1) :=
    List.sum_le_card_nsmul _ _ fun y hy => by
      obtain ⟨x, -, rfl⟩ := List.mem_map.1 hy
      have := (s.freqAt x).isLt
      omega
  rw [List.length_map, smul_eq_mul] at hle
  omega

/-- The parent BLD makes of the two nodes it has extracted (43_tree R110 step 2). -/
def parentOf (nodes : Table NodeEntry) (a b : NodeIdx) : NodeEntry :=
  ⟨false, 0#8, (nodeAt nodes a).freq + (nodeAt nodes b).freq, a, b⟩

/-- The frequencies of two members of the heap add up without loss. -/
theorem Numbered.toNat_freq_parentOf {a b : NodeIdx} {rest : List NodeIdx} (h : Numbered s₀ n Ys s)
    (hlen : Ys.length ≤ 256) (hp : s.heapMembers.Perm (a :: b :: rest)) :
    (parentOf s.node a b).freq.toNat = weightAt s.node a + weightAt s.node b := by
  have htotal := h.total
  rw [State.memberTotal, (hp.map _).sum_eq, List.map_cons, List.map_cons, List.sum_cons, List.sum_cons] at htotal
  have := s₀.countTotal_lt hlen
  rw [weightAt, weightAt] at *
  rw [parentOf, BitVec.toNat_add]; omega

/-- The parent of the two least members is the one the next merge makes (43_tree R112). -/
theorem Numbered.leastParent {a b : NodeIdx} {rest : List NodeIdx} (h : Numbered s₀ n Ys s)
    (hlen : Ys.length ≤ 256) (hp : s.heapMembers.Perm (a :: b :: rest)) (hab : less s.node a b = true)
    (hmin : ∀ i ∈ rest, less s.node b i = true) : LeastParent s.node Ys.length n (parentOf s.node a b) :=
  have hmem (i : NodeIdx) : Unmerged s.node Ys.length n i ↔ i = a ∨ i = b ∨ i ∈ rest := by
    rw [← h.members, hp.mem_iff, List.mem_cons, List.mem_cons]
  { leaf := rfl
    sym := rfl
    weight := h.toNat_freq_parentOf hlen hp
    left := (hmem a).2 (.inl rfl)
    right := (hmem b).2 (.inr (.inl rfl))
    less := hab
    least := fun i hi => ((hmem i).1 hi).imp_right (Or.imp_right (hmin i)) }

/-- The two least nodes extracted and their parent inserted (43_tree R110 step 2, R112). -/
theorem Numbered.merge (h : Numbered s₀ n Ys s) (hlen : Ys.length ≤ 256) (h1 : 1 < s.hsize.toNat) :
    ∃ a u b v, hext s = .ok a u ∧ hext u = .ok b v ∧
      Numbered s₀ (n + 1) Ys (hins (v.setNode (BitVec.ofNat 9 n) (parentOf v.node a b)) (BitVec.ofNat 9 n)) ∧
      (hins (v.setNode (BitVec.ofNat 9 n) (parentOf v.node a b)) (BitVec.ofNat 9 n)).hsize.toNat + 1 =
        s.hsize.toNat := by
  have hcount := h.count
  have hle := h.length_le
  obtain ⟨a, u, b, v, hu, hv, hbuild⟩ := h.toBuilding.merge hlen h1
  obtain ⟨hb, hsize⟩ := hbuild (parentOf v.node a b) rfl rfl rfl
  refine ⟨a, u, b, v, hu, hv, ?_, hsize⟩
  obtain ⟨hvn, hov, hperm, hab, hmin⟩ := h.ordered.hext_twice h.nodup hu hv
  have hvs : v.hsize.toNat < 511 := by
    have := (hext_ok hu).2.1
    have := (hext_ok hv).2.1
    omega
  obtain ⟨k, hkn, rfl⟩ : ∃ k, BitVec.ofNat 9 n = k ∧ k.toNat = n := ⟨_, rfl, toNat_nextFree (by omega)⟩
  rw [hkn] at hb ⊢
  rw [hvn] at hb ⊢
  have hnew : k ∉ v.heapMembers := fun hm =>
    h.not_mem le_rfl (hperm.mem_iff.2 (List.mem_cons_of_mem _ (List.mem_cons_of_mem _ hm)))
  have hmerged := h.merged.setNodeAt (h.leastParent hlen hperm hab hmin)
  have hnode : (hins (v.setNode k (parentOf s.node a b)) k).node = setNodeAt s.node k (parentOf s.node a b) := by
    rw [hins_node, State.setNode_node, hvn]
  refine ⟨hb, hov.hins_setNode hnew hvs, fun j x hx => ?_, hnode ▸ hmerged, fun j hj => ?_, fun i => ?_, ?_⟩
  · have := (List.getElem?_eq_some_iff.1 hx).1
    rw [hnode, nodeAt_setNodeAt_of_toNat_ne _ (by omega)]
    exact h.leaves j x hx
  · rw [hnode, nodeAt_setNodeAt_of_toNat_ne _ (by omega)]
    exact h.unused j (by omega)
  · have hnd := hperm.nodup_iff.1 h.nodup
    have ha : a ∉ v.heapMembers := fun hm => (List.nodup_cons.1 hnd).1 (List.mem_cons_of_mem _ hm)
    have hb : b ∉ v.heapMembers := (List.nodup_cons.1 (List.nodup_cons.1 hnd).2).1
    rw [mem_heapMembers_hins_setNode hvs, hnode, hmerged.unmerged_succ hle,
      unmerged_congr fun j hj => nodeAt_setNodeAt_of_toNat_ne _ hj.ne, ← h.members, hperm.mem_iff, List.mem_cons,
      List.mem_cons, nodeAt_setNodeAt_self]
    show i = k ∨ i ∈ v.heapMembers ↔ i = k ∨ (i = a ∨ i = b ∨ i ∈ v.heapMembers) ∧ i ≠ a ∧ i ≠ b
    exact or_congr_right ⟨fun hi => ⟨.inr (.inr hi), fun e => ha (e ▸ hi), fun e => hb (e ▸ hi)⟩,
      fun ⟨hi, hia, hib⟩ => (hi.resolve_left hia).resolve_left hib⟩
  · rw [memberTotal_hins_setNode hnew hvs, h.toNat_freq_parentOf hlen hperm, ← h.total, State.memberTotal,
      State.memberTotal, (hperm.map _).sum_eq, hvn, Nat.add_assoc]
    rfl

theorem Numbered.freq (h : Numbered s₀ n Ys s) (sym : Sym) : s.freqAt sym = s₀.freqAt sym := by
  have : s.freq = s₀.freq := (congrArg State.freq h.frame :)
  rw [State.freqAt, this, State.freqAt]

/-- BLD's first step makes the leaves of the symbols that occur, in their order (43_tree R110 step 1, R111). -/
theorem Numbered.insertLeaves (syms : List Sym) (h : Numbered s₀ n Ys s) (hn : n = Ys.length)
    (hlen : (Ys ++ syms.filter fun sym => s₀.freqAt sym != 0#32).length ≤ 256) :
    Numbered s₀ (insertLeaves syms n s).1 (Ys ++ syms.filter fun sym => s₀.freqAt sym != 0#32)
      (insertLeaves syms n s).2 := by
  induction syms generalizing n s Ys with
  | nil => simpa [Machine.insertLeaves] using h
  | cons sym syms ih =>
    simp only [Machine.insertLeaves, h.freq]
    split
    · rename_i h0
      rw [List.filter_cons_of_neg (by simp [h0])] at hlen ⊢
      exact ih h hn hlen
    · rename_i h0
      rw [List.filter_cons_of_pos (by simp [h0]), List.append_cons] at hlen ⊢
      have hYs : Ys.length < 256 := by
        simp only [List.length_append, List.length_cons, List.length_nil] at hlen; omega
      exact ih (h.insertLeaf hn hYs sym) (by rw [List.length_append, hn]; rfl) hlen

/-- BLD's second step merges until one root is left (43_tree R110 step 2). -/
theorem Numbered.mergeLoop {rounds : Nat} (h : Numbered s₀ n Ys s) (hlen : Ys.length ≤ 256) (hYs : Ys ≠ [])
    (hr : s.hsize.toNat ≤ rounds + 1) :
    ∃ m t, mergeLoop rounds n s = .ok m t ∧ Numbered s₀ m Ys t ∧ t.hsize.toNat = 1 := by
  have hpos := h.hsize_pos hYs
  induction rounds generalizing n s with
  | zero => exact ⟨n, s, rfl, h, by omega⟩
  | succ rounds ih =>
    simp only [Machine.mergeLoop, hsz, gt_iff_lt]
    by_cases h1 : 1 < s.hsize.toNat
    · obtain ⟨a, u, b, v, hu, hv, hb, hsize⟩ := h.merge hlen h1
      simp only [if_pos h1, hu, hv, Res.bind]
      rw [parentOf] at hb hsize
      exact ih hb (by omega) (hb.hsize_pos hYs)
    · exact ⟨n, s, if_neg h1, h, by omega⟩

end numbering

/-! ## The symbols that occur (43_tree R111) -/

section symbols

variable (s : State)

theorem State.nodup_liveSyms : s.liveSyms.Nodup := nodup_allSyms.filter _

theorem State.length_liveSyms_le : s.liveSyms.length ≤ 256 := length_le_of_nodup_symbols s.nodup_liveSyms

theorem State.mem_liveSyms (x : Sym) : x ∈ s.liveSyms ↔ s.freqAt x ≠ 0#32 := by
  simp [State.liveSyms, mem_allSyms]

theorem State.pairwise_liveSyms : s.liveSyms.Pairwise (fun x y => x.toNat < y.toNat) := by
  refine List.Pairwise.filter _ ((List.pairwise_map).2 (List.pairwise_lt_range.imp_of_mem fun {x y} hx hy hxy => ?_))
  rw [List.mem_range, Config.nSym] at hx hy
  rw [BitVec.toNat_ofNat, BitVec.toNat_ofNat]; omega

/-- Counters that are 0 add nothing. -/
theorem State.countTotal_liveSyms : s.countTotal s.liveSyms = s.countTotal allSyms := by
  rw [State.liveSyms]
  generalize allSyms = syms
  induction syms with
  | nil => rfl
  | cons x xs ih =>
    rw [List.filter_cons]
    split
    · exact congrArg ((s.freqAt x).toNat + ·) ih
    · rename_i h0
      have : s.freqAt x = 0#32 := by simpa using h0
      rw [ih, State.countTotal, State.countTotal, List.map_cons, List.sum_cons, this]
      simp

end symbols

/-! ## The tree BLD leaves behind (43_tree R111 to R113) -/

section built

variable {s t : State} {node : Table NodeEntry} {root k : NodeIdx} {n : Nat}

/-- What BLD has built for the counters of `s`: the leaves in symbol order, the internal nodes in the order of their
making, EMPTY entries above, and all of them in one tree under the root made last (43_tree R111 to R113). -/
structure BuiltTree (s : State) (node : Table NodeEntry) (root : NodeIdx) : Prop where
  root_eq : root.toNat + 2 = 2 * s.liveSyms.length
  leaves : ∀ (k : NodeIdx) (sym : Sym), s.liveSyms[k.toNat]? = some sym → nodeAt node k = s.leafOf sym
  merged : Merged node s.liveSyms.length (2 * s.liveSyms.length - 1)
  unused : ∀ k : NodeIdx, 2 * s.liveSyms.length - 1 ≤ k.toNat → nodeAt node k = NodeEntry.empty
  tree : ∃ V Y, IsTree node root V Y ∧ V.Nodup ∧ Y.Perm s.liveSyms ∧ ∀ k : NodeIdx, k ∈ V ↔ k.toNat ≤ root.toNat
  total : (nodeAt node root).freq.toNat = s.countTotal s.liveSyms

/-- Node indices without repeats, as many as there are up to `r` and none above it, are all of them. -/
theorem mem_iff_of_nodup_of_length {V : List NodeIdx} {r : NodeIdx} (hV : V.Nodup) (hle : ∀ x ∈ V, x.toNat ≤ r.toNat)
    (hlen : V.length = r.toNat + 1) (k : NodeIdx) : k ∈ V ↔ k.toNat ≤ r.toNat := by
  refine ⟨hle k, fun hk => ?_⟩
  have hnd : (V.map BitVec.toNat).Nodup := hV.map fun _ _ => BitVec.eq_of_toNat_eq
  have hsub : (V.map BitVec.toNat).toFinset ⊆ Finset.range (r.toNat + 1) := fun x hx => by
    obtain ⟨y, hy, rfl⟩ := List.mem_map.1 (List.mem_toFinset.1 hx)
    exact Finset.mem_range_succ_iff.2 (hle y hy)
  have heq := Finset.eq_of_subset_of_card_le hsub (by
    rw [Finset.card_range, List.toFinset_card_of_nodup hnd, List.length_map, hlen])
  have hmem : k.toNat ∈ V.map BitVec.toNat := List.mem_toFinset.1 (heq ▸ Finset.mem_range_succ_iff.2 hk)
  obtain ⟨y, hy, hyk⟩ := List.mem_map.1 hmem
  rwa [← BitVec.eq_of_toNat_eq hyk]

/-- With one node left in the heap, it is the one made last, and its tree is all that BLD has made. -/
theorem Numbered.builtTree {r : NodeIdx} (h : Numbered s n s.liveSyms t) (hlive : s.liveSyms ≠ [])
    (hr : t.heapMembers = [r]) : BuiltTree s t.node r := by
  have hcount := h.count
  have hL := List.length_pos_iff.2 hlive
  have hn : n = 2 * s.liveSyms.length - 1 := by
    rw [← State.length_heapMembers, hr, List.length_singleton] at hcount; omega
  have hlast : (BitVec.ofNat 9 (n - 1)).toNat + 1 = n := by
    have := s.length_liveSyms_le
    rw [BitVec.toNat_ofNat]; omega
  obtain rfl : BitVec.ofNat 9 (n - 1) = r := by
    have hm := (h.members _).2 (h.merged.unmerged_last hlast)
    rwa [hr, List.mem_singleton] at hm
  generalize BitVec.ofNat 9 (n - 1) = r at *
  subst hn
  refine ⟨by omega, h.leaves, h.merged, h.unused, ?_, ?_⟩
  · obtain ⟨V, Y, hf, hV, hlt, hY⟩ := h.forest
    rw [hr] at hf
    obtain _ | @⟨_, _, Vr, _, Yr, _, htree, hrest⟩ := hf
    cases hrest
    rw [List.append_nil] at hV hlt hY
    have hnodes := htree.length_nodes
    rw [hY.length_eq] at hnodes
    exact ⟨Vr, Yr, htree, hV, hY, mem_iff_of_nodup_of_length hV (fun x hx => by have := hlt x hx; omega) (by omega)⟩
  · rw [← h.total, State.memberTotal, hr]
    rfl

/-- BLD's body builds the tree of the counters; NODE, HEAP, ROOT and TV are all that may have changed
(43_tree R110 to R113). -/
theorem buildTree_builds (h0 : s.hsize = 0#9) (hlive : s.liveSyms ≠ []) :
    ∃ node heap root, buildTree s = .ok () { s with node := node, heap := heap, root := root, tv := true } ∧
      BuiltTree s node root := by
  have hlen := s.length_liveSyms_le
  have hleaves : Numbered s _ s.liveSyms _ := (Numbered.start h0).insertLeaves allSyms rfl hlen
  obtain ⟨m, t, hm, hb, ht1⟩ := hleaves.mergeLoop hlen hlive (Nat.le_succ _)
  obtain ⟨r, u, hu⟩ := hext_completes (by omega : 0 < t.hsize.toNat)
  obtain ⟨hut, hu0, hur⟩ := hext_ok hu
  have hmember : t.heapMembers = [r] := by
    have : u.heapMembers = [] := List.eq_nil_of_length_eq_zero (by rw [State.length_heapMembers]; omega)
    rwa [this, List.perm_singleton] at hur
  have hu_size : u.hsize = 0#9 := BitVec.eq_of_toNat_eq (by simp; omega)
  have hus : u = { s with node := t.node, heap := u.heap } := by
    have := State.eq_of_besidesBuild (s := s) (t := u) (by rw [← hb.frame, hut]; rfl)
    rwa [hu_size, ← h0, show u.node = t.node by rw [hut]] at this
  refine ⟨t.node, u.heap, r, ?_, hb.builtTree hlive hmember⟩
  simp only [buildTree, hsz, hm, Res.bind, hu]
  exact congrArg (fun x : State => Res.ok () { x with root := r, tv := true }) hus

/-- BLD where there is something to build completes with the tree of the counters, and nothing but NODE, HEAP, ROOT and
TV has changed (43_tree R110 to R113). -/
theorem State.Buildable.bld (hs : s.Buildable) : ∃ t, exec .bld s = .next t ∧
    t = { s with node := t.node, heap := t.heap, root := t.root, tv := true } ∧ BuiltTree s t.node t.root := by
  obtain ⟨node, heap, root, hb, ht⟩ := buildTree_builds hs.heapIdle hs.live
  rw [hs.exec_bld, hb]
  exact ⟨_, rfl, rfl, ht⟩

/-- Up to the root, the nodes from index L on are internal and the ones below are leaves (43_tree R111). -/
theorem BuiltTree.leaf_eq_false_iff (h : BuiltTree s node root) (hk : k.toNat ≤ root.toNat) :
    (nodeAt node k).leaf = false ↔ s.liveSyms.length ≤ k.toNat := by
  have := h.root_eq
  refine ⟨fun hleaf => ?_, fun hL => (h.merged k hL (by omega)).1⟩
  by_contra hlt
  rw [h.leaves k _ (List.getElem?_eq_getElem (by omega))] at hleaf
  cases hleaf

/-- Two tables of equal counters have the same tree: their entries agree, by induction on the index (43_tree R113). -/
theorem BuiltTree.node_unique {s' : State} {node' : Table NodeEntry} {root' : NodeIdx} (h : BuiltTree s node root)
    (h' : BuiltTree s' node' root') (hfreq : ∀ x, s'.freqAt x = s.freqAt x) :
    root' = root ∧ ∀ k, nodeAt node' k = nodeAt node k := by
  have hlive : s'.liveSyms = s.liveSyms := by simp only [State.liveSyms, hfreq]
  have hroot := h'.root_eq
  have hmerged := h'.merged
  have hunused := h'.unused
  have hleaves := h'.leaves
  rw [hlive] at hroot hmerged hunused hleaves
  refine ⟨BitVec.eq_of_toNat_eq (by have := h.root_eq; omega), fun k => ?_⟩
  induction hk : k.toNat using Nat.strong_induction_on generalizing k with
  | _ n ih =>
    subst hk
    by_cases hL : k.toNat < s.liveSyms.length
    · have hsym := List.getElem?_eq_getElem hL
      rw [hleaves k _ hsym, h.leaves k _ hsym, State.leafOf, hfreq, State.leafOf]
    · by_cases hn : k.toNat < 2 * s.liveSyms.length - 1
      · exact (h.merged k (by omega) hn).entry_unique (hmerged k (by omega) hn) fun j hj => ih _ hj j rfl
      · rw [hunused k (by omega), h.unused k (by omega)]

/-- The built tree is proper (43_tree R113). -/
theorem BuiltTree.proper (h : BuiltTree s node root) : proper node root = true := by
  obtain ⟨V, Y, htree, hV, hY, -⟩ := h.tree
  exact proper_iff.2 ⟨V, Y, htree, hV, hY.nodup_iff.2 s.nodup_liveSyms⟩

/-- With no stream open GEN after BLD stores the codes of the built tree (43_tree R114, 44_codes R130). -/
theorem State.Buildable.bld_gen (hs : s.Buildable) (hmode : s.mode = .idle) : ∃ t codes, exec .bld s = .next t ∧
    BuiltTree s t.node t.root ∧ exec .gen t = .next { t with code := codes, cv := true } ∧
      IsCodeTable t.node t.root codes := by
  obtain ⟨t, ht, hframe, hb⟩ := hs.bld
  obtain ⟨codes, hgen, hcodes⟩ := exec_gen (s := t) (by rw [hframe]; exact hs.noError) (by rw [hframe])
    (by rw [hframe]; exact hmode) hb.proper
  exact ⟨t, codes, ht, hb, hgen, hcodes⟩

end built

/-! ## Code lengths that satisfy Kraft's inequality -/

section kraft

open InformationTheory

/-- Kraft's inequality for the lengths `l` of the code words of the items `S`. -/
def Kraft {ι : Type} (S : Finset ι) (l : ι → Nat) : Prop := ∑ i ∈ S, (1 / 2 : ℝ) ^ l i ≤ 1

/-- The total of weight times length. -/
def weightedLength {ι : Type} (S : Finset ι) (w l : ι → Nat) : Nat := ∑ i ∈ S, w i * l i

/-- Words of which none begins another, and none is empty, can be told apart in a row. -/
theorem uniquelyDecodable_of_prefixFree {C : Set (List Bool)} (hne : [] ∉ C)
    (hpre : ∀ x ∈ C, ∀ y ∈ C, x <+: y → x = y) : UniquelyDecodable C := by
  intro L₁
  induction L₁ with
  | nil =>
    rintro (_ | ⟨y, L₂⟩) - h₂ heq
    · rfl
    · have hy : y = [] := (List.append_eq_nil_iff.1 heq.symm).1
      exact (hne (hy ▸ h₂ y List.mem_cons_self)).elim
  | cons x L₁ ih =>
    rintro (_ | ⟨y, L₂⟩) h₁ h₂ heq
    · have hx : x = [] := (List.append_eq_nil_iff.1 heq).1
      exact (hne (hx ▸ h₁ x List.mem_cons_self)).elim
    · rw [List.flatten_cons, List.flatten_cons] at heq
      have hx := h₁ x List.mem_cons_self
      have hy := h₂ y List.mem_cons_self
      have hxy : x = y := by
        obtain h | h := List.prefix_or_prefix_of_prefix (List.prefix_append x L₁.flatten)
          (heq ▸ List.prefix_append y L₂.flatten)
        · exact hpre x hx y hy h
        · exact (hpre y hy x hx h).symm
      subst hxy
      rw [ih L₂ (fun w hw => h₁ w (List.mem_cons_of_mem _ hw)) (fun w hw => h₂ w (List.mem_cons_of_mem _ hw))
        (List.append_cancel_left heq)]

/-- Words for two or more symbols, of which none begins another, satisfy Kraft's inequality. -/
theorem kraft_of_prefixFree {Y : Finset Sym} {c : Sym → List Bool} (h2 : 1 < Y.card)
    (hc : ∀ x ∈ Y, ∀ y ∈ Y, x ≠ y → ¬ c x <+: c y) : Kraft Y fun x => (c x).length := by
  have hinj : Set.InjOn c Y := fun x hx y hy hxy => by
    by_contra hne
    exact hc x hx y hy hne (hxy ▸ List.prefix_rfl)
  have hdec : UniquelyDecodable ((Y.image c : Finset (List Bool)) : Set (List Bool)) := by
    refine uniquelyDecodable_of_prefixFree (fun hnil => ?_) fun u hu v hv huv => ?_
    · obtain ⟨x, hx, hnil⟩ := Finset.mem_image.1 (Finset.mem_coe.1 hnil)
      obtain ⟨y, hy, hyx⟩ := Finset.exists_mem_ne h2 x
      exact hc x hx y hy hyx.symm (hnil ▸ List.nil_prefix)
    · obtain ⟨x, hx, rfl⟩ := Finset.mem_image.1 (Finset.mem_coe.1 hu)
      obtain ⟨y, hy, rfl⟩ := Finset.mem_image.1 (Finset.mem_coe.1 hv)
      by_contra hne
      exact hc x hx y hy (fun h => hne (h ▸ rfl)) huv
  have hsum := kraft_mcmillan_inequality hdec
  rwa [Finset.sum_image hinj, Fintype.card_bool, Nat.cast_ofNat] at hsum

variable {ι : Type} [DecidableEq ι] {S : Finset ι} {w l : ι → Nat} {a b k : ι}

/-- Two terms of a sum taken out. -/
theorem sum_eq_add_add_erase {M : Type} [AddCommMonoid M] (f : ι → M) (ha : a ∈ S) (hb : b ∈ S) (hab : a ≠ b) :
    ∑ i ∈ S, f i = f a + (f b + ∑ i ∈ (S.erase a).erase b, f i) := by
  rw [Finset.add_sum_erase _ _ (Finset.mem_erase.2 ⟨hab.symm, hb⟩), Finset.add_sum_erase _ _ ha]

/-- A swap of two items' lengths keeps Kraft's inequality. -/
theorem Kraft.swap (hl : Kraft S l) (ha : a ∈ S) (hb : b ∈ S) : Kraft S (l ∘ Equiv.swap a b) := by
  refine (Equiv.Perm.sum_comp (Equiv.swap a b) S (fun i => (1 / 2 : ℝ) ^ l i) fun i hi => ?_).trans_le hl
  obtain rfl | rfl := (Equiv.swap_apply_ne_self_iff.1 hi).2 <;> assumption

/-- Giving the greater length to the lesser weight does not raise the total. -/
theorem weightedLength_swap_le (ha : a ∈ S) (hb : b ∈ S) (hw : w a ≤ w b) (hl : l a ≤ l b) :
    weightedLength S w (l ∘ Equiv.swap a b) ≤ weightedLength S w l := by
  obtain rfl | hab := eq_or_ne a b
  · rw [Equiv.swap_self]; rfl
  rw [weightedLength, weightedLength, sum_eq_add_add_erase _ ha hb hab, sum_eq_add_add_erase _ ha hb hab,
    ← Nat.add_assoc, ← Nat.add_assoc, Function.comp_apply, Function.comp_apply, Equiv.swap_apply_left,
    Equiv.swap_apply_right]
  refine Nat.add_le_add (mul_add_mul_le_mul_add_mul hw hl) (Finset.sum_congr rfl fun i hi => ?_).le
  rw [Finset.mem_erase, Finset.mem_erase] at hi
  rw [Function.comp_apply, Equiv.swap_apply_of_ne_of_ne hi.2.1 hi.1]

/-- The lengths of the items `T` can be rearranged so that an item of least weight has the greatest of them, without
raising the total. -/
theorem Kraft.exists_deepest {T : Finset ι} (hl : Kraft S l) (hT : T ⊆ S) (ha : a ∈ T) (hmin : ∀ i ∈ T, w a ≤ w i) :
    ∃ l', Kraft S l' ∧ weightedLength S w l' ≤ weightedLength S w l ∧ (∀ i ∈ T, l' i ≤ l' a) ∧
      (∀ i ∉ T, l' i = l i) ∧ ∀ i ∈ T, ∃ j ∈ T, l' i = l j := by
  obtain ⟨x, hx, hmax⟩ := T.exists_max_image l ⟨a, ha⟩
  have hmem (i : ι) (hi : i ∈ T) : Equiv.swap a x i ∈ T := by
    rw [Equiv.swap_apply_def]
    split_ifs <;> assumption
  refine ⟨l ∘ Equiv.swap a x, hl.swap (hT ha) (hT hx), weightedLength_swap_le (hT ha) (hT hx) (hmin x hx) (hmax a ha),
    fun i hi => ?_, fun i hi => ?_, fun i hi => ⟨_, hmem i hi, rfl⟩⟩
  · rw [Function.comp_apply, Function.comp_apply, Equiv.swap_apply_left]
    exact hmax _ (hmem i hi)
  · rw [Function.comp_apply, Equiv.swap_apply_of_ne_of_ne] <;> rintro rfl <;> exact hi ‹_›

/-- The greatest length can be cut down to the next: what the other code words leave free is a multiple of the least
of their shares. -/
theorem Kraft.level (hl : Kraft S l) (ha : a ∈ S) (hb : b ∈ S) (hab : a ≠ b) (hmax : ∀ i ∈ S, i ≠ a → l i ≤ l b) :
    Kraft S (Function.update l a (l b)) ∧ 0 < l b := by
  have hpos : (0 : ℝ) < (1 / 2) ^ l a := by positivity
  have hpow : (0 : ℝ) < 2 ^ l b := by positivity
  have hrest : ∑ i ∈ S.erase a, (1 / 2 : ℝ) ^ l i = (∑ i ∈ S.erase a, 2 ^ (l b - l i) : Nat) / 2 ^ l b := by
    push_cast
    rw [Finset.sum_div]
    refine Finset.sum_congr rfl fun i hi => ?_
    have hi' := hmax i (Finset.mem_of_mem_erase hi) (Finset.ne_of_mem_erase hi)
    rw [eq_div_iff hpow.ne', one_div, inv_pow, pow_sub₀ _ two_ne_zero hi', mul_comm]
  have hlt : ∑ i ∈ S.erase a, 2 ^ (l b - l i) < 2 ^ l b := by
    rw [Kraft, ← Finset.add_sum_erase _ _ ha, hrest] at hl
    have : ((∑ i ∈ S.erase a, 2 ^ (l b - l i) : Nat) : ℝ) / 2 ^ l b < 1 := by linarith
    rw [div_lt_one hpow] at this
    exact_mod_cast this
  have hone : 1 ≤ ∑ i ∈ S.erase a, 2 ^ (l b - l i) := by
    rw [← Finset.add_sum_erase _ _ (Finset.mem_erase.2 ⟨hab.symm, hb⟩), Nat.sub_self]
    exact Nat.le_add_right ..
  refine ⟨?_, Nat.pos_of_ne_zero fun h0 => by rw [h0, pow_zero] at hlt; rw [h0] at hone; omega⟩
  have hkeep : ∑ i ∈ S.erase a, (1 / 2 : ℝ) ^ Function.update l a (l b) i = ∑ i ∈ S.erase a, (1 / 2 : ℝ) ^ l i :=
    Finset.sum_congr rfl fun i hi => by rw [Function.update_of_ne (Finset.ne_of_mem_erase hi)]
  rw [Kraft, ← Finset.add_sum_erase _ _ ha, hkeep, hrest, Function.update_self, one_div, inv_pow, ← one_div, ← add_div,
    div_le_one hpow, add_comm]
  exact_mod_cast hlt

/-- Two items of equal length merged into one that is one bit shorter. -/
theorem Kraft.merge {m : Nat} (hl : Kraft S l) (ha : a ∈ S) (hb : b ∈ S) (hab : a ≠ b) (hk : k ∉ S)
    (hla : l a = m + 1) (hlb : l b = m + 1) (hwk : w k = w a + w b) :
    Kraft (insert k ((S.erase a).erase b)) (Function.update l k m) ∧
      w k + weightedLength (insert k ((S.erase a).erase b)) w (Function.update l k m) = weightedLength S w l := by
  have hk' : k ∉ (S.erase a).erase b := fun h => hk (Finset.mem_of_mem_erase (Finset.mem_of_mem_erase h))
  have hkeep (i : ι) (hi : i ∈ (S.erase a).erase b) : Function.update l k m i = l i :=
    Function.update_of_ne (fun h : i = k => hk' (h ▸ hi)) ..
  constructor
  · rw [Kraft, sum_eq_add_add_erase _ ha hb hab, hla, hlb] at hl
    rw [Kraft, Finset.sum_insert hk', Finset.sum_congr rfl fun i hi => by rw [hkeep i hi], Function.update_self]
    rw [pow_succ] at hl
    linarith
  · rw [weightedLength, weightedLength, Finset.sum_insert hk', sum_eq_add_add_erase _ ha hb hab, Function.update_self,
      Finset.sum_congr rfl fun i hi => by rw [hkeep i hi], hla, hlb, hwk]
    ring

/-- Huffman's step: lengths for `S` give lengths for `S` with its two least items merged whose total is less by the
weight of the merged item. -/
theorem Kraft.huffman_step (hl : Kraft S l) (ha : a ∈ S) (hb : b ∈ S) (hab : a ≠ b) (hk : k ∉ S)
    (hwk : w k = w a + w b) (hwa : ∀ i ∈ S, w a ≤ w i) (hwb : ∀ i ∈ S, i ≠ a → w b ≤ w i) :
    ∃ l', Kraft (insert k ((S.erase a).erase b)) l' ∧
      w k + weightedLength (insert k ((S.erase a).erase b)) w l' ≤ weightedLength S w l := by
  obtain ⟨l₁, hl₁, hle₁, hmax₁, -, -⟩ := hl.exists_deepest (w := w) subset_rfl ha hwa
  obtain ⟨l₂, hl₂, hle₂, hmax₂, hout₂, hin₂⟩ := hl₁.exists_deepest (w := w) (Finset.erase_subset a S)
    (Finset.mem_erase.2 ⟨hab.symm, hb⟩) fun i hi => hwb i (Finset.mem_of_mem_erase hi) (Finset.ne_of_mem_erase hi)
  have hba : l₂ b ≤ l₂ a := by
    obtain ⟨j, hj, hbj⟩ := hin₂ b (Finset.mem_erase.2 ⟨hab.symm, hb⟩)
    rw [hbj, hout₂ a (Finset.notMem_erase a S)]
    exact hmax₁ j (Finset.mem_of_mem_erase hj)
  obtain ⟨hl₃, hpos⟩ := hl₂.level ha hb hab fun i hi hia => hmax₂ i (Finset.mem_erase.2 ⟨hia, hi⟩)
  have hle₃ : weightedLength S w (Function.update l₂ a (l₂ b)) ≤ weightedLength S w l₂ :=
    Finset.sum_le_sum fun i _ => Nat.mul_le_mul_left _ (by
      rw [Function.update_apply]
      split
      · rename_i h; rwa [h]
      · exact le_rfl)
  obtain ⟨m, hm⟩ : ∃ m, l₂ b = m + 1 := ⟨l₂ b - 1, by omega⟩
  obtain ⟨hkraft, hcost⟩ := hl₃.merge (w := w) ha hb hab hk (by rw [Function.update_self, hm])
    (by rw [Function.update_of_ne hab.symm, hm]) hwk
  exact ⟨_, hkraft, by omega⟩

end kraft

/-! ## The lengths of the built tree's codes are the best (43_tree R123) -/

section optimal

variable {s : State} {nodes node : Table NodeEntry} {i k root : NodeIdx} {V : List NodeIdx} {Y : List Sym} {L n N : Nat}

/-- Lengths that satisfy Kraft's inequality for the nodes unmerged at `n` cost at least the weights of the nodes made
from then on: the step is Huffman's, backwards from the root (43_tree R112). -/
theorem Merged.le_weightedLength (h : Merged nodes L N) (hN : N ≤ 512) (hL : L ≤ n) {S R : Finset NodeIdx}
    (hS : ∀ i, i ∈ S ↔ Unmerged nodes L n i) (hR : ∀ k, k ∈ R ↔ n ≤ k.toNat ∧ k.toNat < N) {l : NodeIdx → Nat}
    (hl : Kraft S l) : ∑ k ∈ R, weightAt nodes k ≤ weightedLength S (weightAt nodes) l := by
  induction hd : N - n generalizing n S R l with
  | zero =>
    have hempty : R = ∅ := Finset.eq_empty_of_forall_notMem fun k hk => by have := (hR k).1 hk; omega
    rw [hempty]
    exact Nat.zero_le _
  | succ d ih =>
    obtain ⟨k, rfl⟩ : ∃ k : NodeIdx, k.toNat = n := ⟨BitVec.ofNat 9 n, by rw [BitVec.toNat_ofNat]; omega⟩
    have hk := mergesLeast_iff.1 (h k hL (by omega))
    have hmerged : Merged nodes L (k.toNat + 1) := fun j hLj hj => h j hLj (by omega)
    obtain ⟨l', hl', hle⟩ := hl.huffman_step (w := weightAt nodes) ((hS _).2 hk.left) ((hS _).2 hk.right)
      (ne_of_less hk.less) (fun hm => absurd ((hS k).1 hm).1 (Nat.lt_irrefl _)) hk.weight
      (fun i hi => by
        obtain rfl | rfl | hri := hk.least i ((hS i).1 hi)
        · exact le_rfl
        · exact weightAt_le_of_less hk.less
        · exact weightAt_le_of_less (less_trans hk.less hri))
      (fun i hi hia => by
        obtain rfl | hri := (hk.least i ((hS i).1 hi)).resolve_left hia
        · exact le_rfl
        · exact weightAt_le_of_less hri)
    have hkR : k ∈ R := (hR k).2 ⟨le_rfl, by omega⟩
    rw [← Finset.add_sum_erase _ _ hkR]
    refine (Nat.add_le_add_left (ih (hL.trans (Nat.le_succ _)) (fun i => ?_) (fun j => ?_) hl' (by omega)) _).trans hle
    · rw [hmerged.unmerged_succ hL, Finset.mem_insert, Finset.mem_erase, Finset.mem_erase, hS]
      tauto
    · rw [Finset.mem_erase, hR, ← BitVec.toNat_inj.ne]
      omega

theorem totalBits_append (xs ys : List Sym) (count len : Sym → Nat) :
    totalBits (xs ++ ys) count len = totalBits xs count len + totalBits ys count len := by
  rw [totalBits, List.map_append, List.sum_append]; rfl

theorem totalBits_perm {xs ys : List Sym} (h : xs.Perm ys) (count len : Sym → Nat) :
    totalBits xs count len = totalBits ys count len := (h.map _).sum_eq

/-- The leaves of a tree, in order, carry its symbols. -/
theorem IsTree.map_sym_leaves (h : IsTree nodes i V Y) :
    (V.filter fun k => (nodeAt nodes k).leaf).map (fun k => (nodeAt nodes k).sym) = Y := by
  induction h with
  | leaf i _ hleaf => simp [hleaf]
  | node i Vl Vr Yl Yr _ hleaf _ _ ihl ihr => simp [hleaf, ihl, ihr]

/-- In a tree whose internal nodes weigh as much as their children, the leaves' weights times their depths below a node
at depth `d` are the weights of the internal nodes, and `d` times its own. -/
theorem IsTree.totalBits_depth (h : IsTree nodes i V Y) {count len : Sym → Nat} {d : Nat}
    (hleaf : ∀ k ∈ V, (nodeAt nodes k).leaf = true → weightAt nodes k = count (nodeAt nodes k).sym)
    (hnode : ∀ k ∈ V, (nodeAt nodes k).leaf = false →
      weightAt nodes k = weightAt nodes (nodeAt nodes k).left + weightAt nodes (nodeAt nodes k).right)
    (hlen : ∀ bits x, LeafAt nodes i bits x → len x = d + bits.length) :
    totalBits Y count len =
      d * weightAt nodes i + ((V.filter fun k => !(nodeAt nodes k).leaf).map (weightAt nodes)).sum := by
  induction h generalizing d with
  | leaf i hi hl =>
    have hd := hlen [] _ ((leafAt_of_leaf hi hl).2 ⟨rfl, rfl⟩)
    simp [totalBits, hd, hl, hleaf i List.mem_cons_self hl, Nat.mul_comm]
  | node i Vl Vr Yl Yr hi hl _ _ ihl ihr =>
    have hchild (b : Bool) (bits : List Bool) (x : Sym) (hx : LeafAt nodes ((nodeAt nodes i).child b) bits x) :
        len x = d + 1 + bits.length := by
      rw [hlen _ x ((leafAt_of_internal hi hl).2 ⟨b, bits, rfl, hx⟩), List.length_cons]; omega
    rw [totalBits_append, ihl (fun k hk => hleaf k (by simp [hk])) (fun k hk => hnode k (by simp [hk])) (hchild false),
      ihr (fun k hk => hleaf k (by simp [hk])) (fun k hk => hnode k (by simp [hk])) (hchild true)]
    simp only [List.filter_cons, hl, Bool.not_false, if_true, List.filter_append, List.map_cons, List.map_append,
      List.sum_cons, List.sum_append, hnode i List.mem_cons_self hl]
    ring

/-- A sum over a tree's leaves is one over its symbols. -/
theorem IsTree.sum_leaves {M : Type} [AddCommMonoid M] (h : IsTree nodes i V Y) (hV : V.Nodup) (f : Sym → M) :
    ∑ k ∈ (V.filter fun k => (nodeAt nodes k).leaf).toFinset, f (nodeAt nodes k).sym = (Y.map f).sum := by
  rw [List.sum_toFinset _ (hV.filter _), ← h.map_sym_leaves, List.map_map]
  rfl

/-- The code of a leaf is as long as its bit-string (44_codes R131, R134). -/
theorem IsCodeTable.len_eq {codes : Table Code} {bits : List Bool} {x : Sym} (hc : IsCodeTable nodes i codes)
    (h : IsTree nodes i V Y) (hY : Y.Nodup) (hx : LeafAt nodes i bits x) :
    (codeAt codes x).len.toNat = (leafCode bits).length := by
  rw [(hc x).1 bits hx]
  refine (codeOfBits_fits ?_).1
  have := h.path_length_lt hx
  have := length_le_of_nodup_symbols hY
  rw [leafCode, Config.maxCodeLen]
  split
  · simp
  · omega

/-- Words for the symbols of a tree, of which none begins another, give its leaves lengths that satisfy Kraft's
inequality. -/
theorem IsTree.kraft_leaves (h : IsTree nodes i V Y) (hV : V.Nodup) (hY : Y.Nodup) (h2 : 1 < Y.length)
    {c : Sym → List Bool} (hc : ∀ x ∈ Y, ∀ y ∈ Y, x ≠ y → ¬ c x <+: c y) :
    Kraft (V.filter fun k => (nodeAt nodes k).leaf).toFinset fun k => (c (nodeAt nodes k).sym).length := by
  have hsyms : Kraft Y.toFinset fun x => (c x).length :=
    kraft_of_prefixFree (by rwa [List.toFinset_card_of_nodup hY]) fun x hx y hy =>
      hc x (List.mem_toFinset.1 hx) y (List.mem_toFinset.1 hy)
  rw [Kraft, List.sum_toFinset _ hY, ← h.sum_leaves hV] at hsyms
  exact hsyms

/-- The leaves are the nodes unmerged when the merging starts (43_tree R111). -/
theorem BuiltTree.unmerged_leaves (h : BuiltTree s node root) :
    Unmerged node s.liveSyms.length s.liveSyms.length k ↔ k.toNat ≤ root.toNat ∧ (nodeAt node k).leaf = true := by
  have := h.root_eq
  constructor
  · rintro ⟨hlt, -⟩
    have hk : k.toNat ≤ root.toNat := by omega
    refine ⟨hk, ?_⟩
    rw [← Bool.not_eq_false, h.leaf_eq_false_iff hk]; omega
  · rintro ⟨hk, hleaf⟩
    rw [← Bool.not_eq_false, h.leaf_eq_false_iff hk] at hleaf
    exact ⟨by omega, fun j hL hj => by omega⟩

/-- A leaf of the built tree weighs as much as its symbol occurs (43_tree R111). -/
theorem BuiltTree.weight_leaf (h : BuiltTree s node root) (hk : k.toNat ≤ root.toNat)
    (hleaf : (nodeAt node k).leaf = true) : weightAt node k = (s.freqAt (nodeAt node k).sym).toNat := by
  obtain ⟨hlt, -⟩ := h.unmerged_leaves.2 ⟨hk, hleaf⟩
  rw [weightAt, h.leaves k _ (List.getElem?_eq_getElem hlt), toNat_freq_leafOf]
  rfl

/-- Codes as long as their leaves are deep take as many bits as the internal nodes' frequencies add up to, and no
assignment in which no word begins another takes fewer (43_tree R123). -/
theorem BuiltTree.totalBits_le (h : BuiltTree s node root) (h2 : 2 ≤ s.liveSyms.length) {len : Sym → Nat}
    (hlen : ∀ bits x, LeafAt node root bits x → len x = bits.length) {c : Sym → List Bool}
    (hc : ∀ x ∈ s.liveSyms, ∀ y ∈ s.liveSyms, x ≠ y → ¬ c x <+: c y) :
    totalBits s.liveSyms (fun x => (s.freqAt x).toNat) len ≤
      totalBits s.liveSyms (fun x => (s.freqAt x).toNat) (fun x => (c x).length) := by
  obtain ⟨V, Y, htree, hV, hY, hmem⟩ := h.tree
  have hroot := h.root_eq
  have hkraft := htree.kraft_leaves hV (hY.nodup_iff.2 s.nodup_liveSyms) (by rw [hY.length_eq]; omega)
    fun x hx y hy => hc x (hY.mem_iff.1 hx) y (hY.mem_iff.1 hy)
  have hleaves (k : NodeIdx) : k ∈ (V.filter fun k => (nodeAt node k).leaf).toFinset ↔
      Unmerged node s.liveSyms.length s.liveSyms.length k := by
    rw [List.mem_toFinset, List.mem_filter, hmem, h.unmerged_leaves]
  have hnodes (k : NodeIdx) : k ∈ (V.filter fun k => !(nodeAt node k).leaf).toFinset ↔
      s.liveSyms.length ≤ k.toNat ∧ k.toNat < 2 * s.liveSyms.length - 1 := by
    rw [List.mem_toFinset, List.mem_filter, hmem, Bool.not_eq_true', and_congr_right fun hk => h.leaf_eq_false_iff hk]
    omega
  rw [← totalBits_perm hY, ← totalBits_perm hY]
  calc totalBits Y (fun x => (s.freqAt x).toNat) len
    _ = ((V.filter fun k => !(nodeAt node k).leaf).map (weightAt node)).sum := by
      rw [htree.totalBits_depth (d := 0) (fun k hk => h.weight_leaf ((hmem k).1 hk)) (fun k hk hleaf => ?_)
        fun bits x hx => (hlen bits x hx).trans (Nat.zero_add _).symm, Nat.zero_mul, Nat.zero_add]
      obtain ⟨hL, hlt⟩ := (hnodes k).1 (List.mem_toFinset.2 (List.mem_filter.2 ⟨hk, by rw [hleaf]; rfl⟩))
      exact (mergesLeast_iff.1 (h.merged k hL hlt)).weight
    _ = ∑ k ∈ (V.filter fun k => !(nodeAt node k).leaf).toFinset, weightAt node k :=
      (List.sum_toFinset _ (hV.filter _)).symm
    _ ≤ weightedLength (V.filter fun k => (nodeAt node k).leaf).toFinset (weightAt node)
        fun k => (c (nodeAt node k).sym).length :=
      h.merged.le_weightedLength (by have := s.length_liveSyms_le; omega) le_rfl hleaves hnodes hkraft
    _ = totalBits Y (fun x => (s.freqAt x).toNat) fun x => (c x).length := by
      rw [totalBits, ← htree.sum_leaves hV]
      refine Finset.sum_congr rfl fun k hk => ?_
      rw [List.mem_toFinset, List.mem_filter, hmem] at hk
      rw [h.weight_leaf hk.1 hk.2]

end optimal

/-! ## The statements -/

/-- Settles O34, by the sequence check and `exec_bld_empty`. -/
theorem buildErrorsChangeNothingElse : Obligations.BuildErrorsChangeNothingElse :=
  ⟨rfl, illegalWords_opcode .bld, fun _ he => ⟨raisesSequence_of_tree rfl id he, exec_bld_empty he⟩⟩

/-- Settles O37, by the sequence check, `exec_twn` and `exec_twf`. -/
theorem nodeWritesStoreTheirFields : Obligations.NodeWritesStoreTheirFields := by
  refine ⟨illegalWords_opcode .twn, illegalWords_opcode .twf, fun idx leaf sym left right freq s =>
    ⟨?_, ?_, fun hidx he => ⟨fun htv => ⟨?_, ?_⟩, fun htv => ⟨?_, ?_⟩⟩⟩⟩
  · rw [toNat_encode, toNat_operands_twn]
    simp only [Nat.add_assoc]
    rfl
  · rw [toNat_encode, toNat_operands_twf, Nat.add_assoc]
    rfl
  · exact raisesSequence_of_tree (bne_iff_ne.2 hidx) id he htv
  · exact raisesSequence_of_tree (bne_iff_ne.2 hidx) id he htv
  · exact ⟨_, exec_twn hidx leaf sym left right he htv, fun i => nodeAt_setNodeAt ..⟩
  · exact ⟨_, exec_twf hidx freq he htv, fun i => nodeAt_setNodeAt ..⟩

/-- Settles O38, by the sequence check and the two cases of TCM. -/
theorem treeCommitAdoptsExactlyProperTrees : Obligations.TreeCommitAdoptsExactlyProperTrees := by
  refine ⟨illegalWords_opcode .tcm, fun idx s =>
    ⟨?_, fun hidx => raisesSequence_of_tree (bne_iff_ne.2 hidx) id, exec_tcm_proper, exec_tcm_not_proper⟩⟩
  rw [toNat_encode, Instr.operands, toNat_zero_append]
  rfl

/-- Settles O40: the responses are the operand fields of TWN and TWF by `nodeWord_eq` and `nodeFreqWord_eq`. -/
theorem nodeReadsReturnTheirFields : Obligations.NodeReadsReturnTheirFields := by
  refine ⟨illegalWords_opcode .trn, illegalWords_opcode .trf, fun idx s => ⟨?_, ?_, fun hidx =>
    ⟨⟨_, exec_trn hidx s, ?_⟩, _, exec_trf hidx s, ?_⟩⟩⟩
  · rw [toNat_encode, Instr.operands, toNat_zero_append]
    rfl
  · rw [toNat_encode, Instr.operands, toNat_zero_append]
    rfl
  · rw [nodeWord_eq, toNat_zero_append, toNat_operands_twn]
  · rw [nodeFreqWord_eq, toNat_zero_append, toNat_operands_twf]

/-- Settles O39, by `proper_iff`; the bounds by counting leaves, and the EMPTY entry by `IsTree.ne_empty`. -/
theorem properMeansADistinctlyLabelledTree : Obligations.ProperMeansADistinctlyLabelledTree := by
  refine ⟨fun nodes r => proper_iff, fun nodes r V Y ht hV hY => ⟨length_le_of_nodup_symbols hY, ?_, fun bits x hx => ?_⟩,
    fun nodes r he => ?_⟩
  · have := ht.length_nodes; omega
  · obtain ⟨hmem, hlt⟩ := ht.mem_of_follow hx
    exact ⟨hmem, Nat.le_sub_one_of_lt hlt⟩
  · rw [Bool.eq_false_iff]
    intro hp
    obtain ⟨V, Y, ht, -, -⟩ := proper_iff.1 hp
    exact ht.ne_empty he

/-- Settles O31, by `State.Buildable.bld`. -/
theorem buildNumbersTheLeavesInSymbolOrder : Obligations.BuildNumbersTheLeavesInSymbolOrder := by
  intro s hs
  obtain ⟨t, ht, hframe, hb⟩ := hs.bld
  have hroot := hb.root_eq
  refine ⟨t, ht, hframe, List.length_pos_iff.2 hs.live, s.length_liveSyms_le, s.pairwise_liveSyms, s.mem_liveSyms,
    hb.leaves, fun k hL hk => (hb.leaf_eq_false_iff (by omega)).2 hL⟩

/-- Settles O32: `Numbered.merge` at each round; the order of the two children is the heap's. -/
theorem buildMergesTheTwoLeastNodes : Obligations.BuildMergesTheTwoLeastNodes := by
  intro s hs
  obtain ⟨t, ht, -, hb⟩ := hs.bld
  have hroot := hb.root_eq
  refine ⟨t, ht, by omega, fun k hL hk => ?_⟩
  have hk := hb.merged k hL (by omega)
  have hlr := less_iff.1 (mergesLeast_iff.1 hk).less
  exact ⟨hk, by omega, fun he => by rw [he] at hlr; omega⟩

/-- Settles O33: the tree is `BuiltTree.tree`, and it is a function of the counters by `BuiltTree.node_unique`. -/
theorem buildLeavesAProperTreeOfFreqAlone : Obligations.BuildLeavesAProperTreeOfFreqAlone := by
  intro s hs
  obtain ⟨t, ht, -, hb⟩ := hs.bld
  have hroot := hb.root_eq
  obtain ⟨V, Y, htree, -, -, hmem⟩ := hb.tree
  refine ⟨t, ht, by omega, hb.proper, fun k hk _ => hb.unused k hk,
    hb.total.trans s.countTotal_liveSyms, fun k hk hleaf => ?_, ⟨V, Y, htree, hmem⟩, fun s' hs' hfreq => ?_⟩
  · exact (hb.merged k ((hb.leaf_eq_false_iff hk).1 hleaf) (by omega)).children_lt
  · obtain ⟨t', ht', -, hb'⟩ := hs'.bld
    obtain ⟨hr, hn⟩ := hb.node_unique hb' hfreq
    exact ⟨t', ht', hr, hn⟩

/-- Settles O35: with one symbol node 0 is leaf and root, and GEN's table gives the root's leaf the code "0". -/
theorem oneSymbolBuildsASingleLeaf : Obligations.OneSymbolBuildsASingleLeaf := by
  intro s sym hs hmode hone
  have hlive : s.liveSyms = [sym] := by
    refine List.perm_singleton.1 ((List.perm_ext_iff_of_nodup s.nodup_liveSyms (List.nodup_singleton sym)).2 fun x => ?_)
    rw [s.mem_liveSyms, hone, List.mem_singleton]
  obtain ⟨t, codes, ht, hb, hgen, hcodes⟩ := hs.bld_gen hmode
  have hroot : t.root = 0#9 := BitVec.eq_of_toNat_eq (by simpa [hlive] using hb.root_eq)
  have hleaf : nodeAt t.node 0#9 = s.leafOf sym := hb.leaves 0#9 sym (by rw [hlive]; rfl)
  have hpath : LeafAt t.node t.root [] sym := by
    rw [hroot]
    exact (leafAt_of_leaf (by decide) (by rw [hleaf]; rfl)).2 ⟨rfl, by rw [hleaf]; rfl⟩
  have hcode : codeAt codes sym = ⟨1#8, 0#255⟩ := (hcodes sym).1 [] hpath
  refine ⟨t, ht, hroot, hleaf, _, hgen, hcode, ?_⟩
  rw [hcode]
  rfl

/-- Settles O36: the built codes are as long as their leaves are deep; `BuiltTree.totalBits_le` compares them with any
assignment in which no word begins another. -/
theorem builtTreeIsOptimal : Obligations.BuiltTreeIsOptimal := by
  intro s hs hmode
  obtain ⟨t, codes, ht, hb, hgen, hcodes⟩ := hs.bld_gen hmode
  obtain ⟨V, Y, htree, -, hY, -⟩ := hb.tree
  have hlen (bits : List Bool) (x : Sym) (hx : LeafAt t.node t.root bits x) :
      (codeAt codes x).len.toNat = (leafCode bits).length :=
    hcodes.len_eq htree (hY.nodup_iff.2 s.nodup_liveSyms) hx
  have hleafAt (x : Sym) (hx : x ∈ s.liveSyms) : ∃ bits, LeafAt t.node t.root bits x :=
    htree.mem_symbols_iff.1 (hY.mem_iff.2 hx)
  refine ⟨t, _, ht, hgen, fun h2 => ?_, fun h1 => ?_⟩
  · have hroot := hb.root_eq
    have hinternal : (nodeAt t.node t.root).leaf = false := (hb.leaf_eq_false_iff le_rfl).2 (by omega)
    have hdepth (bits : List Bool) (x : Sym) (hx : LeafAt t.node t.root bits x) :
        (codeAt codes x).len.toNat = bits.length := by
      obtain ⟨b, bs, rfl, -⟩ := (leafAt_of_internal htree.root_ne_null hinternal).1 hx
      exact hlen _ x hx
    refine ⟨fun x hx => ?_, fun c hc => hb.totalBits_le h2 hdepth hc⟩
    obtain ⟨bits, hbits⟩ := hleafAt x hx
    exact ⟨bits, hbits, (hdepth bits x hbits).symm⟩
  · refine congrArg List.sum (List.map_congr_left fun x hx => ?_)
    obtain ⟨bits, hbits⟩ := hleafAt x hx
    have hnil : bits = [] := by
      have := htree.path_length_lt hbits
      rw [hY.length_eq, h1] at this
      exact List.length_eq_zero_iff.1 (by omega)
    subst hnil
    simp only [hlen [] x hbits]
    exact Nat.mul_one _

end Sys2Proof.Machine

/-! # Proofs of the statements on codes (44_codes)

First what the three commands answer, and their words and chunks as numbers; then the bits of a code and the paths of
a tree; then the statements. -/

namespace Sys2Proof.Machine

/-! ## The commands' answers (44_codes R130, R135, R136) -/

section answers

/-- GEN, where it is legal and the table is `codes`, stores `codes` and sets CV (44_codes R130). -/
theorem exec_gen_of_codesOf {s : State} {codes : Table Code} (he : s.err = .none) (htv : s.tv = true)
    (hmode : s.mode = .idle) (hc : codesOf s.node s.root = .ok codes) :
    exec .gen s = .next { s with code := codes, cv := true } := by
  rw [exec, execGen, guarded_working (i := .gen) he rfl (State.seqOK_iff_legal.2 ⟨htv, hmode⟩), hc]

/-- CRL is performed in every state (44_codes R135). -/
theorem exec_crl (sym : Sym) (s : State) :
    exec (.crl sym) s = .next (s.respond (codeLenWord sym (codeAt s.code sym))) := by
  rw [exec, execCrl, guarded_always rfl rfl]

/-- CRW is performed in every state (44_codes R136). -/
theorem exec_crw (sym : Sym) (k : BitVec 2) (s : State) :
    exec (.crw sym k) s = .next (s.respond (codeChunk (codeAt s.code sym) k)) := by
  rw [exec, execCrw, guarded_always rfl rfl]

/-- CRWs of one symbol append the chunks in the order asked for (44_codes R136). -/
theorem execAll_crws (sym : Sym) (ks : List (BitVec 2)) (s : State) :
    execAll (ks.map fun k => .crw sym k) s =
      .next { s with rsp := s.rsp ++ ks.map fun k => codeChunk (codeAt s.code sym) k } := by
  induction ks generalizing s with
  | nil => rw [List.map_nil, List.map_nil, List.append_nil]; rfl
  | cons k ks ih =>
    rw [List.map_cons, execAll, exec_crw]
    refine (ih _).trans ?_
    rw [State.respond_rsp, State.respond_code, List.append_assoc, List.singleton_append, List.map_cons]
    rfl

end answers

/-! ## Responses as numbers (44_codes R135, R136, 20_memory R49) -/

section words

/-- CRL's response as a number (44_codes R135). -/
theorem toNat_codeLenWord (sym : Sym) (c : Code) : (codeLenWord sym c).toNat = sym.toNat + 2 ^ 8 * c.len.toNat := by
  rw [codeLenWord, toNat_append_eq_add, toNat_zero_append]

/-- CRW's response as a number (44_codes R136). -/
theorem toNat_codeChunk (c : Code) (k : BitVec 2) :
    (codeChunk c k).toNat = c.val.toNat / 2 ^ (64 * k.toNat) % 2 ^ 64 := by
  rw [codeChunk, BitVec.extractLsb'_toNat, BitVec.toNat_setWidth_of_le (by decide), Nat.shiftRight_eq_div_pow]

/-- The highest bit of the last chunk lies above the value (44_codes R136). -/
theorem getLsbD_codeChunk_three (c : Code) : (codeChunk c 3#2).getLsbD 63 = false := by
  have h : (codeChunk c 3#2).getLsbD 63 = (c.val.setWidth 256).getLsbD 255 := BitVec.getLsbD_extractLsb' ..
  rw [h, BitVec.getLsbD_setWidth, BitVec.getLsbD_of_ge _ _ le_rfl, Bool.and_false]

/-- The four chunks together are the whole value (20_memory R49). -/
theorem toNat_val_eq_chunks (c : Code) :
    c.val.toNat = (codeChunk c 0#2).toNat + 2 ^ 64 * (codeChunk c 1#2).toNat +
      2 ^ 128 * (codeChunk c 2#2).toNat + 2 ^ 192 * (codeChunk c 3#2).toNat := by
  have := c.val.isLt
  simp only [toNat_codeChunk, BitVec.toNat_ofNat, Nat.reduceMod, Nat.reducePow, Nat.reduceMul] at this ⊢
  omega

end words

/-! ## The bits of a code (44_codes R131, R132) -/

/-- The code of a bit-string that the value field can hold stands for that bit-string (00_scope R6). -/
theorem bits_codeOfBits {bits : List Bool} (h : bits.length ≤ Config.maxCodeLen) : (codeOfBits bits).bits = bits := by
  rw [Code.bits, (codeOfBits_fits h).1]
  induction bits using List.reverseRecOn with
  | nil => rfl
  | append_singleton bs b ih =>
    have hval : (codeOfBits (bs ++ [b])).val = ((codeOfBits bs).val ++ BitVec.ofBool b).setWidth 255 := by
      refine BitVec.eq_of_toNat_eq ?_
      rw [← codeOfBits_append, BitVec.toNat_setWidth, toNat_append_eq_add, Code.append, BitVec.toNat_add,
        BitVec.toNat_mul, BitVec.toNat_setWidth]
      simp only [BitVec.toNat_ofBool, BitVec.toNat_ofNat]
      cases b <;> omega
    rw [List.length_append, List.length_singleton] at h ⊢
    rw [hval, bitsDown_setWidth _ h, bitsDown_append_ofBool, ih (Nat.le_of_succ_le h)]

theorem length_leafCode (bits : List Bool) : (leafCode bits).length = max 1 bits.length := by
  cases bits <;> simp [leafCode]

section tree

variable {nodes : Table NodeEntry} {i : NodeIdx} {V V' : List NodeIdx} {Y Y' : List Sym} {bits bits' : List Bool}
  {x y : Sym} {codes : Table Code}

/-- The nodes and the leaf symbols of a tree are determined by its root (43_tree R118). -/
theorem IsTree.unique (h : IsTree nodes i V Y) (h' : IsTree nodes i V' Y') : V = V' ∧ Y = Y' := by
  induction h generalizing V' Y' with
  | leaf i hi hleaf =>
    cases h' with
    | leaf => exact ⟨rfl, rfl⟩
    | node _ _ _ _ _ _ hleaf' => cases hleaf.symm.trans hleaf'
  | node i Vl Vr Yl Yr hi hleaf _ _ ihl ihr =>
    cases h' with
    | leaf _ _ hleaf' => cases hleaf.symm.trans hleaf'
    | node _ _ _ _ _ _ _ hl hr =>
      obtain ⟨rfl, rfl⟩ := ihl hl
      obtain ⟨rfl, rfl⟩ := ihr hr
      exact ⟨rfl, rfl⟩

/-- No symbol is on two leaves of a proper tree (43_tree R118). -/
theorem IsTree.nodup_symbols (h : IsTree nodes i V Y) (hp : proper nodes i = true) : Y.Nodup := by
  obtain ⟨V', Y', h', -, hY⟩ := proper_iff.1 hp
  rwa [(h.unique h').2]

/-- A path to a leaf begins no path to another leaf (44_codes R137). -/
theorem IsTree.eq_of_prefix (h : IsTree nodes i V Y) (hx : LeafAt nodes i bits x) (hy : LeafAt nodes i bits' y)
    (hp : bits <+: bits') : x = y := by
  induction h generalizing bits bits' with
  | leaf i hi hleaf => exact ((leafAt_of_leaf hi hleaf).1 hx).2.symm.trans ((leafAt_of_leaf hi hleaf).1 hy).2
  | node i Vl Vr Yl Yr hi hleaf _ _ ihl ihr =>
    obtain ⟨b, bs, rfl, hxc⟩ := (leafAt_of_internal hi hleaf).1 hx
    obtain ⟨b', bs', rfl, hyc⟩ := (leafAt_of_internal hi hleaf).1 hy
    obtain ⟨rfl, hpc⟩ := List.cons_prefix_cons.1 hp
    cases b with
    | false => exact ihl hxc hyc hpc
    | true => exact ihr hxc hyc hpc

/-- The bit-string of one leaf's code begins no other's: an empty path, which the code "0" stands for, is the only
path of its tree (44_codes R132, R137). -/
theorem IsTree.eq_of_leafCode_prefix (h : IsTree nodes i V Y) (hx : LeafAt nodes i bits x)
    (hy : LeafAt nodes i bits' y) (hp : leafCode bits <+: leafCode bits') : x = y := by
  by_cases hb : bits = []
  · exact h.eq_of_prefix hx hy (hb ▸ List.nil_prefix)
  by_cases hb' : bits' = []
  · exact (h.eq_of_prefix hy hx (hb' ▸ List.nil_prefix)).symm
  · rw [leafCode, if_neg hb, leafCode, if_neg hb'] at hp
    exact h.eq_of_prefix hx hy hp

/-- A leaf's code has at most 255 bits (44_codes R134). -/
theorem IsTree.length_leafCode_le (h : IsTree nodes i V Y) (hY : Y.Nodup) (hx : LeafAt nodes i bits x) :
    (leafCode bits).length ≤ Config.maxCodeLen := by
  have := h.path_length_lt hx
  have := length_le_of_nodup_symbols hY
  rw [length_leafCode, Config.maxCodeLen]
  omega

/-- The bits of a leaf's table entry (44_codes R131, R132). -/
theorem IsCodeTable.bits_eq (hc : IsCodeTable nodes i codes) (h : IsTree nodes i V Y) (hY : Y.Nodup)
    (hx : LeafAt nodes i bits x) : (codeAt codes x).bits = leafCode bits := by
  rw [(hc x).1 bits hx, bits_codeOfBits (h.length_leafCode_le hY hx)]

/-- The length of a leaf's code is that of its path, or 1 for an empty path, and a path has fewer edges than the tree
has leaves (44_codes R134). -/
theorem IsCodeTable.len_bounds (hc : IsCodeTable nodes i codes) (h : IsTree nodes i V Y) (hY : Y.Nodup)
    (hx : x ∈ Y) : 1 ≤ (codeAt codes x).len.toNat ∧ (codeAt codes x).len.toNat ≤ 255 ∧
      (2 ≤ Y.length → (codeAt codes x).len.toNat ≤ Y.length - 1) := by
  obtain ⟨bits, hbits⟩ := h.mem_symbols_iff.1 hx
  have := h.path_length_lt hbits
  have := length_le_of_nodup_symbols hY
  rw [hc.len_eq h hY hbits, length_leafCode]
  omega

/-- A symbol with a code is on a leaf (44_codes R131). -/
theorem IsCodeTable.exists_leafAt (hc : IsCodeTable nodes i codes) (hx : (codeAt codes x).len ≠ 0#8) :
    ∃ bits, LeafAt nodes i bits x := by
  by_contra hn
  exact hx (by rw [(hc x).2 (not_exists.1 hn)]; rfl)

end tree

/-! ## The statements -/

/-- Settles O43: GEN's table is a function of NODE and ROOT alone, which GEN leaves as they are, so a second GEN
stores it again. -/
theorem generateFillsTheTreesCodes : Obligations.GenerateFillsTheTreesCodes := by
  refine ⟨rfl, illegalWords_opcode .gen, fun s he hill => raisesSequence_of_not_legal he rfl fun ⟨htv, hmode⟩ => ?_,
    fun s he htv hmode hp => ?_⟩
  · obtain h | h := hill
    · cases h.symm.trans htv
    · exact h hmode
  · obtain ⟨codes, hc, htable⟩ := codesOf_spec hp
    refine ⟨codes, exec_gen_of_codesOf he htv hmode hc, htable, fun hleaf => ?_, exec_gen_of_codesOf he htv hmode hc⟩
    obtain ⟨V, Y, htree, -, -⟩ := proper_iff.1 hp
    exact (htable _).1 [] ((leafAt_of_leaf htree.root_ne_null hleaf).2 ⟨rfl, rfl⟩)

/-- Settles O44, by `IsCodeTable.len_bounds` and `IsCodeTable.codeFits`; a symbol on no leaf has no code. -/
theorem codesHaveOneToTwoHundredFiftyFiveBits : Obligations.CodesHaveOneToTwoHundredFiftyFiveBits := by
  intro s V Y hp htree hc sym
  have hY := htree.nodup_symbols hp
  refine ⟨⟨fun hsym h0 => ?_, fun h0 => htree.mem_symbols_iff.2 (hc.exists_leafAt h0)⟩, fun hsym => ?_⟩
  · obtain ⟨hpos, -⟩ := hc.len_bounds htree hY hsym
    rw [h0] at hpos
    exact absurd hpos (by decide)
  · obtain ⟨hpos, hmax, hleaves⟩ := hc.len_bounds htree hY hsym
    exact ⟨hpos, hmax, hleaves, hc.codeFits hp sym⟩

/-- Settles O45: both codes are bit-strings of leaves, and `IsTree.eq_of_leafCode_prefix` compares those. -/
theorem codesArePrefixFree : Obligations.CodesArePrefixFree := by
  intro s hp hc x y hxy hx hy hpre
  obtain ⟨V, Y, htree, -, hY⟩ := proper_iff.1 hp
  obtain ⟨bits, hbits⟩ := hc.exists_leafAt hx
  obtain ⟨bits', hbits'⟩ := hc.exists_leafAt hy
  rw [hc.bits_eq htree hY hbits, hc.bits_eq htree hY hbits'] at hpre
  exact hxy (htree.eq_of_leafCode_prefix hbits hbits' hpre)

/-- Settles O46, by `exec_crl`, `exec_crw` and `execAll_crws`; the four chunks are the digits of the value to the
base 2^64. -/
theorem codeReadsReturnLengthAndChunks : Obligations.CodeReadsReturnLengthAndChunks := by
  refine ⟨illegalWords_opcode .crl, illegalWords_opcode .crw, fun sym s => ⟨?_, fun k => ?_,
    ⟨_, exec_crl sym s, toNat_codeLenWord ..⟩, fun k => ⟨_, exec_crw sym k s, toNat_codeChunk ..⟩,
    _, _, _, _, execAll_crws sym [0#2, 1#2, 2#2, 3#2] s, getLsbD_codeChunk_three _, toNat_val_eq_chunks _⟩⟩
  · rw [toNat_encode, Instr.operands, toNat_zero_append]
    rfl
  · rw [toNat_encode, Instr.operands, toNat_append_eq_add, toNat_zero_append, ← Nat.add_assoc]
    rfl

end Sys2Proof.Machine

/-! # Proofs of the statements on encoding (45_encode)

First what ENC and FLS answer; then how many bytes the packer emits and how many bits it keeps; then the statements.
That the packer keeps every bit in order is `packs_appendBits`, that a byte's padding is zeros
`byteBits_paddedByte`. -/

namespace Sys2Proof.Machine

/-! ## The commands' answers (45_encode R141, R142) -/

section answers

variable {s : State}

theorem Mode.idle_or_enc_of_ne_dec {m : Mode} (h : m ≠ .dec) : m = .idle ∨ m = .enc := by
  cases m with
  | idle => exact .inl rfl
  | enc => exact .inr rfl
  | dec => exact absurd rfl h

/-- A command that needs codes and no open decode raises SequenceError where it lacks them (60_exceptions R189). -/
theorem raisesSequence_of_packer_closed {i : Instr} (hw : i.wf = true)
    (hl : Legal s i → s.cv = true ∧ (s.mode = .idle ∨ s.mode = .enc)) (he : s.err = .none)
    (hclosed : s.cv = false ∨ s.mode = .dec) : RaisesSequence i s := by
  refine raisesSequence_of_not_legal he hw fun h => ?_
  obtain ⟨hcv, hmode⟩ := hl h
  obtain hno | hdec := hclosed
  · cases hno.symm.trans hcv
  · rw [hdec] at hmode
    exact absurd hmode (by decide)

/-- ENC of a symbol without a code raises before any bit is appended (45_encode R141). -/
theorem exec_enc_unknown {sym : Sym} (he : s.err = .none) (hcv : s.cv = true) (hmode : s.mode ≠ .dec)
    (hlen : (codeAt s.code sym).len = 0#8) :
    exec (.enc sym) s = .next { s with err := .unknownSymbol, einfo := infoOfSym sym } := by
  rw [exec, execEnc, guarded_working (i := .enc sym) he rfl
    (State.seqOK_iff_legal.2 ⟨hcv, Mode.idle_or_enc_of_ne_dec hmode⟩), if_pos hlen, State.raise_of_none _ _ he]

/-- FLS with nothing pending emits nothing (45_encode R142). -/
theorem exec_fls_empty (he : s.err = .none) (hcv : s.cv = true) (hmode : s.mode ≠ .dec) (h0 : s.nbits = 0#3) :
    exec .fls s = .next (s.setMode .idle) := by
  rw [exec, execFls, guarded_working (i := .fls) he rfl
    (State.seqOK_iff_legal.2 ⟨hcv, Mode.idle_or_enc_of_ne_dec hmode⟩), if_pos h0]

/-- FLS with bits pending emits the padded byte (45_encode R142). -/
theorem exec_fls_pending (he : s.err = .none) (hcv : s.cv = true) (hmode : s.mode ≠ .dec) (h0 : s.nbits ≠ 0#3) :
    exec .fls s = .next ((s.emit (paddedByte s.acc s.nbits)).dropPending.setMode .idle) := by
  rw [exec, execFls, guarded_working (i := .fls) he rfl
    (State.seqOK_iff_legal.2 ⟨hcv, Mode.idle_or_enc_of_ne_dec hmode⟩), if_neg h0]

end answers

/-! ## What the packer emits and keeps (45_encode R143) -/

section packer

variable {s t : State}

@[simp] theorem State.pending_length (s : State) : s.pending.length = s.nbits.toNat := bitsDown_length _ _

@[simp] theorem appendBits_mode (bits : List Bool) (s : State) : (appendBits bits s).mode = s.mode := by
  obtain ⟨acc, nbits, bytes, h⟩ := appendBits_frame bits s
  rw [h]

/-- Fewer than 8 bits stay pending, so the bytes emitted are all the whole ones there are. -/
theorem length_emitted {bytes : List Byte} {bits : List Bool}
    (h : bytes.flatMap byteBits ++ t.pending = s.pending ++ bits) :
    bytes.length = (s.nbits.toNat + bits.length) / 8 ∧ t.nbits.toNat = (s.nbits.toNat + bits.length) % 8 := by
  have hlen := congrArg List.length h
  rw [List.length_append, List.length_append, length_flatMap_byteBits, State.pending_length,
    State.pending_length] at hlen
  have hlt := t.nbits.isLt
  omega

end packer

/-! ## The statements -/

/-- Settles O47: the appended bits keep their order by `packs_appendBits`, their number gives the bytes and the pending
bits by `length_emitted`, and `State.PackerOpen` keeps ACC below 2^NBITS. -/
theorem encodeAppendsTheCodesBits : Obligations.EncodeAppendsTheCodesBits := by
  refine ⟨illegalWords_opcode .enc, fun sym s => ⟨?_, raisesSequence_of_packer_closed (i := .enc sym) rfl id,
    exec_enc_unknown, fun he hcv hmode hlen hfits => ?_⟩⟩
  · rw [toNat_encode, Instr.operands, toNat_zero_append]
    rfl
  · have hopen : s.PackerOpen := ⟨he, hcv, Mode.idle_or_enc_of_ne_dec hmode, hfits⟩
    have hkept := appendBits_mode (codeAt s.code sym).bits (s.setMode .enc)
    obtain ⟨mode, acc, nbits, bytes, hframe, hbits⟩ := packs_appendBits (codeAt s.code sym).bits (s.setMode .enc)
    obtain ⟨hbytes, hnbits⟩ := length_emitted hbits
    rw [Code.bits_length] at hbytes hnbits
    refine ⟨_, bytes, hopen.exec_enc hlen, ?_, hbits.symm, hbytes, hnbits, (hopen.enc _).fits⟩
    rw [hframe] at hkept ⊢
    rw [show mode = .enc from hkept]
    rfl

/-- Settles O48, by `exec_fls_empty`, `exec_fls_pending` and `byteBits_paddedByte`. -/
theorem flushPadsTheLastByte : Obligations.FlushPadsTheLastByte :=
  ⟨rfl, illegalWords_opcode .fls, fun _ he => ⟨raisesSequence_of_packer_closed (i := .fls) rfl id he,
    exec_fls_empty he, fun hcv hmode h0 => ⟨_, exec_fls_pending he hcv hmode h0, byteBits_paddedByte _ _⟩⟩⟩

end Sys2Proof.Machine

/-! # Proofs of the statements on decoding (46_decode)

First what DLN, DEC and DND answer, commands in sequence, WalkBit as equations and DEC's loop; then what the loop does
on an internal root, on a single leaf and on a payload; then COMPRESS and the import of a tree; then the statements. -/

namespace Sys2Proof.Machine

/-! ## The commands' answers (46_decode R150, R151, R153) -/

section answers

variable {s : State}

/-- DLN, where it is legal, opens the decode at the root (46_decode R150). -/
theorem exec_dln (count : Count) (he : s.err = .none) (htv : s.tv = true) (hmode : s.mode = .idle) :
    exec (.dln count) s = .next { s with cur := s.root, rem := count, mode := .dec } := by
  rw [exec, execDln, guarded_working (i := .dln count) he rfl (State.seqOK_iff_legal.2 ⟨htv, hmode⟩)]

/-- DEC, where it is legal, runs its loop over the byte's bits (46_decode R151). -/
theorem exec_dec (byte : Byte) (he : s.err = .none) (hmode : s.mode = .dec) :
    exec (.dec byte) s = (walkBits (byteBits byte) s).toResult := by
  rw [exec, execDec, guarded_working (i := .dec byte) he rfl (State.seqOK_iff_legal.2 hmode)]

/-- DND with symbols still owed raises (46_decode R153). -/
theorem exec_dnd_owed (he : s.err = .none) (hmode : s.mode = .dec) (hrem : s.rem ≠ 0#40) :
    exec .dnd s = .next { s with err := .corruptStream, einfo := Config.einfoShortInput } := by
  rw [exec, execDnd, guarded_working (i := .dnd) he rfl (State.seqOK_iff_legal.2 hmode), if_pos hrem,
    State.raise_of_none _ _ he]

/-- DND with the count reached closes the decode (46_decode R153). -/
theorem exec_dnd_done (he : s.err = .none) (hmode : s.mode = .dec) (hrem : s.rem = 0#40) :
    exec .dnd s = .next { s with cur := Config.null, mode := .idle } := by
  rw [exec, execDnd, guarded_working (i := .dnd) he rfl (State.seqOK_iff_legal.2 hmode), if_neg (not_not.2 hrem)]
  rfl

end answers

/-! ## Commands in sequence (20_memory R43) -/

section sequence

variable {s t : State}

/-- Commands after one that completes. -/
theorem execAll_cons {i : Instr} (is : List Instr) (h : exec i s = .next t) :
    execAll (i :: is) s = execAll is t := by
  rw [execAll, h]

/-- Commands after a sequence that completes. -/
theorem execAll_append {is : List Instr} (js : List Instr) (h : execAll is s = .next t) :
    execAll (is ++ js) s = execAll js t := by
  induction is generalizing s with
  | nil => cases h; rfl
  | cons i is ih =>
    rw [execAll] at h
    split at h
    next hi => rw [List.cons_append, execAll_cons _ hi, ih h]
    all_goals cases h

/-- Every command keeps the invariant (10_state R25). -/
theorem State.Inv.exec {i : Instr} (h : s.Inv) (he : exec i s = .next t) : t.Inv := by
  obtain ⟨e, info, hne, rfl⟩ | ⟨hpass, heff⟩ := exec_cases he
  · exact h.raise hne
  · exact h.effect hpass heff

theorem State.Inv.execAll {is : List Instr} (h : s.Inv) (he : execAll is s = .next t) : t.Inv := by
  induction is generalizing s with
  | nil => cases he; exact h
  | cons i is ih =>
    rw [Machine.execAll] at he
    split at he
    next hi => exact ih (h.exec hi) he
    all_goals cases he

end sequence

/-! ## WalkBit (46_decode R152) -/

section walkBit

variable {s : State} {b : Bool} {c : NodeIdx} (hroot : s.root ≠ Config.null)

include hroot

/-- On a single leaf a 0 bit emits its symbol. -/
theorem walkBit_leaf_false (hleaf : (nodeAt s.node s.root).leaf = true) :
    walkBit s false = .ok () (emitSymbol s (nodeAt s.node s.root).sym) := by
  simp [walkBit, nodeAt?_of_ne hroot, hleaf]

/-- On a single leaf a 1 bit raises. -/
theorem walkBit_leaf_true (hleaf : (nodeAt s.node s.root).leaf = true) :
    walkBit s true = .raised (s.raise .corruptStream (infoOfIdx s.root)) := by
  simp [walkBit, nodeAt?_of_ne hroot, hleaf]

variable (hrootInternal : (nodeAt s.node s.root).leaf = false) (hcur : s.cur ≠ Config.null)
  (hc : (nodeAt s.node s.cur).child b = c)

include hrootInternal hcur hc

/-- Where the child for the bit is a leaf, its symbol is emitted and the walk goes back to the root. -/
theorem walkBit_emit (hchild : c ≠ Config.null) (hleaf : (nodeAt s.node c).leaf = true) :
    walkBit s b = .ok () ((emitSymbol s (nodeAt s.node c).sym).moveTo s.root) := by
  simp [walkBit, nodeAt?_of_ne hroot, hrootInternal, nodeAt?_of_ne hcur, hc, nodeAt?_of_ne hchild, hleaf]

/-- Where the child for the bit is internal, the walk moves to it. -/
theorem walkBit_move (hchild : c ≠ Config.null) (hleaf : (nodeAt s.node c).leaf = false) :
    walkBit s b = .ok () (s.moveTo c) := by
  simp [walkBit, nodeAt?_of_ne hroot, hrootInternal, nodeAt?_of_ne hcur, hc, nodeAt?_of_ne hchild, hleaf]

/-- Where the child for the bit is missing, WalkBit raises. -/
theorem walkBit_missing (hchild : c = Config.null) :
    walkBit s b = .raised (s.raise .corruptStream (infoOfIdx s.cur)) := by
  simp [walkBit, nodeAt?_of_ne hroot, hrootInternal, nodeAt?_of_ne hcur, hc, hchild]

end walkBit

/-! ## DEC's loop (46_decode R151, R154) -/

section loop

variable {s t : State} {b : Bool} {bs : List Bool}

/-- With the count reached every bit is ignored. -/
theorem walkBits_done (bs : List Bool) (h : s.rem = 0#40) : walkBits bs s = .ok () s := by
  cases bs with
  | nil => rfl
  | cons => rw [walkBits, if_pos h]

/-- With symbols owed the next bit is walked. -/
theorem walkBits_cons (bs : List Bool) (h : s.rem ≠ 0#40) (hw : walkBit s b = .ok () t) :
    walkBits (b :: bs) s = walkBits bs t := by
  rw [walkBits, if_neg h, hw]
  rfl

/-- A raise at the next bit ends the loop. -/
theorem walkBits_cons_raised (bs : List Bool) (h : s.rem ≠ 0#40) (hw : walkBit s b = .raised t) :
    walkBits (b :: bs) s = .raised t := by
  rw [walkBits, if_neg h, hw]
  rfl

/-- The loop over some bits, then over more. -/
theorem walkBits_append (bs bs' : List Bool) (s : State) :
    walkBits (bs ++ bs') s = (walkBits bs s).bind fun _ t => walkBits bs' t := by
  induction bs generalizing s with
  | nil => rfl
  | cons b bs ih =>
    by_cases h : s.rem = 0#40
    · rw [walkBits_done _ h, walkBits_done _ h]
      exact (walkBits_done _ h).symm
    · rw [List.cons_append, walkBits, walkBits, if_neg h, if_neg h]
      cases walkBit s b with
      | ok _ t => exact ih t
      | raised | fault => rfl

/-- A loop that raises nothing writes CUR, REM and `out` only (46_decode R152). -/
theorem walkBits_ok_frame (h : walkBits bs s = .ok () t) :
    ∃ syms, t = { s with cur := t.cur, rem := t.rem, out := s.out ++ syms } := by
  induction bs generalizing s with
  | nil => cases h; exact ⟨[], by rw [List.append_nil]⟩
  | cons b bs ih =>
    by_cases hrem : s.rem = 0#40
    · rw [walkBits_done _ hrem] at h
      cases h; exact ⟨[], by rw [List.append_nil]⟩
    · rw [walkBits, if_neg hrem, Res.bind_eq_ok] at h
      obtain ⟨_, u, hu, h⟩ := h
      obtain ⟨syms, hframe⟩ := walkBit_frame hu
      obtain ⟨syms', hframe'⟩ := ih h
      exact ⟨syms ++ syms', by rw [hframe', hframe, ← List.append_assoc]⟩

/-- DECs of bytes on which nothing is raised are one loop over all their bits (46_decode R151). -/
theorem execAll_decs {payload : List Byte} (he : s.err = .none) (hmode : s.mode = .dec)
    (h : walkBits (payload.flatMap byteBits) s = .ok () t) : execAll (decs payload) s = .next t := by
  induction payload generalizing s with
  | nil => cases h; rfl
  | cons byte payload ih =>
    rw [List.flatMap_cons, walkBits_append, Res.bind_eq_ok] at h
    obtain ⟨_, u, hu, h⟩ := h
    obtain ⟨_, hframe⟩ := walkBits_ok_frame hu
    rw [decs, List.map_cons, execAll_cons _ (by rw [exec_dec byte he hmode, hu]; rfl)]
    exact ih (by rw [hframe]; exact he) (by rw [hframe]; exact hmode) h

/-- The state after these symbols have been emitted in order (46_decode R152). -/
def State.emitAll (s : State) (syms : List Sym) : State :=
  { s with rem := s.rem - BitVec.ofNat 40 syms.length, out := s.out ++ syms }

@[simp] theorem State.emitAll_nil (s : State) : s.emitAll [] = s := by
  rw [State.emitAll, List.append_nil, List.length_nil, BitVec.sub_zero]

/-- One symbol, then the others. -/
theorem State.emitAll_cons (s : State) (sym : Sym) (syms : List Sym) :
    (emitSymbol s sym).emitAll syms = s.emitAll (sym :: syms) := by
  have hrem : s.rem - 1#40 - BitVec.ofNat 40 syms.length = s.rem - BitVec.ofNat 40 (syms.length + 1) := by
    rw [BitVec.ofNat_add]; bv_omega
  simp only [State.emitAll, emitSymbol_rem, emitSymbol_out, List.length_cons, hrem, List.append_assoc,
    List.singleton_append]
  rfl

/-- With symbols owed, one emitted leaves one less. -/
theorem toNat_rem_emitSymbol (h : s.rem ≠ 0#40) (sym : Sym) : (emitSymbol s sym).rem.toNat + 1 = s.rem.toNat := by
  rw [emitSymbol_rem]; bv_omega

end loop

/-! ## The walk along a tree with an internal root (46_decode R152, R156) -/

section walk

variable {nodes : Table NodeEntry} {s : State} {b : Bool} {bs : List Bool} {n : Nat} {syms : List Sym}
  {x c cur : NodeIdx} {V : List NodeIdx} {Y : List Sym}

/-- A tree's root is one of its nodes. -/
theorem IsTree.root_mem (h : IsTree nodes x V Y) : x ∈ V := by
  cases h <;> exact List.mem_cons_self

/-- The children of a tree's internal nodes are nodes of the tree (43_tree R118). -/
theorem IsTree.child_mem {r : NodeIdx} (h : IsTree nodes r V Y) (hx : x ∈ V) (hinternal : (nodeAt nodes x).leaf = false)
    (b : Bool) : (nodeAt nodes x).child b ∈ V := by
  induction h with
  | leaf i hi hleaf =>
    rw [List.mem_singleton.1 hx, hleaf] at hinternal
    cases hinternal
  | node i Vl Vr Yl Yr hi hleaf hl hr ihl ihr =>
    rw [List.mem_cons, List.mem_append] at hx ⊢
    obtain rfl | hx | hx := hx
    · cases b with
      | false => exact .inr (.inl hl.root_mem)
      | true => exact .inr (.inr hr.root_mem)
    · exact .inr (.inl (ihl hx))
    · exact .inr (.inr (ihr hx))

/-- DEC's loop over `bs` raises nothing, takes the first `n` bits along the tree, and `n` is the least number that
brings REM to 0, or all there are. -/
structure WalksTo (s : State) (bs : List Bool) (n : Nat) (syms : List Sym) (cur : NodeIdx) : Prop where
  le : n ≤ bs.length
  loop : walkBits bs s = .ok () ((s.emitAll syms).moveTo cur)
  walk : Walk s.node s.root s.cur (bs.take n) syms cur
  fits : syms.length ≤ s.rem.toNat
  stops : n = bs.length ∨ syms.length = s.rem.toNat
  least : ∀ m < n, ∀ syms' cur', Walk s.node s.root s.cur (bs.take m) syms' cur' → syms'.length < s.rem.toNat

/-- With no bit left the loop ends. -/
theorem walksTo_nil (s : State) : WalksTo s [] 0 [] s.cur where
  le := le_rfl
  loop := by rw [s.emitAll_nil]; rfl
  walk := .done _
  fits := Nat.zero_le _
  stops := .inl rfl
  least _ hm := absurd hm (Nat.not_lt_zero _)

/-- With the count reached the loop ends. -/
theorem walksTo_done (bs : List Bool) (h : s.rem = 0#40) : WalksTo s bs 0 [] s.cur where
  le := Nat.zero_le _
  loop := by rw [walkBits_done bs h, s.emitAll_nil]; rfl
  walk := .done _
  fits := Nat.zero_le _
  stops := .inr (by rw [h]; rfl)
  least _ hm := absurd hm (Nat.not_lt_zero _)

/-- No walk over no bits emits anything. -/
theorem Walk.length_lt_of_nil {r : NodeIdx} {syms' : List Sym} {cur' : NodeIdx} (h : Walk nodes r x [] syms' cur')
    (hrem : s.rem ≠ 0#40) : syms'.length < s.rem.toNat := by
  cases h
  exact Nat.pos_of_ne_zero fun e => hrem (BitVec.eq_of_toNat_eq e)

/-- A bit that leads to an internal node, then the loop from there. -/
theorem WalksTo.move (hrem : s.rem ≠ 0#40) (hinternal : (nodeAt s.node s.cur).leaf = false)
    (hc : (nodeAt s.node s.cur).child b = c) (hchild : c ≠ Config.null) (hleaf : (nodeAt s.node c).leaf = false)
    (hw : walkBit s b = .ok () (s.moveTo c)) (h : WalksTo (s.moveTo c) bs n syms cur) :
    WalksTo s (b :: bs) (n + 1) syms cur := by
  subst hc
  refine ⟨Nat.succ_le_succ h.le, (walkBits_cons bs hrem hw).trans h.loop, .move _ _ b _ _ hinternal hchild hleaf h.walk,
    h.fits, h.stops.imp_left (congrArg Nat.succ), fun m hm _ _ hwalk => ?_⟩
  cases m with
  | zero => exact hwalk.length_lt_of_nil hrem
  | succ m =>
    cases hwalk with
    | move _ _ _ _ _ _ _ _ hwalk => exact h.least m (Nat.lt_of_succ_lt_succ hm) _ _ hwalk
    | emit _ _ _ _ _ _ _ hleaf' => cases hleaf.symm.trans hleaf'

/-- A bit that leads to a leaf, then the loop from the root with one symbol less owed. -/
theorem WalksTo.emit (hrem : s.rem ≠ 0#40) (hinternal : (nodeAt s.node s.cur).leaf = false)
    (hc : (nodeAt s.node s.cur).child b = c) (hchild : c ≠ Config.null) (hleaf : (nodeAt s.node c).leaf = true)
    (hw : walkBit s b = .ok () ((emitSymbol s (nodeAt s.node c).sym).moveTo s.root))
    (h : WalksTo ((emitSymbol s (nodeAt s.node c).sym).moveTo s.root) bs n syms cur) :
    WalksTo s (b :: bs) (n + 1) ((nodeAt s.node c).sym :: syms) cur := by
  subst hc
  have hone := toNat_rem_emitSymbol hrem (nodeAt s.node ((nodeAt s.node s.cur).child b)).sym
  have hfits := h.fits
  have hstops := h.stops
  rw [State.moveTo_rem] at hfits hstops
  refine ⟨Nat.succ_le_succ h.le, ?_, .emit _ _ b _ _ hinternal hchild hleaf h.walk, ?_, ?_, fun m hm _ _ hwalk => ?_⟩
  · rw [walkBits_cons bs hrem hw, h.loop, ← State.emitAll_cons]
    rfl
  · rw [List.length_cons]; omega
  · rw [List.length_cons, List.length_cons]; omega
  · cases m with
    | zero => exact hwalk.length_lt_of_nil hrem
    | succ m =>
      cases hwalk with
      | move _ _ _ _ _ _ _ hleaf' => cases hleaf.symm.trans hleaf'
      | emit _ _ _ _ syms' _ _ _ hwalk =>
        have hlt := h.least m (Nat.lt_of_succ_lt_succ hm) _ _ hwalk
        rw [State.moveTo_rem] at hlt
        rw [List.length_cons]; omega

/-- On a tree with an internal root DEC's loop is a walk: no child is missing (46_decode R156). -/
theorem walkBits_walks (ht : IsTree s.node s.root V Y) (hroot : (nodeAt s.node s.root).leaf = false)
    (hcur : s.cur ∈ V) (hinternal : (nodeAt s.node s.cur).leaf = false) (bs : List Bool) :
    ∃ n syms cur, WalksTo s bs n syms cur := by
  induction bs generalizing s with
  | nil => exact ⟨_, _, _, walksTo_nil s⟩
  | cons b bs ih =>
    by_cases hrem : s.rem = 0#40
    · exact ⟨_, _, _, walksTo_done _ hrem⟩
    have hmem := ht.child_mem hcur hinternal b
    generalize hc : (nodeAt s.node s.cur).child b = c at hmem
    have hroot0 := ht.root_ne_null
    have hcur0 := ht.ne_null_of_mem hcur
    have hchild := ht.ne_null_of_mem hmem
    cases hleaf : (nodeAt s.node c).leaf with
    | false =>
      obtain ⟨_, _, _, h⟩ := ih (s := s.moveTo c) ht hroot hmem hleaf
      exact ⟨_, _, _, h.move hrem hinternal hc hchild hleaf (walkBit_move hroot0 hroot hcur0 hc hchild hleaf)⟩
    | true =>
      obtain ⟨_, _, _, h⟩ := ih (s := (emitSymbol s (nodeAt s.node c).sym).moveTo s.root) ht hroot ht.root_mem hroot
      exact ⟨_, _, _, h.emit hrem hinternal hc hchild hleaf (walkBit_emit hroot0 hroot hcur0 hc hchild hleaf)⟩

/-- A walker on a path from an internal root stands on an internal node of the tree (10_state R25 item 6). -/
theorem State.OnPath.mem (h : s.OnPath) (ht : IsTree s.node s.root V Y) (hroot : (nodeAt s.node s.root).leaf = false) :
    s.cur ∈ V ∧ (nodeAt s.node s.cur).leaf = false := by
  obtain hc | ⟨hinternal, bits, hf⟩ := h
  · rw [hc]; exact ⟨ht.root_mem, hroot⟩
  · exact ⟨(ht.mem_of_follow hf).1, hinternal⟩

end walk

/-! ## The single leaf (46_decode R152) -/

section single

variable {s : State}

/-- On a single leaf each 0 bit emits the symbol, while symbols are owed. -/
theorem walkBits_zeros (hroot : s.root ≠ Config.null) (hleaf : (nodeAt s.node s.root).leaf = true) {k : Nat}
    (hk : k ≤ s.rem.toNat) (bs : List Bool) :
    walkBits (List.replicate k false ++ bs) s =
      walkBits bs (s.emitAll (List.replicate k (nodeAt s.node s.root).sym)) := by
  induction k generalizing s with
  | zero => rw [List.replicate_zero, List.replicate_zero, s.emitAll_nil, List.nil_append]
  | succ k ih =>
    have hrem : s.rem ≠ 0#40 := fun e => by rw [e] at hk; exact absurd hk (Nat.not_succ_le_zero k)
    have hone := toNat_rem_emitSymbol hrem (nodeAt s.node s.root).sym
    rw [List.replicate_succ, List.replicate_succ, List.cons_append,
      walkBits_cons _ hrem (walkBit_leaf_false hroot hleaf), ← State.emitAll_cons]
    exact ih (s := emitSymbol s _) hroot hleaf (by omega)

/-- With as many symbols emitted as are owed, none are. -/
theorem rem_emitAll_eq_zero {syms : List Sym} (h : syms.length = s.rem.toNat) : (s.emitAll syms).rem = 0#40 := by
  rw [State.emitAll, h, BitVec.ofNat_toNat, BitVec.setWidth_eq, BitVec.sub_self]

/-- The 0 bits a list of bits starts with, and the rest. -/
theorem eq_zeros_append (bs : List Bool) :
    bs = List.replicate (bs.takeWhile fun b => !b).length false ++ bs.dropWhile fun b => !b := by
  have hzeros : bs.takeWhile (fun b => !b) = List.replicate (bs.takeWhile fun b => !b).length false :=
    List.eq_replicate_of_mem fun b hb => by simpa using List.mem_takeWhile_imp hb
  rw [← hzeros, List.takeWhile_append_dropWhile]

/-- What follows the 0 bits a list of bits starts with is a 1 bit. -/
theorem exists_dropWhile_eq_cons {bs : List Bool} (h : (bs.takeWhile fun b => !b).length < bs.length) :
    ∃ rest, (bs.dropWhile fun b => !b) = true :: rest := by
  have hne : (bs.dropWhile fun b => !b) ≠ [] := fun e => by
    have := congrArg List.length (List.takeWhile_append_dropWhile (p := fun b => !b) (l := bs))
    rw [e, List.append_nil] at this
    omega
  obtain ⟨b, rest, hb⟩ := List.exists_cons_of_ne_nil hne
  have := List.head_dropWhile_not (fun b => !b) hne
  simp only [hb, List.head_cons, Bool.not_eq_false'] at this
  exact ⟨rest, by rw [hb, this]⟩

/-- On a single leaf the loop emits until the count is reached, where no 1 bit comes before. -/
theorem walkBits_leaf_ok (hroot : s.root ≠ Config.null) (hleaf : (nodeAt s.node s.root).leaf = true) {bs : List Bool}
    {zeros : Nat} (hz : zeros = (bs.takeWhile fun b => !b).length) (hend : zeros = bs.length ∨ s.rem.toNat ≤ zeros) :
    walkBits bs s = .ok () (s.emitAll (List.replicate (min zeros s.rem.toNat) (nodeAt s.node s.root).sym)) := by
  have hbs := eq_zeros_append bs
  rw [← hz] at hbs
  by_cases hle : s.rem.toNat ≤ zeros
  · obtain ⟨k, rfl⟩ := Nat.exists_eq_add_of_le hle
    rw [hbs, List.replicate_add, List.append_assoc, walkBits_zeros hroot hleaf le_rfl, Nat.min_eq_right hle]
    exact walkBits_done _ (rem_emitAll_eq_zero List.length_replicate)
  · have hrest : (bs.dropWhile fun b => !b) = [] := by
      have := congrArg List.length hbs
      rw [List.length_append, List.length_replicate] at this
      exact List.length_eq_zero_iff.1 (by omega)
    rw [hrest] at hbs
    rw [hbs, walkBits_zeros hroot hleaf (by omega), Nat.min_eq_left (by omega)]
    rfl

/-- On a single leaf a 1 bit before the count is reached raises, the symbols already emitted staying. -/
theorem walkBits_leaf_raised (he : s.err = .none) (hroot : s.root ≠ Config.null)
    (hleaf : (nodeAt s.node s.root).leaf = true) {bs : List Bool} {zeros : Nat}
    (hz : zeros = (bs.takeWhile fun b => !b).length) (hlt : zeros < bs.length) (hrem : zeros < s.rem.toNat) :
    walkBits bs s = .raised { s.emitAll (List.replicate zeros (nodeAt s.node s.root).sym) with
      err := .corruptStream, einfo := infoOfIdx s.root } := by
  subst hz
  obtain ⟨rest, hrest⟩ := exists_dropWhile_eq_cons hlt
  have hbs := eq_zeros_append bs
  rw [hrest] at hbs
  generalize (bs.takeWhile fun b => !b).length = zeros at *
  have hlen : s.rem.toNat < 2 ^ 40 := s.rem.isLt
  have howed : (s.emitAll (List.replicate zeros (nodeAt s.node s.root).sym)).rem ≠ 0#40 := by
    rw [State.emitAll, List.length_replicate]
    bv_omega
  rw [hbs, walkBits_zeros hroot hleaf hrem.le, walkBits_cons_raised _ howed (walkBit_leaf_true hroot hleaf),
    State.raise_of_none (s := s.emitAll _) _ _ he]
  rfl

end single

/-! ## Decoding a payload (46_decode R154, R155) -/

section payload

variable {s : State} {ds : List Sym} {code : Sym → List Bool} {bits : List Bool} {sym : Sym}

theorem LeafAt.ne_null {nodes : Table NodeEntry} {i : NodeIdx} (h : LeafAt nodes i bits sym) : i ≠ Config.null := by
  obtain ⟨x, hx, -⟩ := h
  rintro rfl
  cases bits <;> cases hx

theorem State.moveTo_cur_self {i : NodeIdx} (h : s.cur = i) : s.moveTo i = s := by
  subst h; rfl

/-- The bits of a path from the internal node the walk stands on emit the symbol of its leaf. -/
theorem walkBits_path (hroot : s.root ≠ Config.null) (hrootInternal : (nodeAt s.node s.root).leaf = false)
    (hrem : s.rem ≠ 0#40) (hinternal : (nodeAt s.node s.cur).leaf = false) (hp : LeafAt s.node s.cur bits sym)
    (rest : List Bool) :
    walkBits (bits ++ rest) s = walkBits rest ((emitSymbol s sym).moveTo s.root) := by
  induction bits generalizing s with
  | nil =>
    obtain ⟨_, _, hnil, -⟩ := (leafAt_of_internal hp.ne_null hinternal).1 hp
    cases hnil
  | cons b bs ih =>
    obtain ⟨_, _, ⟨⟩, hc⟩ := (leafAt_of_internal hp.ne_null hinternal).1 hp
    rw [List.cons_append]
    cases hleaf : (nodeAt s.node ((nodeAt s.node s.cur).child b)).leaf with
    | false =>
      rw [walkBits_cons _ hrem (walkBit_move hroot hrootInternal hp.ne_null rfl hc.ne_null hleaf)]
      exact ih (s := s.moveTo _) hroot hrootInternal hrem hleaf hc
    | true =>
      obtain ⟨rfl, rfl⟩ := (leafAt_of_leaf hc.ne_null hleaf).1 hc
      exact walkBits_cons _ hrem (walkBit_emit hroot hrootInternal hp.ne_null rfl hc.ne_null hleaf)

/-- The bits of a leaf's code, read from the root, emit its symbol; on a single leaf the code is "0"
(44_codes R132). -/
theorem walkBits_leafCode (hrem : s.rem ≠ 0#40) (hcur : s.cur = s.root) (hp : LeafAt s.node s.root bits sym)
    (rest : List Bool) : walkBits (leafCode bits ++ rest) s = walkBits rest (emitSymbol s sym) := by
  cases hleaf : (nodeAt s.node s.root).leaf with
  | true =>
    obtain ⟨rfl, rfl⟩ := (leafAt_of_leaf hp.ne_null hleaf).1 hp
    exact walkBits_cons _ hrem (walkBit_leaf_false hp.ne_null hleaf)
  | false =>
    have hbits : leafCode bits = bits := by
      obtain ⟨_, _, rfl, -⟩ := (leafAt_of_internal hp.ne_null hleaf).1 hp
      exact if_neg (List.cons_ne_nil _ _)
    rw [hbits, walkBits_path hp.ne_null hleaf hrem (by rwa [hcur]) (by rwa [hcur]),
      State.moveTo_cur_self (s := emitSymbol s sym) hcur]

/-- Each of the symbols is on a leaf of the tree, and its code is that leaf's (44_codes R131). -/
def CodedBy (nodes : Table NodeEntry) (root : NodeIdx) (code : Sym → List Bool) (ds : List Sym) : Prop :=
  ∀ d ∈ ds, ∃ bits, LeafAt nodes root bits d ∧ code d = leafCode bits

/-- The codes of the symbols, read from the root, give the symbols back, as many as are owed; what comes after is
ignored (46_decode R154, R155). -/
theorem walkBits_codes (hcur : s.cur = s.root) (hcode : CodedBy s.node s.root code ds)
    (hrem : s.rem.toNat ≤ ds.length) (pad : List Bool) :
    walkBits (ds.flatMap code ++ pad) s = .ok () (s.emitAll (ds.take s.rem.toNat)) := by
  induction ds generalizing s with
  | nil =>
    have h0 : s.rem = 0#40 := BitVec.eq_of_toNat_eq (Nat.le_zero.1 hrem)
    rw [walkBits_done _ h0, List.take_nil, s.emitAll_nil]
  | cons d ds ih =>
    by_cases h0 : s.rem = 0#40
    · rw [walkBits_done _ h0, h0, BitVec.toNat_zero, List.take_zero, s.emitAll_nil]
    · obtain ⟨bits, hp, hd⟩ := hcode d List.mem_cons_self
      have hone := toNat_rem_emitSymbol h0 d
      rw [List.flatMap_cons, List.append_assoc, hd, walkBits_leafCode h0 hcur hp, ← hone, List.take_succ_cons,
        ← State.emitAll_cons]
      rw [List.length_cons] at hrem
      exact ih hcur (fun d' hd' => hcode d' (List.mem_cons_of_mem _ hd')) (by omega)

/-- The DECs of a payload of a tree's codes and DND, in an open decode, append its symbols, as many as are owed. -/
theorem execAll_decs_dnd {payload : List Byte} {pad : List Bool} (he : s.err = .none) (hmode : s.mode = .dec)
    (hcur : s.cur = s.root) (hcode : CodedBy s.node s.root code ds) (hrem : s.rem.toNat ≤ ds.length)
    (hpayload : payload.flatMap byteBits = ds.flatMap code ++ pad) :
    execAll (decs payload ++ [.dnd]) s =
      .next { s with cur := Config.null, rem := 0#40, mode := .idle, out := s.out ++ ds.take s.rem.toNat } := by
  have hwalk := walkBits_codes hcur hcode hrem pad
  have hzero := rem_emitAll_eq_zero (List.length_take_of_le hrem)
  rw [← hpayload] at hwalk
  rw [execAll_append _ (execAll_decs he hmode hwalk), execAll_cons _ (exec_dnd_done (s := s.emitAll _) he hmode hzero),
    execAll, ← hzero]
  rfl

/-- DECOMPRESS of a payload of a tree's codes appends its symbols, as many as the count says, and closes the decode
(46_decode R155). -/
theorem execAll_decompress {n : Count} {payload : List Byte} {pad : List Bool} (he : s.err = .none)
    (htv : s.tv = true) (hmode : s.mode = .idle) (hcode : CodedBy s.node s.root code ds) (hn : n.toNat ≤ ds.length)
    (hpayload : payload.flatMap byteBits = ds.flatMap code ++ pad) :
    execAll (decompressCmds n payload) s =
      .next { s with cur := Config.null, rem := 0#40, mode := .idle, out := s.out ++ ds.take n.toNat } := by
  rw [decompressCmds, List.append_assoc, List.singleton_append, execAll_cons _ (exec_dln n he htv hmode)]
  exact execAll_decs_dnd he rfl rfl hcode hn hpayload

/-- A stream of these symbols may be opened: what ENC checks, with the invariant (45_encode R141). -/
structure State.Encodes (s : State) (ds : List Sym) : Prop where
  inv : s.Inv
  noError : s.err = .none
  codes : s.cv = true
  mode : s.mode = .idle
  coded : ∀ d ∈ ds, (codeAt s.code d).len ≠ 0#8

theorem State.Encodes.tree (h : s.Encodes ds) : s.tv = true := (h.inv.codes h.codes).1

/-- The code table's entries are the codes of the tree (10_state R25 item 3). -/
theorem State.Encodes.codedBy (h : s.Encodes ds) : CodedBy s.node s.root (fun d => (codeAt s.code d).bits) ds := by
  intro d hd
  obtain ⟨htv, htable⟩ := h.inv.codes h.codes
  obtain ⟨V, Y, htree, -, hY⟩ := proper_iff.1 (h.inv.tree htv)
  obtain ⟨bits, hbits⟩ := htable.exists_leafAt (h.coded d hd)
  exact ⟨bits, hbits, htable.bits_eq htree hY hbits⟩

/-- ENC of each symbol and FLS only append a payload, the padded codes (20_memory R48). -/
theorem State.Encodes.stream (h : s.Encodes ds) : ∃ payload pad,
    execAll (encs ds ++ [.fls]) s = .next { s with out := s.out ++ payload } ∧
      payload.flatMap byteBits = (ds.flatMap fun d => (codeAt s.code d).bits) ++ pad := by
  obtain ⟨hnbits, hacc⟩ := h.inv.packerIdle (by rw [h.mode]; decide)
  obtain ⟨t, _, _, payload, _, hencs, hfls, -, -, -, -, -, rfl, -, hpayload⟩ :=
    streamEmitsThePaddedPayload s ds h.noError h.codes h.mode hnbits hacc h.coded
  exact ⟨payload, _, by rw [execAll_append _ hencs, execAll_cons _ hfls]; rfl, hpayload⟩

end payload

/-! ## COMPRESS (48_host_protocol R161) -/

section compress

variable {b : List Byte}

/-- The counting pass of COMPRESS leaves something to build, with every symbol of the input among the leaves to be
(41_frequency R93). -/
theorem execAll_counting_pass (hb : b ≠ []) (hfit : ∀ x, b.count x ≤ 2 ^ 32 - 1) : ∃ s,
    execAll ([.clr] ++ cnts b) State.reset = .next s ∧ s.Buildable ∧ s.mode = .idle ∧ s.out = [] ∧
      ∀ x ∈ b, x ∈ s.liveSyms := by
  have hclr : exec .clr State.reset = .next State.reset := exec_clr _
  obtain ⟨freq, hcnts, hfreq⟩ := execAll_cnts (s := State.reset) b rfl rfl fun x => (Nat.zero_add _).trans_le (hfit x)
  have hlive (x : Sym) (hx : x ∈ b) : x ∈ ({ State.reset with freq := freq } : State).liveSyms := by
    rw [State.mem_liveSyms]
    intro h0
    have hcount := (hfreq x).trans (Nat.zero_add _)
    rw [h0] at hcount
    exact (List.count_pos_iff.2 hx).ne hcount
  obtain ⟨x, hx⟩ := List.exists_mem_of_ne_nil b hb
  exact ⟨_, (execAll_cons _ hclr).trans hcnts, ⟨rfl, rfl, rfl, List.ne_nil_of_mem (hlive x hx)⟩, rfl, rfl, hlive⟩

/-- COMPRESS up to its GEN ends with a tree and codes for the symbols of the input, and the entries of NODE above the
root EMPTY (43_tree R113, 44_codes R130). -/
theorem execAll_compress_gen (hb : b ≠ []) (hfit : ∀ x, b.count x ≤ 2 ^ 32 - 1) : ∃ s,
    execAll ([.clr] ++ cnts b ++ [.bld, .gen]) State.reset = .next s ∧ s.Encodes b ∧ s.out = [] ∧
      ∀ k : NodeIdx, s.root.toNat < k.toNat → nodeAt s.node k = NodeEntry.empty := by
  obtain ⟨c, hcount, hbuild, hmode, hout, hlive⟩ := execAll_counting_pass hb hfit
  obtain ⟨t, hbld, hframe, hbuilt⟩ := hbuild.bld
  have hnone : t.err = .none := by rw [hframe]; exact hbuild.noError
  have hidle : t.mode = .idle := by rw [hframe]; exact hmode
  have hempty : t.out = [] := by rw [hframe]; exact hout
  obtain ⟨codes, hgen, htable⟩ := exec_gen hnone (by rw [hframe]) hidle hbuilt.proper
  have hrun : execAll ([.clr] ++ cnts b ++ [.bld, .gen]) State.reset = .next { t with code := codes, cv := true } := by
    rw [execAll_append _ hcount, execAll_cons _ hbld, execAll_cons _ hgen]
    rfl
  have hinv := (State.atReset_reset.inv State.reset_memoryWf).execAll hrun
  obtain ⟨V, Y, htree, -, hY, -⟩ := hbuilt.tree
  have hcoded (d : Sym) (hd : d ∈ b) : (codeAt codes d).len ≠ 0#8 := fun h0 => by
    obtain ⟨hpos, -⟩ := htable.len_bounds htree (hY.nodup_iff.2 c.nodup_liveSyms) (hY.mem_iff.2 (hlive d hd))
    rw [h0] at hpos
    exact absurd hpos (by decide)
  have hroot := hbuilt.root_eq
  exact ⟨_, hrun, ⟨hinv, hnone, rfl, hidle, hcoded⟩, hempty,
    fun k (hk : t.root.toNat < k.toNat) => hbuilt.unused k (by omega)⟩

end compress

/-! ## The import of a tree (48_host_protocol R164) -/

section reimport

variable {s : State} {nodes nodes' : Table NodeEntry} {root : NodeIdx} {code : Sym → List Bool} {ds : List Sym}

/-- TWN and TWF of one index copy an entry of a node memory and write NODE only (43_tree R116, R117). -/
theorem execAll_import_entry (nodes : Table NodeEntry) {j : NodeIdx} (hj : j ≠ Config.null) (he : s.err = .none)
    (htv : s.tv = false) : ∃ node, execAll (importCmds nodes [j]) s = .next { s with node := node } ∧
      ∀ i, nodeAt node i = if i = j then nodeAt nodes j else nodeAt s.node i := by
  refine ⟨_, (execAll_cons _ (exec_twn hj _ _ _ _ he htv)).trans
    (execAll_cons _ (exec_twf (s := s.setNode j _) hj _ he htv)), fun i => ?_⟩
  by_cases hij : i = j <;> simp [hij]

/-- The import of some indices copies their entries and writes NODE only. -/
theorem execAll_import (nodes : Table NodeEntry) {idxs : List NodeIdx} (hidxs : ∀ i ∈ idxs, i ≠ Config.null)
    (he : s.err = .none) (htv : s.tv = false) : ∃ node,
    execAll (importCmds nodes idxs) s = .next { s with node := node } ∧
      ∀ i, nodeAt node i = if i ∈ idxs then nodeAt nodes i else nodeAt s.node i := by
  induction idxs generalizing s with
  | nil => exact ⟨s.node, rfl, fun i => (if_neg List.not_mem_nil).symm⟩
  | cons j idxs ih =>
    obtain ⟨node, hrun, hnode⟩ := execAll_import_entry nodes (hidxs j List.mem_cons_self) he htv
    obtain ⟨node', hrun', hnode'⟩ := ih (s := { s with node := node })
      (fun i hi => hidxs i (List.mem_cons_of_mem _ hi)) he htv
    refine ⟨node', (execAll_append (importCmds nodes idxs) hrun).trans hrun', fun i => ?_⟩
    rw [hnode', hnode]
    by_cases hij : i = j <;> simp [hij]

/-- Paths depend on the entries of NODE only. -/
theorem follow_congr (h : ∀ i, nodeAt nodes' i = nodeAt nodes i) (i : NodeIdx) (bits : List Bool) :
    follow nodes' i bits = follow nodes i bits := by
  induction bits generalizing i with
  | nil => rfl
  | cons b bs ih =>
    have hn : nodeAt? nodes' i = nodeAt? nodes i := by rw [nodeAt?, nodeAt?, h]
    rw [follow, follow, hn]
    simp only [ih]

theorem CodedBy.congr (hc : CodedBy nodes root code ds) (h : ∀ i, nodeAt nodes' i = nodeAt nodes i) :
    CodedBy nodes' root code ds := by
  intro d hd
  obtain ⟨bits, ⟨x, hx, hleaf, hsym⟩, hcode⟩ := hc d hd
  exact ⟨bits, ⟨x, by rwa [follow_congr h], by rwa [h], by rwa [h]⟩, hcode⟩

theorem proper_congr (hp : proper nodes root = true) (h : ∀ i, nodeAt nodes' i = nodeAt nodes i) :
    proper nodes' root = true := by
  obtain ⟨V, Y, ht, hV, hY⟩ := proper_iff.1 hp
  exact proper_iff.2 ⟨V, Y, ht.congr fun x _ => h x, hV, hY⟩

/-- The indices 0 .. r, as the host lists them. -/
theorem mem_map_ofNat_range {i r : NodeIdx} :
    i ∈ (List.range (r.toNat + 1)).map (BitVec.ofNat 9) ↔ i.toNat ≤ r.toNat := by
  have hlt := r.isLt
  constructor
  · intro hi
    obtain ⟨k, hk, rfl⟩ := List.mem_map.1 hi
    rw [List.mem_range] at hk
    rw [BitVec.toNat_ofNat]; omega
  · exact fun hi =>
      List.mem_map.2 ⟨i.toNat, List.mem_range.2 (by omega), by rw [BitVec.ofNat_toNat, BitVec.setWidth_eq]⟩

/-- No index up to one that is not NULL is NULL. -/
theorem ne_null_of_le {i r : NodeIdx} (hr : r ≠ Config.null) (hi : i.toNat ≤ r.toNat) : i ≠ Config.null := by
  rintro rfl
  exact hr (BitVec.eq_of_toNat_eq (Nat.le_antisymm (Nat.le_of_lt_succ r.isLt) hi))

/-- The import of NODE[0 .. ROOT] into the cleared block, where the entries above ROOT are EMPTY, gives every entry
back, and TCM adopts the tree. -/
theorem execAll_reimport (hp : proper s.node s.root = true)
    (hunused : ∀ k : NodeIdx, s.root.toNat < k.toNat → nodeAt s.node k = NodeEntry.empty) : ∃ node,
    execAll ([.clr] ++ importCmds s.node ((List.range (s.root.toNat + 1)).map (BitVec.ofNat 9)) ++ [.tcm s.root]) s =
        .next { s.clear with node := node, root := s.root, tv := true } ∧
      ∀ i, nodeAt node i = nodeAt s.node i := by
  obtain ⟨V, Y, htree, -, -⟩ := proper_iff.1 hp
  have hroot := htree.root_ne_null
  obtain ⟨node, hrun, hnode⟩ := execAll_import (s := s.clear) s.node
    (fun i hi => ne_null_of_le hroot (mem_map_ofNat_range.1 hi)) rfl rfl
  have hsame (i : NodeIdx) : nodeAt node i = nodeAt s.node i := by
    rw [hnode]
    split
    next => rfl
    next hi => rw [mem_map_ofNat_range, Nat.not_le] at hi; rw [hunused i hi]; rfl
  have htcm := exec_tcm_proper (s := { s.clear with node := node }) hroot rfl rfl (proper_congr hp hsame)
  refine ⟨node, ?_, hsame⟩
  rw [List.append_assoc, List.singleton_append, execAll_cons _ (exec_clr s), execAll_append _ hrun, execAll_cons _ htcm]
  rfl

end reimport

/-! ## The statements -/

/-- Settles O51: on the proper tree of the invariant DEC's loop is a walk by `walkBits_walks`; it stops in no state by
`State.Inv.not_stops`. -/
theorem decodeWalksTheTree : Obligations.DecodeWalksTheTree := by
  intro s byte hinv he hmode
  refine ⟨exec_completes fun hp f => hinv.not_stops hp f, fun hrem => ?_, fun hroot => ?_⟩
  · rw [exec_dec byte he hmode, walkBits_done _ hrem]
    rfl
  · obtain ⟨V, Y, htree, -, -⟩ := proper_iff.1 (hinv.tree (hinv.decMode hmode))
    obtain ⟨hmem, hinternal⟩ := State.OnPath.mem (hinv.walkerOpen hmode) htree hroot
    obtain ⟨n, syms, cur, h⟩ := walkBits_walks htree hroot hmem hinternal (byteBits byte)
    exact ⟨n, syms, cur, h.le, by rw [exec_dec byte he hmode, h.loop]; rfl, h.walk, h.fits, h.stops, h.least⟩

/-- Settles O52: the byte is its leading 0 bits and a rest that is empty or starts with 1; `walkBits_leaf_ok` and
`walkBits_leaf_raised` are the two cases. -/
theorem decodeOfASingleLeafTree : Obligations.DecodeOfASingleLeafTree := by
  refine ⟨illegalWords_opcode .dec, fun s byte => ⟨?_, fun he => ⟨?_, fun zeros hmode hroot hleaf hz => ⟨?_, ?_⟩⟩⟩⟩
  · rw [toNat_encode, Instr.operands, toNat_zero_append]
    rfl
  · exact fun hmode => raisesSequence_of_not_legal he rfl hmode
  · intro hend
    rw [exec_dec byte he hmode, walkBits_leaf_ok hroot hleaf hz hend, State.emitAll, List.length_replicate]
    rfl
  · intro hlt hrem
    rw [exec_dec byte he hmode, walkBits_leaf_raised he hroot hleaf hz hlt hrem, State.emitAll, List.length_replicate]
    rfl

/-- Settles O55: the payload is the padded codes by `State.Encodes.stream`, and `execAll_decompress` reads them. -/
theorem payloadDecodesToItsInput : Obligations.PayloadDecodesToItsInput := by
  intro s ds n hinv he hcv hmode hcoded hn
  have h : s.Encodes ds := ⟨hinv, he, hcv, hmode, hcoded⟩
  obtain ⟨payload, pad, hstream, hpayload⟩ := h.stream
  obtain ⟨hcur, hrem⟩ := hinv.walkerIdle (by rw [hmode]; decide)
  refine ⟨payload, hstream, ?_⟩
  rw [execAll_decompress (s := { s with out := s.out ++ payload }) he h.tree hmode h.codedBy hn hpayload,
    ← hcur, ← hrem, ← hmode]

/-- Settles O56: the first pass leaves a state that encodes the input, the payload is its padded codes, and
`execAll_decompress` reads them with the tree built and, by `execAll_reimport`, with the tree imported. -/
theorem compressThenDecompressIsTheIdentity : Obligations.CompressThenDecompressIsTheIdentity := by
  intro b hb hfit hlen
  obtain ⟨s, hrun, h, hout, hunused⟩ := execAll_compress_gen hb hfit
  obtain ⟨payload, pad, hstream, hpayload⟩ := h.stream
  have hcount : (BitVec.ofNat 40 b.length).toNat = b.length := by
    rw [BitVec.toNat_ofNat, Nat.mod_eq_of_lt hlen]
  let s₁ : State := { s with out := payload }
  have hdecode := execAll_decompress (s := s₁) h.noError h.tree h.mode h.codedBy hcount.le hpayload
  obtain ⟨node, himport, hsame⟩ := execAll_reimport (s := s₁) (h.inv.tree h.tree) hunused
  have hdecode' := execAll_decompress (s := { s₁.clear with node := node, root := s.root, tv := true }) rfl rfl rfl
    (h.codedBy.congr hsame) hcount.le hpayload
  rw [hcount, List.take_length] at hdecode hdecode'
  refine ⟨s₁, _, _, ?_, hdecode, rfl, h.noError, rfl, (execAll_append _ himport).trans hdecode', rfl, rfl, rfl⟩
  rw [compressCmds, List.append_assoc, execAll_append _ hrun, hstream, hout, List.nil_append]

/-- Settles O50, by `exec_dln`. -/
theorem openDecodeStartsAtTheRoot : Obligations.OpenDecodeStartsAtTheRoot := by
  refine ⟨illegalWords_opcode .dln, fun count s => ⟨?_, fun he hill => raisesSequence_of_not_legal he rfl ?_,
    fun he htv hmode => ⟨exec_dln count he htv hmode, ?_⟩⟩⟩
  · rw [toNat_encode, Instr.operands, toNat_zero_append]
    rfl
  · rintro ⟨htv, hmode⟩
    obtain h | h := hill
    · cases h.symm.trans htv
    · exact h hmode
  · rw [State.dn_eq_true]
    exact and_iff_right rfl

/-- Settles O53, by `walkBit_missing` at the byte's bit 7. -/
theorem missingChildRaisesCorruptStream : Obligations.MissingChildRaisesCorruptStream := by
  intro s byte he hmode hrem hroot hcur hinternal hchild
  rw [exec_dec byte he hmode, byteBits,
    walkBits_cons_raised _ hrem (walkBit_missing hroot hinternal hcur hchild rfl), State.raise_of_none _ _ he]
  rfl

/-- Settles O54, by `exec_dnd_owed` and `exec_dnd_done`; the last clause is the register invariant's. -/
theorem endDecodeChecksTheCount : Obligations.EndDecodeChecksTheCount :=
  ⟨rfl, illegalWords_opcode .dnd, fun _ he => ⟨raisesSequence_of_not_legal (i := .dnd) he rfl, exec_dnd_owed he,
    exec_dnd_done he, fun hreg hmode hrem => hreg.walkerAtRoot hmode (.inl hrem)⟩⟩

end Sys2Proof.Machine

/-! # Proofs of the statements on the host protocol (48_host_protocol)

First what a renumbering of its nodes keeps of a tree, its symbols and its codes; then the TWNs that send the
renumbered nodes; then the statement. -/

namespace Sys2Proof.Machine

/-! ## Trees with their nodes renumbered (48_host_protocol R164) -/

section renumbering

variable {f : NodeIdx → NodeIdx} {nodes nodes' : Table NodeEntry} {i : NodeIdx} {V : List NodeIdx} {Y : List Sym}
  {bits : List Bool} {sym : Sym}

/-- `e'` is `e` with its children renamed by `f`, but for the frequency, which TWN leaves alone (20_memory R41). -/
structure IsRenamed (f : NodeIdx → NodeIdx) (e e' : NodeEntry) : Prop where
  leaf : e'.leaf = e.leaf
  sym : e'.sym = e.sym
  left : e'.left = f e.left
  right : e'.right = f e.right

theorem IsRenamed.child {e e' : NodeEntry} (h : IsRenamed f e e') (b : Bool) : e'.child b = f (e.child b) := by
  cases b with
  | false => exact h.left
  | true => exact h.right

/-- `nodes'` holds the entries of the nodes `V`, renamed by `f`, at their renamed indices; none of these is NULL, and
NULL keeps its name. -/
structure Renumbers (f : NodeIdx → NodeIdx) (nodes nodes' : Table NodeEntry) (V : List NodeIdx) : Prop where
  entry : ∀ i ∈ V, IsRenamed f (nodeAt nodes i) (nodeAt nodes' (f i))
  ne_null : ∀ i ∈ V, f i ≠ Config.null
  null : f Config.null = Config.null

theorem Renumbers.mono {V₁ V₂ : List NodeIdx} (h : Renumbers f nodes nodes' V₂) (hsub : V₁ ⊆ V₂) :
    Renumbers f nodes nodes' V₁ :=
  ⟨fun i hi => h.entry i (hsub hi), fun i hi => h.ne_null i (hsub hi), h.null⟩

/-- A renumbering of a node with two subtrees is one of each subtree. -/
theorem Renumbers.subtrees {Vl Vr : List NodeIdx} (h : Renumbers f nodes nodes' (i :: (Vl ++ Vr))) :
    Renumbers f nodes nodes' Vl ∧ Renumbers f nodes nodes' Vr :=
  ⟨h.mono (List.subset_cons_of_subset _ (List.subset_append_left ..)),
    h.mono (List.subset_cons_of_subset _ (List.subset_append_right ..))⟩

/-- A renumbered tree is a tree of the renamed nodes and the same symbols (43_tree R118). -/
theorem IsTree.renumber (ht : IsTree nodes i V Y) (h : Renumbers f nodes nodes' V) :
    IsTree nodes' (f i) (V.map f) Y := by
  induction ht with
  | leaf i _ hleaf hl hr =>
    have he := h.entry i List.mem_cons_self
    rw [← he.sym]
    exact .leaf (f i) (h.ne_null i List.mem_cons_self) (he.leaf.trans hleaf) (by rw [he.left, hl, h.null])
      (by rw [he.right, hr, h.null])
  | node i Vl Vr Yl Yr _ hleaf _ _ ihl ihr =>
    have he := h.entry i List.mem_cons_self
    obtain ⟨hl, hr⟩ := h.subtrees
    rw [List.map_cons, List.map_append]
    exact .node (f i) _ _ _ _ (h.ne_null i List.mem_cons_self) (he.leaf.trans hleaf) (he.left ▸ ihl hl)
      (he.right ▸ ihr hr)

/-- A renumbered tree has the same paths to its leaves (44_codes R131). -/
theorem IsTree.leafAt_renumber (ht : IsTree nodes i V Y) (h : Renumbers f nodes nodes' V) :
    LeafAt nodes' (f i) bits sym ↔ LeafAt nodes i bits sym := by
  induction ht generalizing bits with
  | leaf i hi hleaf _ _ =>
    have he := h.entry i List.mem_cons_self
    rw [leafAt_of_leaf (h.ne_null i List.mem_cons_self) (he.leaf.trans hleaf), leafAt_of_leaf hi hleaf, he.sym]
  | node i Vl Vr Yl Yr hi hleaf _ _ ihl ihr =>
    have he := h.entry i List.mem_cons_self
    obtain ⟨hl, hr⟩ := h.subtrees
    have hchild (b : Bool) (bs : List Bool) :
        LeafAt nodes' (f ((nodeAt nodes i).child b)) bs sym ↔ LeafAt nodes ((nodeAt nodes i).child b) bs sym := by
      cases b with
      | false => exact ihl hl
      | true => exact ihr hr
    rw [leafAt_of_internal (h.ne_null i List.mem_cons_self) (he.leaf.trans hleaf), leafAt_of_internal hi hleaf]
    simp only [he.child, hchild]

/-- A renumbered tree has the same codes (44_codes R131). -/
theorem IsTree.isCodeTable_renumber (ht : IsTree nodes i V Y) (h : Renumbers f nodes nodes' V) {codes : Table Code} :
    IsCodeTable nodes' (f i) codes ↔ IsCodeTable nodes i codes := by
  simp only [IsCodeTable, ht.leafAt_renumber h]

/-- A proper tree stays proper under a renumbering that gives no two of its nodes the same index (43_tree R118). -/
theorem IsTree.proper_renumber (ht : IsTree nodes i V Y) (h : Renumbers f nodes nodes' V) (hV : V.Nodup)
    (hinj : ∀ x ∈ V, ∀ y ∈ V, f x = f y → x = y) (hY : Y.Nodup) : proper nodes' (f i) = true :=
  proper_iff.2 ⟨V.map f, Y, ht.renumber h, hV.map_on hinj, hY⟩

end renumbering

/-! ## The import of a renumbered tree (48_host_protocol R164) -/

section renamedImport

variable {s : State}

/-- The TWNs of a tree's nodes, with every index renamed by `f` (48_host_protocol R164). -/
def renamedTwns (f : NodeIdx → NodeIdx) (nodes : Table NodeEntry) (idxs : List NodeIdx) : List Instr :=
  idxs.map fun i => .twn (f i) (nodeAt nodes i).leaf (nodeAt nodes i).sym (f (nodeAt nodes i).left)
    (f (nodeAt nodes i).right)

/-- The TWNs of renamed nodes, no two of them at one index, write NODE only: each node's renamed entry, and no entry
at any other index (43_tree R116). -/
theorem execAll_renamedTwns (f : NodeIdx → NodeIdx) (nodes : Table NodeEntry) {idxs : List NodeIdx}
    (hnull : ∀ i ∈ idxs, f i ≠ Config.null) (hnodup : (idxs.map f).Nodup) (he : s.err = .none) (htv : s.tv = false) :
    ∃ node, execAll (renamedTwns f nodes idxs) s = .next { s with node := node } ∧
      (∀ i ∈ idxs, IsRenamed f (nodeAt nodes i) (nodeAt node (f i))) ∧
      ∀ j, j ∉ idxs.map f → nodeAt node j = nodeAt s.node j := by
  induction idxs generalizing s with
  | nil => exact ⟨s.node, rfl, fun _ hi => absurd hi List.not_mem_nil, fun _ _ => rfl⟩
  | cons i idxs ih =>
    obtain ⟨hi, hrest⟩ := List.nodup_cons.1 hnodup
    have htwn := exec_twn (hnull i List.mem_cons_self) (nodeAt nodes i).leaf (nodeAt nodes i).sym
      (f (nodeAt nodes i).left) (f (nodeAt nodes i).right) he htv
    obtain ⟨node, hrun, hentry, hkept⟩ := ih (s := s.setNode (f i) _) (fun x hx => hnull x (List.mem_cons_of_mem _ hx))
      hrest he htv
    refine ⟨node, (execAll_cons _ htwn).trans hrun, fun x hx => ?_, fun j hj => ?_⟩
    · obtain rfl | hx := List.mem_cons.1 hx
      · rw [hkept _ hi, State.setNode_node, nodeAt_setNodeAt_self]
        exact ⟨rfl, rfl, rfl, rfl⟩
      · exact hentry x hx
    · obtain ⟨hne, hj⟩ := List.ne_and_not_mem_of_not_mem_cons hj
      rw [hkept j hj, State.setNode_node, nodeAt_setNodeAt, if_neg hne]

end renamedImport

/-! ## The statements -/

/-- Settles O42: the TWNs leave the tree renumbered by `execAll_renamedTwns`, so TCM adopts it by
`IsTree.proper_renumber`, and GEN's table for it is the original's by `IsTree.isCodeTable_renumber`. -/
theorem importedTreeGetsTheSameCodes : Obligations.ImportedTreeGetsTheSameCodes := by
  intro s s₀ V V' Y f htree hV hY hperm hreset hne hinj hnull
  have hmem {i : NodeIdx} (hi : i ∈ V') : i ∈ V := hperm.mem_iff.1 hi
  obtain ⟨htv, -⟩ := hreset.flags
  obtain ⟨herr, -⟩ := hreset.latch
  have hnodup : (V'.map f).Nodup := (hperm.map f).nodup_iff.2 (hV.map_on hinj)
  obtain ⟨node, hrun, hentry, -⟩ := execAll_renamedTwns f s.node (fun i hi => hne i (hmem hi)) hnodup herr htv
  have hren : Renumbers f s.node node V := ⟨fun i hi => hentry i (hperm.mem_iff.2 hi), hne, hnull⟩
  have hproper := htree.proper_renumber hren hV hinj hY
  have htcm := exec_tcm_proper (s := { s₀ with node := node }) (htree.renumber hren).root_ne_null herr htv hproper
  obtain ⟨codes, hgen, htable⟩ := exec_gen (s := { s₀ with node := node, root := f s.root, tv := true })
    herr rfl hreset.mode hproper
  exact ⟨_, _, (execAll_append _ hrun).trans (execAll_cons [] htcm), rfl, rfl, herr, hgen,
    (htree.isCodeTable_renumber hren).1 htable⟩

end Sys2Proof.Machine

/-! # Proofs of the statements on errors and sequencing (60_exceptions)

First the words of the ALWAYS commands and what they do while an error is latched; then which error DEC's loop and each
command's own rule raise; then the statements. -/

namespace Sys2Proof.Machine

/-! ## Words while an error is latched (60_exceptions R185, R191) -/

section latched

variable {s : State} {w : Word} {i : Instr}

/-- ALWAYS by opcode number (30_encoding R63, R65). -/
theorem always_iff_code (op : Opcode) : op.always = true ↔
    op.code.toNat ∈ [0x00, 0x01, 0x02, 0x03, 0x12, 0x24, 0x25, 0x31, 0x32] := by
  cases op <;> decide

/-- The read commands by opcode number (20_memory R45, 30_encoding R63). -/
theorem mem_readOpcodes_iff_code (op : Opcode) : op ∈ readOpcodes ↔
    op.code.toNat ∈ [0x02, 0x03, 0x12, 0x24, 0x25, 0x31, 0x32] := by
  cases op <;> decide

/-- The ALWAYS commands are NOP, CLR and the read commands (30_encoding R65). -/
theorem nop_or_clr_or_read_of_always (h : i.opcode.always = true) :
    i = .nop ∨ i = .clr ∨ i.opcode ∈ readOpcodes := by
  cases i with
  | nop => exact .inl rfl
  | clr => exact .inr (.inl rfl)
  | srd | drd | frd | trn | trf | crl | crw => exact .inr (.inr (by simp [Instr.opcode, readOpcodes]))
  | _ => cases h

/-- The word's bits 63:56 as a number are the opcode's (30_encoding R60). -/
theorem toNat_div_of_decode (h : decode w = .ok i) : w.toNat / 2 ^ 56 = i.opcode.code.toNat := by
  rw [← toNat_opcodeByte, ← encode_of_decode h, opcodeByte_encode]

theorem step_offerNext_of_ok (h : decode w = .ok i) : step (s.offerNext w) = exec i s := by
  rw [step_offerNext, h]

/-- While an error is latched a word the decoder refuses changes nothing (30_encoding R66). -/
theorem step_offerNext_refused {e : DecodeError} (he : s.err ≠ .none) (h : decode w = .error e) :
    step (s.offerNext w) = .next s :=
  (raisesIllegal_of_error h s).trans (by rw [if_neg he])

/-- While an error is latched the word of a command not in ALWAYS is dropped (60_exceptions R185). -/
theorem step_latched_dropped (he : s.err ≠ .none)
    (hw : w.toNat / 2 ^ 56 ∉ [0x00, 0x01, 0x02, 0x03, 0x12, 0x24, 0x25, 0x31, 0x32]) :
    step (s.offerNext w) = .next s := by
  cases hd : decode w with
  | error e => exact step_offerNext_refused he hd
  | ok i =>
    rw [toNat_div_of_decode hd, ← always_iff_code, Bool.not_eq_true] at hw
    rw [step_offerNext_of_ok hd, exec_latched he hw]

/-- While an error is latched every command but CLR responds at most, by one word (60_exceptions R185). -/
theorem exec_latched_responds (he : s.err ≠ .none) (hw : i.wf = true) (hi : i ≠ .clr) :
    ∃ ws, exec i s = .next { s with rsp := s.rsp ++ ws } ∧ ws.length ≤ 1 := by
  have hidle (h : exec i s = .next s) : ∃ ws, exec i s = .next { s with rsp := s.rsp ++ ws } ∧ ws.length ≤ 1 :=
    ⟨[], by rw [h, List.append_nil], Nat.zero_le 1⟩
  cases ha : i.opcode.always with
  | false => exact hidle (exec_latched he ha)
  | true =>
    obtain rfl | rfl | hread := nop_or_clr_or_read_of_always ha
    · exact hidle (exec_nop s)
    · exact absurd rfl hi
    · obtain ⟨v, h⟩ := exec_read (s := s) hw hread
      exact ⟨[v], h, Nat.le_refl 1⟩

theorem step_latched_responds (he : s.err ≠ .none) (hw : w ≠ clrWord) :
    ∃ ws, step (s.offerNext w) = .next { s with rsp := s.rsp ++ ws } ∧ ws.length ≤ 1 := by
  cases hd : decode w with
  | error e => exact ⟨[], by rw [step_offerNext_refused he hd, List.append_nil], Nat.zero_le 1⟩
  | ok i =>
    rw [step_offerNext_of_ok hd]
    exact exec_latched_responds he (wf_of_decode hd) fun hi => hw (eq_clrWord_of_decode (hi ▸ hd))

/-- The word of a read command is answered in every state (20_memory R45). -/
theorem step_read (hw : WellFormedWord w) (hread : w.toNat / 2 ^ 56 ∈ [0x02, 0x03, 0x12, 0x24, 0x25, 0x31, 0x32]) :
    ∃ v, step (s.offerNext w) = .next { s with rsp := s.rsp ++ [v] } := by
  obtain ⟨i, hd⟩ := exists_decode_iff.2 hw
  rw [toNat_div_of_decode hd, ← mem_readOpcodes_iff_code] at hread
  rw [step_offerNext_of_ok hd]
  exact exec_read (wf_of_decode hd) hread

/-- CLR's word is performed in every state (40_control R81). -/
theorem step_clrWord (s : State) : step (s.offerNext clrWord) = .next s.clear :=
  (step_offerNext_of_ok (decode_encode (i := .clr) rfl)).trans (exec_clr s)

end latched

/-! ## The error each command's own rule raises (60_exceptions R181, R182, R184) -/

section errors

variable {s t : State} {i : Instr}

/-- Where DEC's loop raises, WalkBit does in a state the loop has reached (46_decode R151). -/
theorem walkBits_raised {bs : List Bool} (h : walkBits bs s = .raised t) :
    ∃ u b, walkBit u b = .raised t ∧ u.err = s.err ∧ u.node = s.node ∧ u.root = s.root := by
  induction bs generalizing s with
  | nil => cases h
  | cons b bs ih =>
    by_cases hrem : s.rem = 0#40
    · rw [walkBits_done _ hrem] at h
      cases h
    · rw [walkBits, if_neg hrem, Res.bind_eq_raised] at h
      obtain h | ⟨_, u, hu, h⟩ := h
      · exact ⟨s, b, h, rfl, rfl, rfl⟩
      · obtain ⟨syms, hframe⟩ := walkBit_frame hu
        obtain ⟨v, c, hv, herr, hnode, hroot⟩ := ih h
        rw [hframe] at herr hnode hroot
        exact ⟨v, c, hv, herr, hnode, hroot⟩

/-- A node index other than NULL is at most 510 as an EINFO value (60_exceptions R182). -/
theorem toNat_infoOfIdx_le {i : NodeIdx} (h : i ≠ Config.null) : (infoOfIdx i).toNat ≤ 510 := by
  rw [infoOfIdx, BitVec.toNat_setWidth]
  bv_omega

/-- DEC's loop raises CorruptStreamError with the root, where that is a leaf, else with the node walked to
(46_decode R152, 60_exceptions R182). -/
theorem ownError_walkBits {bs : List Bool} (byte : Byte) (he : s.err = .none) (h : walkBits bs s = .raised t) :
    OwnError s t (.dec byte) := by
  obtain ⟨u, b, hu, herr, hnode, hroot⟩ := walkBits_raised h
  rw [OwnError, ← hnode, ← hroot]
  obtain ⟨hroot0, ⟨hleaf, -, rfl⟩ | ⟨hleaf, hcur0, -, rfl⟩⟩ := walkBit_raised hu
  all_goals rw [State.raise_of_none _ _ (herr.trans he), hleaf]
  · exact ⟨rfl, toNat_infoOfIdx_le hroot0, rfl⟩
  · exact ⟨rfl, toNat_infoOfIdx_le hcur0, rfl⟩

/-- The rule of a command that passed its checks raises that command's own errors only. -/
theorem ownError_of_legal (he : s.err = .none) (hw : i.wf = true) (hl : Legal s i) (h : exec i s = .next t)
    (ht : t.err ≠ .none) : OwnError s t i := by
  have hs := State.seqOK_iff_legal.2 hl
  cases i <;>
    simp only [exec, execNop, execClr, execSrd, execDrd, execCnt, execFwr, execFrd, execBld, execTwn, execTwf, execTcm,
      execTrn, execTrf, execGen, execCrl, execCrw, execEnc, execFls, execDln, execDec, execDnd,
      guarded_working he hw hs, State.raise_of_none _ _ he] at h
  case nop | srd | drd | fwr | frd | twn | twf | trn | trf | crl | crw | dln => cases h; exact absurd he ht
  case clr => cases h; exact absurd rfl ht
  case cnt | dnd =>
    split at h
    · cases h; exact ⟨rfl, rfl⟩
    · cases h; exact absurd he ht
  case tcm =>
    split at h
    · cases h; exact absurd he ht
    · cases h; exact ⟨rfl, rfl⟩
  case bld =>
    split at h
    · cases h; exact ⟨rfl, rfl⟩
    · rename_i hlive
      split at h
      · cases h
      · rename_i h0
        obtain ⟨node, heap, root, hb, -, -⟩ := buildTree_spec (not_not.1 h0) (State.liveSyms_ne_nil hlive)
        rw [hb] at h
        cases h; exact absurd he ht
  case gen =>
    split at h
    · cases h; exact absurd he ht
    · cases h
  case enc sym =>
    split at h
    · cases h; exact ⟨rfl, rfl⟩
    · obtain ⟨acc, nbits, bytes, hb⟩ := appendBits_frame (codeAt s.code sym).bits (s.setMode .enc)
      rw [hb] at h
      cases h; exact absurd he ht
  case fls => split at h <;> (cases h; exact absurd he ht)
  case dec byte =>
    obtain ⟨_, hok⟩ | hraised := Res.toResult_eq_next.1 h
    · obtain ⟨syms, hframe⟩ := walkBits_ok_frame hok
      rw [hframe] at ht
      exact absurd he ht
    · exact ownError_walkBits byte he hraised

/-- No command's own error is SequenceError (60_exceptions R184). -/
theorem OwnError.ne_sequence (h : OwnError s t i) : t.err ≠ .sequence := by
  intro hseq
  cases i with
  | cnt | bld | tcm | enc | dec | dnd => exact nomatch hseq ▸ h.1
  | _ => exact h

end errors

/-! ## The statements -/

/-- Settles O6: each word is the encoding of its instruction, so `decode_encode` decodes it. -/
theorem writtenOutWordsDecode : Obligations.WrittenOutWordsDecode :=
  ⟨decode_encode (i := .nop) rfl, decode_encode (i := .enc 97#8) rfl,
    decode_encode (i := .twn 2#9 false 0#8 1#9 0#9) rfl, decode_encode (i := .twf 2#9 4#40) rfl,
    decode_encode (i := .dln 4#40) rfl, decode_encode (i := .fwr 97#8 3#32) rfl⟩

/-- Settles O9: a word is refused, dropped or a command of ALWAYS (`step_latched_dropped`, `step_latched_responds`),
and of these CLR alone leads out. -/
theorem latchedErrorHaltsUntilClearOrReset : Obligations.LatchedErrorHaltsUntilClearOrReset := fun s he =>
  ⟨fun _ => step_latched_dropped he, fun _ => step_latched_responds he, fun _ => step_read,
    ⟨s.clear, step_clrWord s, State.atReset_clear s, rfl, rfl⟩,
    ⟨_, rfl, State.atReset_assertReset _, rfl, rfl⟩⟩

/-- Settles O11: by `guarded_cases` an error is one of the two that the checks raise, or the command's own rule has
raised it, which is `ownError_of_legal`. -/
theorem eachCommandRaisesOnlyItsErrors : Obligations.EachCommandRaisesOnlyItsErrors := by
  intro i s t he h ht
  obtain ⟨perform, hp⟩ := exec_eq_guarded i s
  obtain ⟨hne, -⟩ | ⟨hw, rfl⟩ | ⟨-, hw, hs, rfl⟩ | ⟨hw, hs, -, -⟩ := guarded_cases (hp.symm.trans h)
  · exact absurd he hne
  · rw [State.raise_of_none _ _ he]
    exact .inl ⟨rfl, hw, rfl⟩
  · exact .inr (.inl ⟨rfl, hw, fun hl => Bool.eq_false_iff.1 hs (State.seqOK_iff_legal.2 hl), rfl⟩)
  · exact .inr (.inr (ownError_of_legal he hw (State.seqOK_iff_legal.1 hs) h ht))

/-- Settles O10: the illegal command by `raisesSequence_of_not_legal`; a legal one raises its own errors only
(`ownError_of_legal`), and none of these is SequenceError. -/
theorem sequenceErrorExactlyWhereNotLegal : Obligations.SequenceErrorExactlyWhereNotLegal := by
  refine fun i s hw he => ⟨raisesSequence_of_not_legal he hw, fun hl t h hseq => ?_⟩
  exact (ownError_of_legal he hw hl h (by rw [hseq]; decide)).ne_sequence hseq

/-- Settles O12: by `exec_cases` an outcome is a raise, which keeps MODE and the flags, or one command's effect, and
where that command is legal gives the arrow's start. -/
theorem modeAndFlagsChangeOnlyAlongTheDiagram : Obligations.ModeAndFlagsChangeOnlyAlongTheDiagram := by
  intro i s t h
  obtain ⟨e, info, -, rfl⟩ | ⟨hpass, heff⟩ := exec_cases h
  · exact ⟨absurd (State.raise_mode ..), absurd (State.raise_tv ..), absurd (State.raise_cv ..)⟩
  have hl := hpass.legal
  cases heff with
  | nop | read | cnt | fwr | twn | twf => exact ⟨absurd rfl, absurd rfl, absurd rfl⟩
  | clr => exact ⟨fun _ => .inl ⟨rfl, rfl⟩, fun _ => .inl ⟨rfl, rfl⟩, fun _ => .inl ⟨rfl, rfl⟩⟩
  | bld =>
    exact ⟨absurd rfl, fun _ => .inr ⟨.inl rfl, rfl, hpass.notDropped.resolve_right nofun⟩, absurd rfl⟩
  | tcm idx =>
    exact ⟨absurd rfl, fun _ => .inr ⟨.inr ⟨idx, rfl⟩, rfl, hpass.notDropped.resolve_right nofun⟩, absurd rfl⟩
  | gen => exact ⟨absurd rfl, absurd rfl, fun _ => .inr ⟨rfl, hl.1, rfl⟩⟩
  | enc sym =>
    obtain ⟨acc, nbits, bytes, hb⟩ := appendBits_frame (codeAt s.code sym).bits (s.setMode .enc)
    rw [hb]
    exact ⟨fun hm => .inr (.inl ⟨sym, rfl, hl.2.resolve_right (Ne.symm hm), hl.1, rfl⟩), absurd rfl, absurd rfl⟩
  | flsEmpty | flsPending =>
    exact ⟨fun hm => .inr (.inr (.inl ⟨rfl, hl.2.resolve_left (Ne.symm hm), rfl⟩)), absurd rfl, absurd rfl⟩
  | dln count =>
    exact ⟨fun _ => .inr (.inr (.inr (.inl ⟨count, rfl, hl.2, hl.1, rfl⟩))), absurd rfl, absurd rfl⟩
  | dec byte hw =>
    obtain ⟨syms, ht⟩ := walkBits_frame hw
    rw [ht]
    exact ⟨absurd rfl, absurd rfl, absurd rfl⟩
  | dnd h0 =>
    exact ⟨fun _ => .inr (.inr (.inr (.inr ⟨rfl, hl, h0, rfl⟩))), absurd rfl, absurd rfl⟩

end Sys2Proof.Machine
